-- ==== Sys2Proof/Word.lean ====
section
/-! DEFINITION. The machine's words (spec/00_scope.md R5 to R7). Bit 0 is the most significant bit of a word and
bit 17 the least significant, so `w[i]` of the spec is `w.getMsbD i`, and `w[a:b]` is `w.extractLsb' (17 - b) (b - a + 1)`. -/

namespace Sys2Proof

/-- A word of memory, of AC, of I/O, of MB: `WORD_BITS` = 18 (R5). -/
abbrev Word := BitVec 18

/-- A location within one memory: `ADDR_BITS` = 12 (R5). -/
abbrev Addr := BitVec 12

/-- A character: `CHAR_BITS` = 6 (R5). -/
abbrev Character := BitVec 6

/-- The number of a memory, physical or name: 0 to 3 (R5 `N_MEM`). -/
abbrev MemNo := BitVec 2

end Sys2Proof
end

