-- ==== Sys2Proof/Config.lean ====
section
/-! DEFINITION. What an installation fixes and what the spec leaves free (spec/00_scope.md R5, spec/10_state.md R27).
No `opaque` constant here has a body, so nothing can be proved of its value and every statement holds whatever it is. A function
whose first argument is a `Nat` is a draw: the argument is the number of the draw (`State.draws`; for the two of the drum,
of its turn, `State.turns`), so that each use is fresh ("a draw, under no law", spec/44_iot_devices.md R220). -/

namespace Sys2Proof.Config

/-! Constants of the installation. -/

/-- `RNM_XY`: the physical memory X and the new name Y that the digits `XX` of RNM designate (R195, D13). -/
opaque rnmXY : BitVec 6 → MemNo × MemNo

/-- `IncorrectOp`: which words are "incorrect operation codes" (R261, D22). Asked only of words the table does not match. -/
opaque incorrectOp : Word → Bool

/-- `DCS_CHAR_BITS`: the data communication system has 8-bit characters if true, 5-bit characters if false (R227). -/
opaque dcsEightBit : Bool

/-- How many channels the sequence break system has beyond the fifteen that channel 16 (octal) needs (R5). -/
opaque channelsBeyondFifteen : Nat

/-- `N_CHANNELS`: the channels of the sequence break system, open but at least decimal 15 (R5). -/
abbrev nChannels : Nat := channelsBeyondFifteen + 15

/-- `DRUM_CHANNEL`: the sequence break channel of the drum (R265, D29). -/
opaque drumChannel : Fin nChannels

/-- `DCS_CHANNEL`: the sequence break channel of the scanner flag (R265, D29). -/
opaque dcsChannel : Fin nChannels

/-- Whether SDB leaves the light pen status as it was; the source does not say that it clears it, nor that it does not (R239, U29). -/
opaque sdbKeepsLightPen : Bool

/-- What a core word that nothing has written holds: the initial contents of core (R28, R290, D18). -/
opaque coreAtStart : MemNo → Addr → Word

/-! Draws. -/

/-- `BaseEffAddr`: the effective address the base machine's defer bit makes of an address portion (R108, D6). -/
opaque baseEffAddr : Nat → Addr → Addr

/-- `TB_load`: what a restrict mode trap leaves in the trap buffer, a number of unstated width (R262, D19). -/
opaque trapBuffer : Nat → Nat

/-- `ClockRead`: the clock buffer at the moment RCK reads it (R197, D20). -/
opaque clockRead : Nat → Word

/-- The conditions of the Rem-Rand Control that RRI reads (R200). -/
opaque remRandIn : Nat → Word

/-- What DRA reads into I/O (R225, D24). -/
opaque drumAddress : Nat → Word

/-- What the drum's turn of that number has left in a core word that a transfer may be rewriting (R49, R226, U19, D24). -/
opaque drumWord : Nat → MemNo → Addr → Word

/-- Whether the drum's last transfer is still running after the drum's turn of that number; the source does not say when
one is over (R226, R293). -/
opaque drumBusy : Nat → Bool

/-- The character the line of the receiver counter presents (R229). Five-bit equipment uses its low five bits. -/
opaque dcsCharacter : Nat → BitVec 8

/-- The receiver counter at the moment an instruction uses it (R229, R231, R233). -/
opaque receiverCounter : Nat → BitVec 6

/-- The dot counter of the character generator after a plot, a number of unstated width (R240, R241). -/
opaque dotCounter : Nat → Nat

/-- The X buffer-counter of the character generator after a space, a number of unstated width (R243, R244). -/
opaque xCounter : Nat → Nat

end Sys2Proof.Config
end

