-- ==== Sys2Proof/Syntax.lean ====
section
/-! DEFINITION. The instructions: one constructor per row of spec/opcode_table.json (spec/30_encoding.md R60 to R73). -/

namespace Sys2Proof

/-- The ten action bits of a special operate word, bits 6 to 15 in their order (R65). -/
structure SpcActs where
  iif : Bool
  ifi : Bool
  idc : Bool
  ida : Bool
  scm : Bool
  sci : Bool
  scf : Bool
  szl : Bool
  cll : Bool
  cml : Bool
  deriving DecidableEq, Repr

/-- An instruction with its operands. `y` is the address portion (R61); `x` is the pair of ignored bits 16 and 17 of a
special operate word (R163); `xx` is the pair of octal digits printed `XX` of an in-out transfer (R66); `c` is the bit
of the data communication group that clears I/O first (R228). -/
inductive Instr where
  /-- LCH, code 12 (R103). -/
  | lch (y : Addr)
  /-- LCH_i, code 13 (R104). -/
  | lchI (y : Addr)
  /-- DCH, code 14 (R105). -/
  | dch (y : Addr)
  /-- DCH_i, code 15 (R106). -/
  | dchI (y : Addr)
  /-- TAD, code 36 (R107). -/
  | tad (y : Addr)
  /-- TAD_i, code 37 (R108). -/
  | tadI (y : Addr)
  /-- SNI, 644000 (R130). -/
  | sni
  /-- SZI, 654000 (R131). -/
  | szi
  /-- LIA, 760020 (R132). -/
  | lia
  /-- LAI, 760040 (R133). -/
  | lai
  /-- SWP, 760060 (R134). -/
  | swp
  /-- CMI, 770000 (R135). -/
  | cmi
  /-- SPC, codes 74 and 75: a special operate word that is none of the eleven below (R150). -/
  | spc (rev : Bool) (acts : SpcActs) (x : BitVec 2)
  /-- IIF, 744000 (R152). -/
  | iif (x : BitVec 2)
  /-- IFI, 742000 (R153). -/
  | ifi (x : BitVec 2)
  /-- IDC, 741000 (R154). -/
  | idc (x : BitVec 2)
  /-- IDA, 740400 (R155). -/
  | ida (x : BitVec 2)
  /-- SCM, 740200 (R156). -/
  | scm (x : BitVec 2)
  /-- SCI, 740100 (R157). -/
  | sci (x : BitVec 2)
  /-- SCF, 740040 (R158). -/
  | scf (x : BitVec 2)
  /-- SZL, 740020 (R159). -/
  | szl (x : BitVec 2)
  /-- CLL, 740010 (R161). -/
  | cll (x : BitVec 2)
  /-- CML, 740004 (R162). -/
  | cml (x : BitVec 2)
  /-- SZL_rev, 750020 (R160). -/
  | szlRev (x : BitVec 2)
  /-- ERG, 720011 (R191). -/
  | erg
  /-- LRG, 720010 (R192). -/
  | lrg
  /-- LRM, 720064 (R193). -/
  | lrm
  /-- ERM, 720065 (R194). -/
  | erm
  /-- RSM, 720067 (R196). -/
  | rsm
  /-- RNM, 72XX66 (R195). -/
  | rnm (xx : BitVec 6)
  /-- RCK, 72XX32 (R197). -/
  | rck (xx : BitVec 6)
  /-- CTB, 72XX35 (R198). -/
  | ctb (xx : BitVec 6)
  /-- RRO, 72XX17 (R199). -/
  | rro (xx : BitVec 6)
  /-- RRI, 72XX37 (R200). -/
  | rri (xx : BitVec 6)
  /-- DBA, 722061 (R224). -/
  | dba
  /-- DRA, 722062 (R225). -/
  | dra
  /-- DIA, 72XX61 but for 722061 (R221). -/
  | dia (xx : BitVec 6)
  /-- DWC, 72XX62 but for 722062 (R222). -/
  | dwc (xx : BitVec 6)
  /-- DCL, 720063 (R223). -/
  | dcl
  /-- RCH, 720022 (R229). -/
  | rch (c : Bool)
  /-- RCC, 721022 (R230). -/
  | rcc (c : Bool)
  /-- TCC, 725022 (R231). -/
  | tcc (c : Bool)
  /-- TCB, 724022 (R232). -/
  | tcb (c : Bool)
  /-- RRC, 720122 (R233). -/
  | rrc (c : Bool)
  /-- SSB, 724122 (R234). -/
  | ssb (c : Bool)
  /-- RSC, 721122 (R235). -/
  | rsc (c : Bool)
  /-- DPY, 720007 (R238). -/
  | dpy
  /-- SDB, 722007 (R239). -/
  | sdb
  /-- GPL, 722027 (R240). -/
  | gpl
  /-- GPR, 720027 (R241). -/
  | gpr
  /-- GCF, 720127 (R242). -/
  | gcf
  /-- GLF, 722026 (R243). -/
  | glf
  /-- GSP, 720026 (R244). -/
  | gsp
  deriving DecidableEq, Repr

end Sys2Proof
end

