-- ==== Sys2Proof/WellFormed.lean ====
section
/-! DEFINITION. Which terms of `Instr` name a word of their own (spec/30_encoding.md R68, R69). Three checks: a special
operate word with a single action belongs to that action's constructor, and 722061 and 722062 are DBA and DRA. -/

namespace Sys2Proof

/-- How many of the ten actions are asked for. -/
def SpcActs.count (a : SpcActs) : Nat :=
  a.iif.toNat + a.ifi.toNat + a.idc.toNat + a.ida.toNat + a.scm.toNat + a.sci.toNat + a.scf.toNat + a.szl.toNat
    + a.cll.toNat + a.cml.toNat

/-- A special operate word that has a row of its own beside SPC: one action and no reversal, or SZL reversed (R69, R72). -/
def SpcActs.hasOwnRow (rev : Bool) (a : SpcActs) : Bool :=
  a.count == 1 && (!rev || a.szl)

/-- The digits of 722061 and 722062, which are DBA and DRA and not DIA and DWC (R68 item 3). -/
def drumDigits : BitVec 6 := 0o20#6

/-- The check. -/
def Instr.wf : Instr → Bool
  | .spc rev acts _ => !SpcActs.hasOwnRow rev acts
  | .dia xx => xx != drumDigits
  | .dwc xx => xx != drumDigits
  | .lch _ | .lchI _ | .dch _ | .dchI _ | .tad _ | .tadI _ | .sni | .szi | .lia | .lai | .swp | .cmi
  | .iif _ | .ifi _ | .idc _ | .ida _ | .scm _ | .sci _ | .scf _ | .szl _ | .cll _ | .cml _ | .szlRev _
  | .erg | .lrg | .lrm | .erm | .rsm | .rnm _ | .rck _ | .ctb _ | .rro _ | .rri _ | .dba | .dra | .dcl
  | .rch _ | .rcc _ | .tcc _ | .tcb _ | .rrc _ | .ssb _ | .rsc _
  | .dpy | .sdb | .gpl | .gpr | .gcf | .glf | .gsp => true

/-- The in-out transfers: the constructors of octal code 72 (R66, R190). -/
def Instr.isIot : Instr → Bool
  | .erg | .lrg | .lrm | .erm | .rsm | .rnm _ | .rck _ | .ctb _ | .rro _ | .rri _ | .dba | .dra | .dia _ | .dwc _ | .dcl
  | .rch _ | .rcc _ | .tcc _ | .tcb _ | .rrc _ | .ssb _ | .rsc _
  | .dpy | .sdb | .gpl | .gpr | .gcf | .glf | .gsp => true
  | .lch _ | .lchI _ | .dch _ | .dchI _ | .tad _ | .tadI _ | .sni | .szi | .lia | .lai | .swp | .cmi | .spc _ _ _
  | .iif _ | .ifi _ | .idc _ | .ida _ | .scm _ | .sci _ | .scf _ | .szl _ | .cll _ | .cml _ | .szlRev _ => false

end Sys2Proof
end

