-- ==== Sys2Proof/Decode.lean ====
section
/-! DEFINITION. From words to instructions and back (spec/30_encoding.md R60 to R70). Decoding is total: a word is an
instruction or is rejected by name. -/

namespace Sys2Proof

/-- Why a word is no instruction of the table. -/
inductive Reject where
  /-- A code the supplement neither adds nor extends: the base machine's (R60, R68). -/
  | baseCode
  /-- A word of code 64 or 65 other than the two printed (R63, R136). -/
  | skipCombination
  /-- A word of code 76 or 77 other than the four printed (R64, R136). -/
  | operateCombination
  /-- A word of code 72 whose device code or digits are not printed (R70). -/
  | unprintedIot
  /-- A word of code 73 (R66). -/
  | code73
  deriving DecidableEq, Repr

/-! Fields of a word. -/

/-- The octal code of a word: bits 0 to 5 (R60). -/
def octalCode (w : Word) : BitVec 6 := w.extractLsb' 12 6

/-- Bits 6 to 17: the address portion of format MR (R61). -/
def lowTwelve (w : Word) : BitVec 12 := w.extractLsb' 0 12

/-- The action bits as a structure, bit 6 of the word first (R65). -/
def SpcActs.ofBits (b : BitVec 10) : SpcActs :=
  { iif := b.getMsbD 0, ifi := b.getMsbD 1, idc := b.getMsbD 2, ida := b.getMsbD 3, scm := b.getMsbD 4,
    sci := b.getMsbD 5, scf := b.getMsbD 6, szl := b.getMsbD 7, cll := b.getMsbD 8, cml := b.getMsbD 9 }

/-- The action bits as they stand in the word, bit 6 of the word first (R65). -/
def SpcActs.toBits (a : SpcActs) : BitVec 10 :=
  BitVec.ofBool a.iif ++ BitVec.ofBool a.ifi ++ BitVec.ofBool a.idc ++ BitVec.ofBool a.ida ++ BitVec.ofBool a.scm
    ++ BitVec.ofBool a.sci ++ BitVec.ofBool a.scf ++ BitVec.ofBool a.szl ++ BitVec.ofBool a.cll ++ BitVec.ofBool a.cml

/-! Decoding by group. -/

/-- Codes 74 and 75 (R65): bits 6 to 15 are `b`, bits 16 and 17 are `x`. The printed single words have their own rows. -/
def decodeSpc (rev : Bool) (b : BitVec 10) (x : BitVec 2) : Instr :=
  if rev then
    if b = 0o0004#10 then .szlRev x else .spc true (SpcActs.ofBits b) x
  else if b = 0o1000#10 then .iif x
  else if b = 0o0400#10 then .ifi x
  else if b = 0o0200#10 then .idc x
  else if b = 0o0100#10 then .ida x
  else if b = 0o0040#10 then .scm x
  else if b = 0o0020#10 then .sci x
  else if b = 0o0010#10 then .scf x
  else if b = 0o0004#10 then .szl x
  else if b = 0o0002#10 then .cll x
  else if b = 0o0001#10 then .cml x
  else .spc false (SpcActs.ofBits b) x

/-- Device code 22 (R227, R228): bit 7 of the word, the second of `xx`, clears I/O first; the others choose the operation. -/
def decodeDcs (xx : BitVec 6) : Except Reject Instr :=
  let c := xx.getMsbD 1
  let control := xx &&& 0o57#6
  if control = 0o00#6 then .ok (.rch c)
  else if control = 0o10#6 then .ok (.rcc c)
  else if control = 0o50#6 then .ok (.tcc c)
  else if control = 0o40#6 then .ok (.tcb c)
  else if control = 0o01#6 then .ok (.rrc c)
  else if control = 0o41#6 then .ok (.ssb c)
  else if control = 0o11#6 then .ok (.rsc c)
  else .error .unprintedIot

/-- The in-out transfers printed without free digits (R69). -/
def decodeExactIot (xx dev : BitVec 6) : Except Reject Instr :=
  if xx = 0o00#6 ∧ dev = 0o11#6 then .ok .erg
  else if xx = 0o00#6 ∧ dev = 0o10#6 then .ok .lrg
  else if xx = 0o00#6 ∧ dev = 0o64#6 then .ok .lrm
  else if xx = 0o00#6 ∧ dev = 0o65#6 then .ok .erm
  else if xx = 0o00#6 ∧ dev = 0o67#6 then .ok .rsm
  else if xx = 0o00#6 ∧ dev = 0o63#6 then .ok .dcl
  else if xx = 0o00#6 ∧ dev = 0o07#6 then .ok .dpy
  else if xx = 0o20#6 ∧ dev = 0o07#6 then .ok .sdb
  else if xx = 0o20#6 ∧ dev = 0o27#6 then .ok .gpl
  else if xx = 0o00#6 ∧ dev = 0o27#6 then .ok .gpr
  else if xx = 0o01#6 ∧ dev = 0o27#6 then .ok .gcf
  else if xx = 0o20#6 ∧ dev = 0o26#6 then .ok .glf
  else if xx = 0o00#6 ∧ dev = 0o26#6 then .ok .gsp
  else .error .unprintedIot

/-- Code 72 (R66): a row with fewer free digits wins over a row with more (R68 item 3). -/
def decodeIot (xx dev : BitVec 6) : Except Reject Instr :=
  if dev = 0o66#6 then .ok (.rnm xx)
  else if dev = 0o32#6 then .ok (.rck xx)
  else if dev = 0o35#6 then .ok (.ctb xx)
  else if dev = 0o17#6 then .ok (.rro xx)
  else if dev = 0o37#6 then .ok (.rri xx)
  else if dev = 0o61#6 then .ok (if xx = drumDigits then .dba else .dia xx)
  else if dev = 0o62#6 then .ok (if xx = drumDigits then .dra else .dwc xx)
  else if dev = 0o22#6 then decodeDcs xx
  else decodeExactIot xx dev

/-- The decoder (R60, R68). -/
def decode (w : Word) : Except Reject Instr :=
  let op := octalCode w
  let y := lowTwelve w
  if op = 0o12#6 then .ok (.lch y)
  else if op = 0o13#6 then .ok (.lchI y)
  else if op = 0o14#6 then .ok (.dch y)
  else if op = 0o15#6 then .ok (.dchI y)
  else if op = 0o36#6 then .ok (.tad y)
  else if op = 0o37#6 then .ok (.tadI y)
  else if op = 0o64#6 then (if y = 0o4000#12 then .ok .sni else .error .skipCombination)
  else if op = 0o65#6 then (if y = 0o4000#12 then .ok .szi else .error .skipCombination)
  else if op = 0o72#6 then decodeIot (y.extractLsb' 6 6) (y.extractLsb' 0 6)
  else if op = 0o73#6 then .error .code73
  else if op = 0o74#6 then .ok (decodeSpc false (y.extractLsb' 2 10) (y.extractLsb' 0 2))
  else if op = 0o75#6 then .ok (decodeSpc true (y.extractLsb' 2 10) (y.extractLsb' 0 2))
  else if op = 0o76#6 then
    if y = 0o0020#12 then .ok .lia
    else if y = 0o0040#12 then .ok .lai
    else if y = 0o0060#12 then .ok .swp
    else .error .operateCombination
  else if op = 0o77#6 then (if y = 0o0000#12 then .ok .cmi else .error .operateCombination)
  else .error .baseCode

/-- The decoder as the host asks for it: `w` is an instruction of `nbits` bits, bit 0 the least significant. A word of
this machine has 18 bits, so a number with a higher bit set is no instruction. -/
def decodeTableWord (nbits w : Nat) : Option Instr :=
  let v := w % 2 ^ nbits
  if v < 2 ^ 18 then (decode (BitVec.ofNat 18 v)).toOption else none

/-! Encoding, from the same tables. -/

/-- A word of format MR (R61), and of every group whose low twelve bits are printed whole (R63, R64). -/
def wordOf (code : BitVec 6) (low : BitVec 12) : Word := code ++ low

/-- A word of format SPC (R65). -/
def spcWord (rev : Bool) (b : BitVec 10) (x : BitVec 2) : Word :=
  wordOf (0b11110#5 ++ BitVec.ofBool rev) (b ++ x)

/-- A word of format IOT (R66). -/
def iotWord (xx dev : BitVec 6) : Word := wordOf 0o72#6 (xx ++ dev)

/-- The digits of a data communication word: the printed ones and the bit that clears I/O first (R228). -/
def dcsDigits (control : BitVec 6) (c : Bool) : BitVec 6 := control ||| bif c then 0o20#6 else 0#6

/-- The word of an instruction (R69). -/
def encode : Instr → Word
  | .lch y => wordOf 0o12#6 y
  | .lchI y => wordOf 0o13#6 y
  | .dch y => wordOf 0o14#6 y
  | .dchI y => wordOf 0o15#6 y
  | .tad y => wordOf 0o36#6 y
  | .tadI y => wordOf 0o37#6 y
  | .sni => 0o644000#18
  | .szi => 0o654000#18
  | .lia => 0o760020#18
  | .lai => 0o760040#18
  | .swp => 0o760060#18
  | .cmi => 0o770000#18
  | .spc rev acts x => spcWord rev acts.toBits x
  | .iif x => spcWord false 0o1000#10 x
  | .ifi x => spcWord false 0o0400#10 x
  | .idc x => spcWord false 0o0200#10 x
  | .ida x => spcWord false 0o0100#10 x
  | .scm x => spcWord false 0o0040#10 x
  | .sci x => spcWord false 0o0020#10 x
  | .scf x => spcWord false 0o0010#10 x
  | .szl x => spcWord false 0o0004#10 x
  | .cll x => spcWord false 0o0002#10 x
  | .cml x => spcWord false 0o0001#10 x
  | .szlRev x => spcWord true 0o0004#10 x
  | .erg => 0o720011#18
  | .lrg => 0o720010#18
  | .lrm => 0o720064#18
  | .erm => 0o720065#18
  | .rsm => 0o720067#18
  | .rnm xx => iotWord xx 0o66#6
  | .rck xx => iotWord xx 0o32#6
  | .ctb xx => iotWord xx 0o35#6
  | .rro xx => iotWord xx 0o17#6
  | .rri xx => iotWord xx 0o37#6
  | .dba => 0o722061#18
  | .dra => 0o722062#18
  | .dia xx => iotWord xx 0o61#6
  | .dwc xx => iotWord xx 0o62#6
  | .dcl => 0o720063#18
  | .rch c => iotWord (dcsDigits 0o00#6 c) 0o22#6
  | .rcc c => iotWord (dcsDigits 0o10#6 c) 0o22#6
  | .tcc c => iotWord (dcsDigits 0o50#6 c) 0o22#6
  | .tcb c => iotWord (dcsDigits 0o40#6 c) 0o22#6
  | .rrc c => iotWord (dcsDigits 0o01#6 c) 0o22#6
  | .ssb c => iotWord (dcsDigits 0o41#6 c) 0o22#6
  | .rsc c => iotWord (dcsDigits 0o11#6 c) 0o22#6
  | .dpy => 0o720007#18
  | .sdb => 0o722007#18
  | .gpl => 0o722027#18
  | .gpr => 0o720027#18
  | .gcf => 0o720127#18
  | .glf => 0o722026#18
  | .gsp => 0o720026#18

end Sys2Proof
end

