-- ==== Sys2Proof/Machine/State.lean ====
section
/-! DEFINITION. The state of the machine, as plain data (spec/10_state.md R10 to R28), the reasons a step can stop, and
the state after reset. -/

namespace Sys2Proof.Machine

/-- The four causes of the restrict mode trap (R260 X1 to X4). -/
inductive TrapCause where
  | incorrectOp
  | iot
  | hlt
  | protectedMemory
  deriving DecidableEq, Repr

/-- A run ends in a fault. -/
inductive Fault where
  /-- Raised by a step whose restrict mode trap has been taken: the default `SeqBreakEntry`, the spec's `Trapped(16, cause)`
  (R263, D14). Safe: the hardware goes on to a break handler that the spec does not describe. -/
  | trapped (channel : Nat) (cause : TrapCause)
  /-- Raised by a step at which a device has requested a sequence break: the default `SeqBreakEntry` on the installation's
  channel (R265, D29). Safe: no step of the model sets such a request. -/
  | deviceBreak (channel : Fin Config.nChannels)
  deriving DecidableEq, Repr

/-- The model gives a word or a situation no meaning. -/
inductive Refusal where
  /-- Raised by an arm of `exec` whose instruction has no meaning yet. Safe. -/
  | notModelled (mnemonic : String)
  /-- Raised by a step whose word no row of the table matches: the base machine's `BaseStep`, default refuse, or code 73
  (R4, R66, R68, R136; D1, D11, D27). Safe. -/
  | noMeaning (why : Reject)
  /-- Raised by a step whose word is an incorrect operation code, with RM = 0 (R70, D22). Safe. -/
  | incorrectOpcode
  /-- Raised by SPC with bit 5 set and bit 13 clear (R150, D9). Safe. -/
  | reverseWithoutSkip
  /-- Raised by any access to a memory name that no physical memory, or more than one, bears: the processor's, DCL's memory
  select, and the drum's while a transfer runs (R41, R53, D23). Safe. -/
  | memoryName
  /-- Raised by DIA, DWC or DCL given elsewhere than in its place of the order DIA (or DBA), DWC, DCL (R293, U18). Safe. -/
  | drumOrder
  /-- Raised by DIA where the drum's last transfer has not ended: a new sequence during a transfer (R293, U18). Safe. -/
  | drumBusy
  /-- Raised by DCL for a transfer whose values have no meaning: both or neither of the read and write bits, no word, or a
  core or drum address that would wrap (R226, U18). Safe. -/
  | drumTransfer
  deriving DecidableEq, Repr

/-- How far the sequence DIA (or DBA), DWC, DCL has come (R293), and so which of DIA, DWC and DCL is the next one admitted.
`breakGiven`: a DBA, which may stand for the DIA of a sequence or alone (R224). `outOfOrder`: a DBA inside a sequence, after
which none of the three is. The model's own record (log 28). -/
inductive DrumSequence where
  | none
  | breakGiven
  | addressGiven
  | countGiven
  | outOfOrder
  deriving DecidableEq, Repr

/-- Core words the drum may be rewriting (R49, R226): `count` words upward from `start` in a physical memory. -/
structure Window where
  memory : MemNo
  start : Addr
  count : Nat
  deriving DecidableEq, Repr

/-- The drum's registers (R221 to R226). `go`: DCL has said GO and its transfer is not known to be over. `rewrites`: that
transfer moves words to core, `wordCount` of them upward from `coreAddress`; a DBA may since have changed `read`. `windows`:
the core words that a transfer may be rewriting. These two are the model's record of the transfers (log 28). -/
structure Drum where
  read : Bool
  readField : BitVec 5
  initialAddress : BitVec 12
  write : Bool
  writeField : BitVec 5
  wordCount : BitVec 12
  memory : MemNo
  coreAddress : Addr
  go : Bool
  rewrites : Bool
  currentAddress : Word
  breakArmed : Bool
  sequence : DrumSequence
  windows : List Window
  deriving DecidableEq, Repr

/-- The data communication system's registers (R227 to R236). Line `n` has bit `n` of `receiverFlags`. -/
structure Dcs where
  receiverCounter : BitVec 6
  sendBuffer : BitVec 6
  receiverFlags : BitVec 64
  scannerFlag : Bool
  deriving DecidableEq, Repr

/-- The display's registers (R237 to R239, R242). -/
structure Display where
  x : BitVec 10
  y : BitVec 10
  lightPen : Bool
  deriving DecidableEq, Repr

/-- The character generator's registers (R240 to R244). The widths of the two counters are in no source: numbers. DESIGN
CHOICE: the horizontal and vertical dot counter, one in R26 and R241 and two in R270, is kept as one number (log 34). -/
structure CharGen where
  shift : Word
  subscript : Bool
  size : BitVec 2
  autoSpacing : Bool
  dotCounter : Nat
  xCounter : Nat
  deriving DecidableEq, Repr

/-- The Rem-Rand Control's eighteen conditions, out and in (R199, R200). -/
structure RemRand where
  conditionsOut : Word
  conditionsIn : Word
  deriving DecidableEq, Repr

/-- The requests made of the sequence break system: channel 16 (octal) by the restrict mode logic, with its cause; the
drum; the scanner flag (R26, R260). -/
structure Breaks where
  restrict : Option TrapCause
  drum : Bool
  scanner : Bool
  deriving DecidableEq, Repr

/-- What the processor hands to a device: the events `DevOut(dev, op, v)` (R220), one constructor per device and operation. -/
inductive DevEvent where
  | remRandRro (conditions : Word)
  | drumDia (v : Word)
  | drumDwc (v : Word)
  | drumDcl (v : Word)
  | drumDba (v : Word)
  | dcsClearReceiverFlag
  | dcsClearScannerFlag
  | dcsTransmitByReceiverCounter (character : BitVec 8)
  | dcsTransmitBySendBuffer (character : BitVec 8)
  | dcsSsb (station : BitVec 6)
  | displayDpy (x y : BitVec 10)
  | displaySdb (x y : BitVec 10)
  | displayGcf
  | chargenGpl (dots : Word)
  | chargenGpr (dots : Word)
  | chargenGlf (format : BitVec 3)
  | chargenGsp (dots : Word)
  deriving DecidableEq, Repr

/-- Core: the words that have been written, each under the key 4096 * (physical memory) + (location) (R40). -/
abbrev Memory := List (Nat × Word)

/-- The one canonical form of core: keys strictly rising, all within the four memories. An unlisted word has not been
written, or is the drum's to rewrite, so what it holds is free and every listed word differs from it. -/
abbrev Memory.wf (m : Memory) : Prop :=
  (m.map Prod.fst).Pairwise (· < ·) ∧ ∀ cell ∈ m, cell.1 < 4 * 4096

/-- The whole machine. Names as in spec/10_state.md; `draws` and `turns` are the model's own: they number
the free values taken, and the drum's turns between memory cycles. -/
structure State where
  ac : Word
  io : Word
  pc : Addr
  link : Bool
  ring : Bool
  pf : BitVec 6
  rm : Bool
  prot : BitVec 4
  names : Vector MemNo 4
  tb : Nat
  ckb : Word
  mcur : MemNo
  ma : Addr
  mb : Word
  ld : BitVec 2
  inc : Bool
  mem : Memory
  drum : Drum
  dcs : Dcs
  display : Display
  chargen : CharGen
  remRand : RemRand
  breaks : Breaks
  history : List DevEvent
  draws : Nat
  turns : Nat
  deriving DecidableEq, Repr

/-- What a meaning answers. -/
abbrev Result := Host.Outcome State Fault Refusal

/-- Every memory bears its own number: what RSM restores (R196). -/
def physicalNames : Vector MemNo 4 := #v[0#2, 1#2, 2#2, 3#2]

/-- The machine right after reset. DESIGN CHOICE throughout: the spec gives no reset value (R28, R290). -/
def State.reset : State where
  ac := 0#18
  io := 0#18
  pc := 0#12
  link := false
  ring := false
  pf := 0#6
  rm := false
  prot := 0#4
  names := physicalNames
  tb := 0
  ckb := 0#18
  mcur := 0#2
  ma := 0#12
  mb := 0#18
  ld := 0#2
  inc := false
  mem := []
  drum :=
    { read := false, readField := 0#5, initialAddress := 0#12, write := false, writeField := 0#5, wordCount := 0#12,
      memory := 0#2, coreAddress := 0#12, go := false, rewrites := false, currentAddress := 0#18, breakArmed := false,
      sequence := .none, windows := [] }
  dcs := { receiverCounter := 0#6, sendBuffer := 0#6, receiverFlags := 0#64, scannerFlag := false }
  display := { x := 0#10, y := 0#10, lightPen := false }
  chargen := { shift := 0#18, subscript := false, size := 0#2, autoSpacing := false, dotCounter := 0, xCounter := 0 }
  remRand := { conditionsOut := 0#18, conditionsIn := 0#18 }
  breaks := { restrict := none, drum := false, scanner := false }
  history := []
  draws := 0
  turns := 0

end Sys2Proof.Machine
end

