-- ==== Sys2Proof/Machine/Operands.lean ====
section
/-! DEFINITION. The operand forms: characters of a word, the character pointer word and its step, the index of the
accumulator, the fields of I/O and AC that in-out transfers hand on. All are functions of words (spec/30_encoding.md R62,
R67; spec/40_memory_reference.md R100 to R106). -/

namespace Sys2Proof.Machine

/-! The character pointer word (format CP, R62). -/

/-- Bits 0 and 1: the character code. -/
def pointerCode (w : Word) : BitVec 2 := w.extractLsb' 16 2

/-- Bits 2 to 5, which nothing interprets (D4). -/
def pointerMiddle (w : Word) : BitVec 4 := w.extractLsb' 12 4

/-- Bits 6 to 17: the address portion. -/
def pointerAddress (w : Word) : Addr := w.extractLsb' 0 12

/-- A pointer word of its three parts. -/
def pointerWord (code : BitVec 2) (middle : BitVec 4) (address : Addr) : Word := code ++ middle ++ address

/-- The address step of the ring: bits 15 to 17 count modulo 8, the nine above them stay (R151). -/
def ringStep (a : Addr) : Addr := a.extractLsb' 3 9 ++ (a.extractLsb' 0 3 + 1#3)

/-- The address step: in ring mode within eight locations, else modulo 10000 octal (R101). -/
def addressStep (ring : Bool) (a : Addr) : Addr := if ring then ringStep a else a + 1#12

/-- `StepPtr` (R101): behind the automatic mode of LCH and DCH, and behind IDC. -/
def stepPtr (ring : Bool) (w : Word) : Word :=
  if pointerCode w = 0b11#2 then pointerWord 0b01#2 (pointerMiddle w) (addressStep ring (pointerAddress w))
  else pointerWord (pointerCode w + 1#2) (pointerMiddle w) (pointerAddress w)

/-- The code of a pointer used without stepping: 00 is interpreted as 01 (R100). -/
def plainCode (code : BitVec 2) : BitVec 2 := if code = 0b00#2 then 0b01#2 else code

/-! Characters of a word (R44). -/

/-- The character the code designates: 01 bits 0-5, 10 bits 6-11, 11 bits 12-17 (R103). -/
def getCharacter (code : BitVec 2) (w : Word) : Character :=
  if code = 0b01#2 then w.extractLsb' 12 6
  else if code = 0b10#2 then w.extractLsb' 6 6
  else w.extractLsb' 0 6

/-- The word with the character the code designates replaced, the other twelve bits kept (R105). -/
def putCharacter (code : BitVec 2) (c : Character) (w : Word) : Word :=
  if code = 0b01#2 then c ++ w.extractLsb' 0 12
  else if code = 0b10#2 then w.extractLsb' 12 6 ++ c ++ w.extractLsb' 0 6
  else w.extractLsb' 6 12 ++ c

/-- Bits 0 to 5 of the accumulator, the character DCH takes (R105). -/
def firstCharacter (w : Word) : Character := w.extractLsb' 12 6

/-- A character alone in bits 0 to 5, bits 6 to 17 clear (R103). -/
def characterWord (c : Character) : Word := c ++ 0#12

/-- The accumulator rotated left by one character (R105). -/
def rotateCharacter (w : Word) : Word := w.extractLsb' 0 12 ++ w.extractLsb' 12 6

/-! The accumulator's index (R155). -/

/-- `IndexAC` (R155): in ring mode only bits 15 to 17 count, modulo 8. -/
def indexAC (ring : Bool) (w : Word) : Word :=
  if ring then w.extractLsb' 3 15 ++ (w.extractLsb' 0 3 + 1#3) else w + 1#18

/-! Fields that in-out transfers read from I/O or AC. -/

/-- Bits 0 to 9: a display coordinate (R237). -/
def coordinate (w : Word) : BitVec 10 := w.extractLsb' 8 10

/-- Bits 10 to 17. -/
def lowEight (w : Word) : BitVec 8 := w.extractLsb' 0 8

/-- Bits 12 to 17. -/
def lowSix (w : Word) : BitVec 6 := w.extractLsb' 0 6

/-- Bits 10 to 13: the protect bits of memories 0 to 3 (R194). -/
def protectBits (w : Word) : BitVec 4 := w.extractLsb' 4 4

/-- Bits 1 to 5: a drum field (R221, R222). -/
def drumField (w : Word) : BitVec 5 := w.extractLsb' 12 5

/-- Bits 6 to 17: a drum address, a word count or a core address (R221 to R223). -/
def drumNumber (w : Word) : BitVec 12 := w.extractLsb' 0 12

/-- Bits 2 and 3: the memory DCL selects (R223). -/
def drumMemory (w : Word) : MemNo := w.extractLsb' 14 2

/-- `CH`: the character bits of I/O, 10 to 17 or 13 to 17 by the equipment, as eight bits (R227). -/
def dcsCharacterOf (w : Word) : BitVec 8 :=
  if Config.dcsEightBit then lowEight w else (w.extractLsb' 0 5).setWidth 8

/-- A character the device presents, confined to the equipment's width (R229). -/
def dcsCharacterIn (c : BitVec 8) : Word :=
  if Config.dcsEightBit then c.setWidth 18 else (c.extractLsb' 0 5).setWidth 18

end Sys2Proof.Machine
end

