-- ==== Sys2Proof/Machine/Flags.lean ====
section
/-! DEFINITION. The flags: the flag byte (spec/10_state.md R16) and every computation that reads or writes the link
(spec/10_state.md R13). There is no overflow flag (R17, D7). -/

namespace Sys2Proof.Machine

/-- `FLAGS8` (R16): link, ring mode, program flags 1 to 6, which correspond to I/O bits 10 to 17. -/
def State.flags8 (s : State) : BitVec 8 := BitVec.ofBool s.link ++ BitVec.ofBool s.ring ++ s.pf

/-- `FLAGS8 <- f` (R16). -/
def State.setFlags8 (f : BitVec 8) (s : State) : State :=
  { s with link := f.getMsbD 0, ring := f.getMsbD 1, pf := f.extractLsb' 0 6 }

/-- All eight flags to zero (R158). -/
def State.clearFlags (s : State) : State := { s with link := false, ring := false, pf := 0#6 }

/-- TAD's sum, exact: AC, the link and the operand (R107). -/
def tadSum (ac : Word) (link : Bool) (m : Word) : Nat := ac.toNat + link.toNat + m.toNat

/-- TAD's new AC: the sum modulo 2^18 (R107). -/
def tadResult (ac : Word) (link : Bool) (m : Word) : Word := BitVec.ofNat 18 (tadSum ac link m)

/-- TAD's new link: the carry out of bit 0 (R107, D5). -/
def tadCarry (ac : Word) (link : Bool) (m : Word) : Bool := decide (2 ^ 18 ≤ tadSum ac link m)

/-- SCM: the complement of the accumulator plus the link, the carry dropped (R156, D7). -/
def specialComplement (ac : Word) (link : Bool) : Word := ~~~ac + (BitVec.ofBool link).setWidth 18

end Sys2Proof.Machine
end

