-- ==== Sys2Proof/Machine/Ops.lean ====
section
/-! DEFINITION. The named operations over core, the restrict mode trap and the device boundary, which the meanings
share (spec/20_memory.md R41 to R53, spec/60_exceptions.md R261 to R265, spec/44_iot_devices.md R220). -/

namespace Sys2Proof.Machine

/-! Core as data. -/

/-- The word listed under a key, if one has been written there. -/
def Memory.wordAt (k : Nat) : Memory → Option Word
  | [] => none
  | (k', v) :: rest => if k = k' then some v else Memory.wordAt k rest

/-- Core with one word written, the keys kept rising. -/
def Memory.store (k : Nat) (v : Word) : Memory → Memory
  | [] => [(k, v)]
  | (k', v') :: rest =>
    if k < k' then (k, v) :: (k', v') :: rest
    else if k = k' then (k, v) :: rest
    else (k', v') :: Memory.store k v rest

/-- The key of location `a` of physical memory `p` (R40). -/
def coreKey (p : MemNo) (a : Addr) : Nat := 4096 * p.toNat + a.toNat

/-- The physical memory of a key. -/
def keyMemory (k : Nat) : MemNo := BitVec.ofNat 2 (k / 4096)

/-- The location of a key. -/
def keyAddr (k : Nat) : Addr := BitVec.ofNat 12 k

/-! Names and protection. -/

/-- `NAME[p]` (R19). -/
def State.nameOf (s : State) (p : MemNo) : MemNo := s.names.get p.toFin

/-- The physical memories that bear the name `m` (R41). -/
def State.bearers (s : State) (m : MemNo) : List MemNo :=
  [0#2, 1#2, 2#2, 3#2].filter fun p => s.nameOf p == m

/-- `Resolve` (R41): the one physical memory of that name; none if no memory or several bear it (D23). -/
def State.resolve (s : State) (m : MemNo) : Option MemNo :=
  match s.bearers m with
  | [p] => some p
  | _ => none

/-- `PROT[m]` (R18). -/
def State.protects (s : State) (m : MemNo) : Bool := s.prot.getMsbD m.toNat

/-- The processor's accesses are forbidden: `RM = 1 and PROT[mcur] = 1` (R41, R52). -/
def State.blocked (s : State) : Bool := s.rm && s.protects s.mcur

/-! Core, which the processor and the drum share (R49). -/

/-- Location `a` of physical memory `p` is a word of the window (R226). -/
def Window.covers (w : Window) (p : MemNo) (a : Addr) : Bool :=
  w.memory == p && decide (w.start.toNat ≤ a.toNat) && decide (a.toNat < w.start.toNat + w.count)

/-- A drum transfer may be rewriting location `a` of physical memory `p` (R49, R226). -/
def State.inDoubt (s : State) (p : MemNo) (a : Addr) : Bool := s.drum.windows.any fun w => w.covers p a

/-- The word held at location `a` of physical memory `p`: the model's read of one word of core. A word the drum may be
rewriting holds what the drum's last turn left there, any value (R49, U19). -/
def State.core (s : State) (p : MemNo) (a : Addr) : Word :=
  if s.inDoubt p a then Config.drumWord s.turns p a
  else (Memory.wordAt (coreKey p a) s.mem).getD (Config.coreAtStart p a)

/-- The drum agent's turn between two memory cycles of the processor (R49, D16): any number of its steps, each of which
moves one word into a window. After it every word of the windows holds any value: a new free value for each, by `State.core`. -/
def State.drumTurn (s : State) : State := { s with turns := s.turns + 1 }

/-- The words the drum may be rewriting are the drum's: what the processor wrote there is listed no longer. -/
def State.yieldToDrum (s : State) : State :=
  { s with mem := s.mem.filter fun cell => !s.inDoubt (keyMemory cell.1) (keyAddr cell.1) }

/-- The words of physical memory `p` that the drum's transfer goes to where `p` answers to its name (R226). -/
def Drum.window (d : Drum) (p : MemNo) : Window := { memory := p, start := d.coreAddress, count := d.wordCount.toNat }

/-- The drum's last transfer is not over; whether it is, is free (R226, log 28). -/
def State.transferRunning (s : State) : Bool := s.drum.go && Config.drumBusy s.turns

/-- Where a transfer that is not known to be over moves the words still to come: its window in the memory that bears the name
DCL gave, if one does (R53, log 28). -/
def State.transferWindows (s : State) : List Window :=
  if s.drum.go && s.drum.rewrites then (s.resolve s.drum.memory).toList.map s.drum.window else []

/-- Memories take new names, and nothing else changes (R195, R196) but where the transfer's next words go (R53). -/
def State.rename (names : Vector MemNo 4) (s : State) : State :=
  let t := { s with names := names }
  State.yieldToDrum { t with drum := { t.drum with windows := t.transferWindows ∪ t.drum.windows } }

/-! The restrict mode trap. -/

/-- `TRAP_CHANNEL`: octal 16 (R5). -/
def trapChannel : Nat := 0o16

/-- `raise RestrictTrap(cause)` (R262): the trap buffer is loaded, a break on channel 16 is requested, nothing else
changes. The one operation by which an exception is taken. -/
def State.restrictTrap (cause : TrapCause) (s : State) : State :=
  { s with
    tb := Config.trapBuffer s.draws
    draws := s.draws + 1
    breaks := { s.breaks with restrict := some cause } }

/-- `SeqBreakEntry` (R263, R265), the default: the run ends. The spec describes no other entry and no return (R267). -/
def State.seqBreakEntry (s : State) : Option Fault :=
  match s.breaks.restrict with
  | some cause => some (.trapped trapChannel cause)
  | none =>
    if s.breaks.drum then some (.deviceBreak Config.drumChannel)
    else if s.breaks.scanner then some (.deviceBreak Config.dcsChannel)
    else none

/-! Memory cycles. -/

/-- What the read of a memory cycle leaves: MA and MB (R24), and the drum's turn that follows the cycle (R49), counted here
once for each cycle: a write belongs to the cycle of the read before it and sees nothing of the turn (R47). -/
def State.afterRead (s : State) (p : MemNo) (a : Addr) : State :=
  State.drumTurn { s with ma := a, mb := s.core p a }

/-- What is listed once `v` has been written (R41). Where the drum may overwrite it before the next memory cycle it is not
listed (R49). -/
def State.written (s : State) (p : MemNo) (a : Addr) (v : Word) : Memory :=
  if s.inDoubt p a then s.mem else Memory.store (coreKey p a) v s.mem

/-- What the write of a memory cycle leaves: the word in core, MA and MB (R24, R41). -/
def State.afterWrite (s : State) (p : MemNo) (a : Addr) (v : Word) : State :=
  { s with mem := s.written p a v, ma := a, mb := v }

/-- The check for name of a memory addressed (R53): "All addressed memories are checked for name." -/
def named (m : MemNo) (s : State) (k : MemNo → Result) : Result :=
  match s.resolve m with
  | none => .refused .memoryName
  | some p => k p

/-- The access a running transfer makes, of the memory DCL named, to move its next word (R49): checked for name too, it is
refused where no memory or several bear the name (R53, D23). -/
def drumAccess (s : State) (r : Result) : Result := if s.transferRunning then named s.drum.memory s fun _ => r else r

/-- An access of the processor (R41, R52): trapped, refused for its name, or made in the physical memory. -/
def access (s : State) (k : MemNo → Result) : Result :=
  if s.blocked then .next (s.restrictTrap .protectedMemory) else named s.mcur s k

/-- `MemRead(a, 1)` (R41), and what the instruction does with the word. -/
def memRead (a : Addr) (s : State) (k : Word → State → Result) : Result :=
  access s fun p => k (s.core p a) (s.afterRead p a)

/-- `MemWrite(a, 1, v)` (R41), and what the instruction does next. -/
def memWrite (a : Addr) (v : Word) (s : State) (k : State → Result) : Result :=
  access s fun p => k (s.afterWrite p a v)

/-! Character addressing. -/

/-- `CharAddrPlain` (R100): the pointer is left as it was. INC stays clear in the non-automatic form (R25). -/
def charAddrPlain (y : Addr) (s : State) (k : BitVec 2 → Addr → State → Result) : Result :=
  memRead y s fun w s =>
    let code := plainCode (pointerCode w)
    k code (pointerAddress w) { s with ld := code, inc := false }

/-- `CharAddrAuto` (R102): the pointer is stepped and rewritten before it is used. -/
def charAddrAuto (y : Addr) (s : State) (k : BitVec 2 → Addr → State → Result) : Result :=
  memRead y s fun w s =>
    let w := stepPtr s.ring w
    memWrite y w s fun s => k (pointerCode w) (pointerAddress w) { s with ld := pointerCode w, inc := true }

/-! Skips and in-out transfers. -/

/-- `skip` (R8): on top of the increment of the fetch. -/
def State.skip (s : State) : State := { s with pc := s.pc + 1#12 }

/-- The skip of a condition. -/
def State.skipIf (c : Bool) (s : State) : State := if c then s.skip else s

/-- What all in-out transfers share (R190): in restrict mode, a trap before any effect. -/
def inOut (s : State) (k : State → Result) : Result :=
  if s.rm then .next (s.restrictTrap .iot) else k s

/-- `DevOut` (R220): the event joins the run's history. -/
def State.devOut (e : DevEvent) (s : State) : State := { s with history := s.history ++ [e] }

/-- A draw has been taken (R220 `DevIn`). -/
def State.drawn (s : State) : State := { s with draws := s.draws + 1 }

/-- `PreClear` (R228): the bit of the data communication group that clears I/O first. -/
def State.preClear (c : Bool) (s : State) : State := if c then { s with io := 0#18 } else s

end Sys2Proof.Machine
end

