-- ==== Sys2Proof/Machine/IotDevices.lean ====
section
/-! DEFINITION. The device in-out transfers (spec/44_iot_devices.md R220 to R245): drum, data communication system,
display, character generator. Each first applies R190 through `inOut`, hands its event to the device (R220) and keeps
the device's registers (spec/10_state.md R26). -/

namespace Sys2Proof.Machine

/-! The drum (R221 to R226). -/

/-- One of the drum's three instructions is admitted only in its place of their order (R293, U18). -/
def inDrumOrder (places : List DrumSequence) (s : State) (k : State → Result) : Result :=
  if s.drum.sequence ∈ places then k s else .refused .drumOrder

/-- A new sequence begins only once the last transfer is over (R293, U18). -/
def beginSequence (s : State) (k : State → Result) : Result :=
  inDrumOrder [.none, .breakGiven] s fun s => if s.transferRunning then .refused .drumBusy else k s

/-- The figure of DIA, which DBA is "decoded the same as": read bit, field and initial address (R221, R224). -/
def Drum.addressed (d : Drum) (v : Word) : Drum :=
  { d with read := v.getMsbD 0, readField := drumField v, initialAddress := drumNumber v }

/-- DIA: I/O gives the drum's address, and a new sequence begins (R221, R293). -/
def State.drumInitial (s : State) : State :=
  { s with drum := { s.drum.addressed s.io with go := false, sequence := .addressGiven } }

/-- What a DBA makes of the sequence (R224, R293): where none is open and no transfer runs it may stand for DIA; inside one it
is out of order. During a transfer it stands alone. -/
def DrumSequence.afterBreak (running : Bool) : DrumSequence → DrumSequence
  | .none => if running then .none else .breakGiven
  | .breakGiven => .breakGiven
  | .addressGiven => .outOfOrder
  | .countGiven => .outOfOrder
  | .outOfOrder => .outOfOrder

/-- DBA: I/O gives the drum's address and the break on address is armed (R224). -/
def State.drumBreak (s : State) : State :=
  { s with drum := { s.drum.addressed s.io with
      breakArmed := true
      go := s.transferRunning
      sequence := s.drum.sequence.afterBreak s.transferRunning } }

/-- DWC: write bit, field and word count from I/O (R222, R293). -/
def State.drumCount (s : State) : State :=
  { s with drum := { s.drum with
      write := s.io.getMsbD 0
      writeField := drumField s.io
      wordCount := drumNumber s.io
      sequence := .countGiven } }

/-- The drum's values give its transfer a meaning (R226, U18): a read or a write, of at least one word, that takes neither the
core address nor the drum address past 7777. -/
def Drum.hasMeaning (d : Drum) : Bool :=
  (d.read != d.write) && decide (0 < d.wordCount.toNat) && decide (d.coreAddress.toNat + d.wordCount.toNat ≤ 4096)
    && decide (d.initialAddress.toNat + d.wordCount.toNat ≤ 4096)

/-- The windows once GO has been said for physical memory `p` (R226): a read adds its own, a write none. -/
def Drum.started (d : Drum) (p : MemNo) : List Window := if d.read then d.window p :: d.windows else d.windows

/-- The figure of DCL: memory select and core address, and GO (R223). -/
def Drum.located (d : Drum) (v : Word) : Drum :=
  { d with memory := drumMemory v, coreAddress := drumNumber v, go := true, sequence := .none }

/-- DCL, whose memory select names physical memory `p`: the drum agent starts (R223, R226). -/
def State.drumGo (p : MemNo) (s : State) : State :=
  let d := s.drum.located s.io
  State.yieldToDrum { s with drum := { d with rewrites := d.read, windows := d.started p } }

/-- GO is said only of a transfer that has a meaning (R226, U18). -/
def withMeaning (s : State) (r : Result) : Result :=
  if (s.drum.located s.io).hasMeaning then r else .refused .drumTransfer

/-- DIA: drum initial address (R221). -/
def execDia (s : State) : Result :=
  inOut s fun s => beginSequence s fun s => .next (State.devOut (.drumDia s.io) s.drumInitial)

/-- DBA: drum break address, "decoded the same as DIA", and arms the break on address (R224). -/
def execDba (s : State) : Result := inOut s fun s => .next (State.devOut (.drumDba s.io) s.drumBreak)

/-- DWC: drum word count (R222). -/
def execDwc (s : State) : Result :=
  inOut s fun s => inDrumOrder [.addressGiven, .breakGiven] s fun s => .next (State.devOut (.drumDwc s.io) s.drumCount)

/-- DCL: drum core location and GO (R223). Its memory select is checked for name like any address (R53, D23). -/
def execDcl (s : State) : Result :=
  inOut s fun s => inDrumOrder [.countGiven] s fun s => withMeaning s <|
    named (drumMemory s.io) s fun p => .next (State.devOut (.drumDcl s.io) (s.drumGo p))

/-- DRA: drum request address, a draw into I/O (R225). -/
def execDra (s : State) : Result :=
  inOut s fun s =>
    .next { s.drawn with
      io := Config.drumAddress s.draws
      drum := { s.drum with currentAddress := Config.drumAddress s.draws } }

/-! The data communication system (R227 to R236). -/

/-- The receiver flags with the flag of one line cleared. -/
def withoutFlag (line : BitVec 6) (flags : BitVec 64) : BitVec 64 := flags &&& ~~~(1#64 <<< line.toNat)

/-- The receiver flag of a line is cleared (R229). -/
def State.clearReceiverFlag (line : BitVec 6) (s : State) : State :=
  State.devOut .dcsClearReceiverFlag { s with dcs := { s.dcs with receiverFlags := withoutFlag line s.dcs.receiverFlags } }

/-- The scanner flag is cleared and the scanner released (R235). -/
def State.clearScannerFlag (s : State) : State :=
  State.devOut .dcsClearScannerFlag { s with dcs := { s.dcs with scannerFlag := false } }

/-- RCH's operation: the character of the line the receiver counter names is ORed into I/O, that line's flag cleared (R229). -/
def State.receive (s : State) : State :=
  { s.drawn with
    io := s.io ||| dcsCharacterIn (Config.dcsCharacter s.draws)
    dcs := { s.dcs with
      receiverCounter := Config.receiverCounter s.draws
      receiverFlags := withoutFlag (Config.receiverCounter s.draws) s.dcs.receiverFlags }
    history := s.history ++ [.dcsClearReceiverFlag] }

/-- RCH: receive a character (R229). -/
def execRch (c : Bool) (s : State) : Result := inOut s fun s => .next (s.preClear c).receive

/-- RCC: receive a character and release the scanner (R230). -/
def execRcc (c : Bool) (s : State) : Result := inOut s fun s => .next (s.preClear c).receive.clearScannerFlag

/-- TCC's operation: the character goes to the line the receiver counter names, that line's flag and the scanner flag
are cleared (R231). -/
def State.transmitByReceiverCounter (s : State) : State :=
  { s.drawn with
    dcs := { s.dcs with
      receiverCounter := Config.receiverCounter s.draws
      receiverFlags := withoutFlag (Config.receiverCounter s.draws) s.dcs.receiverFlags
      scannerFlag := false }
    history := s.history ++
      [.dcsTransmitByReceiverCounter (dcsCharacterOf s.io), .dcsClearReceiverFlag, .dcsClearScannerFlag] }

/-- TCC: transmit a character using the receiver counter (R231). -/
def execTcc (c : Bool) (s : State) : Result := inOut s fun s => .next (s.preClear c).transmitByReceiverCounter

/-- TCB's operation: the character goes to the station the send buffer names, and that line's flag is cleared (R232, R297). -/
def State.transmitBySendBuffer (s : State) : State :=
  State.clearReceiverFlag s.dcs.sendBuffer (State.devOut (.dcsTransmitBySendBuffer (dcsCharacterOf s.io)) s)

/-- TCB: transmit a character using the send buffer (R232). -/
def execTcb (c : Bool) (s : State) : Result := inOut s fun s => .next (s.preClear c).transmitBySendBuffer

/-- RRC's operation: the receiver counter is ORed into I/O bits 12 to 17 (R233). -/
def State.readReceiverCounter (s : State) : State :=
  { s.drawn with
    io := s.io ||| (Config.receiverCounter s.draws).setWidth 18
    dcs := { s.dcs with receiverCounter := Config.receiverCounter s.draws } }

/-- RRC: read the receiver counter (R233). -/
def execRrc (c : Bool) (s : State) : Result := inOut s fun s => .next (s.preClear c).readReceiverCounter

/-- SSB's operation: I/O bits 12 to 17 go to the send buffer (R234). -/
def State.setSendBuffer (s : State) : State :=
  State.devOut (.dcsSsb (lowSix s.io)) { s with dcs := { s.dcs with sendBuffer := lowSix s.io } }

/-- SSB: set the send buffer (R234). -/
def execSsb (c : Bool) (s : State) : Result := inOut s fun s => .next (s.preClear c).setSendBuffer

/-- RSC: clear the scanner flag (R235). -/
def execRsc (c : Bool) (s : State) : Result := inOut s fun s => .next (s.preClear c).clearScannerFlag

/-! The display (R237 to R239, R242). -/

/-- DPY: display one point; the light pen status is cleared (R238). -/
def execDpy (s : State) : Result :=
  inOut s fun s =>
    .next (State.devOut (.displayDpy (coordinate s.ac) (coordinate s.io))
      { s with display := { x := coordinate s.ac, y := coordinate s.io, lightPen := false } })

/-- SDB: load the buffers without intensifying (R239); whether the light pen status is cleared is free (U29). -/
def execSdb (s : State) : Result :=
  inOut s fun s =>
    .next (State.devOut (.displaySdb (coordinate s.ac) (coordinate s.io))
      { s with display :=
          { x := coordinate s.ac, y := coordinate s.io, lightPen := s.display.lightPen && Config.sdbKeepsLightPen } })

/-- GCF: the light pen status is cleared (R242). -/
def execGcf (s : State) : Result :=
  inOut s fun s => .next (State.devOut .displayGcf { s with display := { s.display with lightPen := false } })

/-! The character generator (R240, R241, R243, R244). -/

/-- GPL: the first 17 dots, and the subscript control from I/O bit 17 (R240). -/
def execGpl (s : State) : Result :=
  inOut s fun s =>
    .next (State.devOut (.chargenGpl s.io)
      { s.drawn with chargen :=
          { s.chargen with shift := s.io, subscript := s.io.getMsbD 17, dotCounter := Config.dotCounter s.draws } })

/-- GPR: the last 18 dots (R241); with automatic spacing the beam then moves on (R243). -/
def execGpr (s : State) : Result :=
  inOut s fun s =>
    .next (State.devOut (.chargenGpr s.io)
      { s.drawn with chargen :=
          { s.chargen with
            shift := s.io
            dotCounter := Config.dotCounter s.draws
            xCounter := if s.chargen.autoSpacing then Config.xCounter s.draws else s.chargen.xCounter } })

/-- GLF: automatic spacing and character size from I/O bits 15 to 17 (R243). -/
def execGlf (s : State) : Result :=
  inOut s fun s =>
    .next (State.devOut (.chargenGlf (s.io.extractLsb' 0 3))
      { s with chargen := { s.chargen with autoSpacing := s.io.getMsbD 15, size := s.io.extractLsb' 0 2 } })

/-- GSP: I/O goes to the shift register and the X buffer-counter moves one character on (R244). Whether dots of an I/O that
is not clear are plotted is not said (R294), so the dot counter is then free (DESIGN CHOICE, log 34). -/
def execGsp (s : State) : Result :=
  inOut s fun s =>
    .next (State.devOut (.chargenGsp s.io)
      { s.drawn with chargen :=
          { s.chargen with
            shift := s.io
            dotCounter := if s.io = 0#18 then s.chargen.dotCounter else Config.dotCounter s.draws
            xCounter := Config.xCounter s.draws } })

end Sys2Proof.Machine
end

