-- ==== Sys2Proof/Machine/IotProcessor.lean ====
section
/-! DEFINITION. Memory and processor control, and the miscellaneous processor in-out transfers
(spec/43_iot_processor.md R190 to R201). Each first applies R190 through `inOut`. -/

namespace Sys2Proof.Machine

/-- ERG: enter ring mode (R191). -/
def execErg (s : State) : Result := inOut s fun s => .next { s with ring := true }

/-- LRG: leave ring mode (R192). -/
def execLrg (s : State) : Result := inOut s fun s => .next { s with ring := false }

/-- LRM: leave restrict mode (R193). -/
def execLrm (s : State) : Result := inOut s fun s => .next { s with rm := false, prot := 0#4 }

/-- ERM: enter restrict mode, the protect bits loaded from I/O bits 10 to 13 (R194, D25). -/
def execErm (s : State) : Result := inOut s fun s => .next { s with rm := true, prot := protectBits s.io }

/-- RSM: every memory bears its own number (R196). -/
def execRsm (s : State) : Result := inOut s fun s => .next (s.rename physicalNames)

/-- RNM: memory X is renamed Y, with X and Y as the installation reads the digits (R195, D13). -/
def execRnm (xx : BitVec 6) (s : State) : Result :=
  inOut s fun s => .next (s.rename (s.names.set (Config.rnmXY xx).1.toFin (Config.rnmXY xx).2))

/-- RCK: the clock buffer is read into I/O (R197, D20). -/
def execRck (s : State) : Result :=
  inOut s fun s => .next { s.drawn with ckb := Config.clockRead s.draws, io := Config.clockRead s.draws }

/-- CTB: the trap buffer is cleared (R198). -/
def execCtb (s : State) : Result := inOut s fun s => .next { s with tb := 0 }

/-- RRO: I/O goes to the Rem-Rand Control (R199). -/
def execRro (s : State) : Result :=
  inOut s fun s => .next (State.devOut (.remRandRro s.io) { s with remRand := { s.remRand with conditionsOut := s.io } })

/-- RRI: the conditions of the Rem-Rand Control are read into I/O (R200). -/
def execRri (s : State) : Result :=
  inOut s fun s =>
    .next { s.drawn with
      io := Config.remRandIn s.draws
      remRand := { s.remRand with conditionsIn := Config.remRandIn s.draws } }

end Sys2Proof.Machine
end

