-- ==== Sys2Proof/Machine/MemoryReference.lean ====
section
/-! DEFINITION. The memory reference instructions (spec/40_memory_reference.md R100 to R110). `exec`'s state is the one
the fetch left: PC already names the next instruction (spec/10_state.md R12). -/

namespace Sys2Proof.Machine

/-- LCH's cycle one, once the character has been addressed (R103). -/
def loadCharacter (code : BitVec 2) (a : Addr) (s : State) : Result :=
  memRead a s fun w s => .next { s with ac := characterWord (getCharacter code w) }

/-- DCH's cycle one, once the character has been addressed: read, replace, write back, and rotate AC (R105). -/
def depositCharacter (code : BitVec 2) (a : Addr) (s : State) : Result :=
  memRead a s fun w s =>
    memWrite a (putCharacter code (firstCharacter s.ac) w) s fun s =>
      .next { s with ac := rotateCharacter s.ac }

/-- TAD's addition of the word at `e` (R107). -/
def addWord (e : Addr) (s : State) (k : State → Result) : Result :=
  memRead e s fun m s => k { s with ac := tadResult s.ac s.link m, link := tadCarry s.ac s.link m }

/-- LCH Y (R103). -/
def execLch (y : Addr) (s : State) : Result := charAddrPlain y s loadCharacter

/-- LCH i Y (R104). -/
def execLchI (y : Addr) (s : State) : Result := charAddrAuto y s loadCharacter

/-- DCH Y (R105). -/
def execDch (y : Addr) (s : State) : Result := charAddrPlain y s depositCharacter

/-- DCH i Y (R106). -/
def execDchI (y : Addr) (s : State) : Result := charAddrAuto y s depositCharacter

/-- TAD Y (R107). -/
def execTad (y : Addr) (s : State) : Result := addWord y s .next

/-- TAD i Y (R108): the effective address is the base machine's, a free value (D6). -/
def execTadI (y : Addr) (s : State) : Result :=
  addWord (Config.baseEffAddr s.draws y) s fun s => .next s.drawn

end Sys2Proof.Machine
end

