-- ==== Sys2Proof/Machine/SkipOperate.lean ====
section
/-! DEFINITION. The skip group and the I/O register operate instructions (spec/41_skip_and_operate.md R130 to R137). -/

namespace Sys2Proof.Machine

/-- SNI: skip on non-zero I/O (R130). -/
def execSni (s : State) : Result := .next (s.skipIf (s.io != 0#18))

/-- SZI: skip on zero I/O (R131). -/
def execSzi (s : State) : Result := .next (s.skipIf (s.io == 0#18))

/-- LIA: load I/O from AC (R132). -/
def execLia (s : State) : Result := .next { s with io := s.ac }

/-- LAI: load AC from I/O (R133). -/
def execLai (s : State) : Result := .next { s with ac := s.io }

/-- SWP: exchange AC and I/O (R134). -/
def execSwp (s : State) : Result := .next { s with ac := s.io, io := s.ac }

/-- CMI: complement the I/O (R135). -/
def execCmi (s : State) : Result := .next { s with io := ~~~s.io }

end Sys2Proof.Machine
end

