-- ==== Sys2Proof/Machine/SpecialOperate.lean ====
section
/-! DEFINITION. The special operate group (spec/42_special_operate.md R150 to R165): the single actions, and SPC, which
runs any set of them in four event times. -/

namespace Sys2Proof.Machine

/-! The event times of SPC. Each reads the state the one before it left; the actions of one event time all read the
state from before it (R150, D8). -/

/-- Event time 1: SCI, SCF, CLL; SZL's test is `State.skipNoted`. -/
def eventOne (a : SpcActs) (s : State) : State :=
  let s := if a.sci then { s with io := 0#18 } else s
  let s := if a.scf then s.clearFlags else s
  if a.cll then { s with link := false } else s

/-- Event time 1: whether SZL, or SZL reversed, has found the link it skips on (R150, R159, R160). -/
def State.skipNoted (s : State) (rev : Bool) (a : SpcActs) : Bool := a.szl && ((!s.link) != rev)

/-- Event time 2: SCM, IFI, IIF. -/
def eventTwo (a : SpcActs) (s : State) : State :=
  let ac := if a.scm then specialComplement s.ac s.link else s.ac
  let flags := if a.ifi then s.flags8 ||| lowEight s.io else s.flags8
  let io := if a.iif then s.io ||| s.flags8.setWidth 18 else s.io
  State.setFlags8 flags { s with ac := ac, io := io }

/-- Event time 3: IDA, CML. -/
def eventThree (a : SpcActs) (s : State) : State :=
  { s with
    ac := if a.ida then indexAC s.ring s.ac else s.ac
    link := if a.cml then !s.link else s.link }

/-- Event time 4: IDC. -/
def eventFour (a : SpcActs) (s : State) : State :=
  { s with ac := if a.idc then stepPtr s.ring s.ac else s.ac }

/-- SPC (R150). Bit 5 with bit 13 clear is refused (D9). -/
def execSpc (rev : Bool) (a : SpcActs) (s : State) : Result :=
  if rev && !a.szl then .refused .reverseWithoutSkip
  else .next (State.skipIf (s.skipNoted rev a) (eventFour a (eventThree a (eventTwo a (eventOne a s)))))

/-! The words with one action. -/

/-- IIF: the flags are ORed into I/O bits 10 to 17 (R152). -/
def execIif (s : State) : Result := .next { s with io := s.io ||| s.flags8.setWidth 18 }

/-- IFI: I/O bits 10 to 17 are ORed into the flags (R153). -/
def execIfi (s : State) : Result := .next (s.setFlags8 (s.flags8 ||| lowEight s.io))

/-- IDC: index character (R154). -/
def execIdc (s : State) : Result := .next { s with ac := stepPtr s.ring s.ac }

/-- IDA: index accumulator (R155). -/
def execIda (s : State) : Result := .next { s with ac := indexAC s.ring s.ac }

/-- SCM: special complement (R156). -/
def execScm (s : State) : Result := .next { s with ac := specialComplement s.ac s.link }

/-- SCI: clear I/O (R157). -/
def execSci (s : State) : Result := .next { s with io := 0#18 }

/-- SCF: clear the eight flags (R158). -/
def execScf (s : State) : Result := .next s.clearFlags

/-- SZL: skip on zero link (R159). -/
def execSzl (s : State) : Result := .next (s.skipIf (!s.link))

/-- CLL: clear link (R161). -/
def execCll (s : State) : Result := .next { s with link := false }

/-- CML: complement link (R162). -/
def execCml (s : State) : Result := .next { s with link := !s.link }

/-- SZL reversed: skip on a link of one (R160). -/
def execSzlRev (s : State) : Result := .next (s.skipIf s.link)

end Sys2Proof.Machine
end

