-- ==== Sys2Proof/Machine/Dispatch.lean ====
section
/-! DEFINITION. From an instruction to its meaning, one arm per constructor, in the order of spec/opcode_table.json. -/

namespace Sys2Proof.Machine

def exec (i : Instr) (s : State) : Host.Outcome State Fault Refusal :=
  match i with
  | .lch y => Sys2Proof.Machine.execLch y s
  | .lchI y => Sys2Proof.Machine.execLchI y s
  | .dch y => Sys2Proof.Machine.execDch y s
  | .dchI y => Sys2Proof.Machine.execDchI y s
  | .tad y => Sys2Proof.Machine.execTad y s
  | .tadI y => Sys2Proof.Machine.execTadI y s
  | .sni => Sys2Proof.Machine.execSni s
  | .szi => Sys2Proof.Machine.execSzi s
  | .lia => Sys2Proof.Machine.execLia s
  | .lai => Sys2Proof.Machine.execLai s
  | .swp => Sys2Proof.Machine.execSwp s
  | .cmi => Sys2Proof.Machine.execCmi s
  | .spc rev acts _ => Sys2Proof.Machine.execSpc rev acts s
  | .iif _ => Sys2Proof.Machine.execIif s
  | .ifi _ => Sys2Proof.Machine.execIfi s
  | .idc _ => Sys2Proof.Machine.execIdc s
  | .ida _ => Sys2Proof.Machine.execIda s
  | .scm _ => Sys2Proof.Machine.execScm s
  | .sci _ => Sys2Proof.Machine.execSci s
  | .scf _ => Sys2Proof.Machine.execScf s
  | .szl _ => Sys2Proof.Machine.execSzl s
  | .cll _ => Sys2Proof.Machine.execCll s
  | .cml _ => Sys2Proof.Machine.execCml s
  | .szlRev _ => Sys2Proof.Machine.execSzlRev s
  | .erg => Sys2Proof.Machine.execErg s
  | .lrg => Sys2Proof.Machine.execLrg s
  | .lrm => Sys2Proof.Machine.execLrm s
  | .erm => Sys2Proof.Machine.execErm s
  | .rsm => Sys2Proof.Machine.execRsm s
  | .rnm xx => Sys2Proof.Machine.execRnm xx s
  | .rck _ => Sys2Proof.Machine.execRck s
  | .ctb _ => Sys2Proof.Machine.execCtb s
  | .rro _ => Sys2Proof.Machine.execRro s
  | .rri _ => Sys2Proof.Machine.execRri s
  | .dba => Sys2Proof.Machine.execDba s
  | .dra => Sys2Proof.Machine.execDra s
  | .dia _ => Sys2Proof.Machine.execDia s
  | .dwc _ => Sys2Proof.Machine.execDwc s
  | .dcl => Sys2Proof.Machine.execDcl s
  | .rch c => Sys2Proof.Machine.execRch c s
  | .rcc c => Sys2Proof.Machine.execRcc c s
  | .tcc c => Sys2Proof.Machine.execTcc c s
  | .tcb c => Sys2Proof.Machine.execTcb c s
  | .rrc c => Sys2Proof.Machine.execRrc c s
  | .ssb c => Sys2Proof.Machine.execSsb c s
  | .rsc c => Sys2Proof.Machine.execRsc c s
  | .dpy => Sys2Proof.Machine.execDpy s
  | .sdb => Sys2Proof.Machine.execSdb s
  | .gpl => Sys2Proof.Machine.execGpl s
  | .gpr => Sys2Proof.Machine.execGpr s
  | .gcf => Sys2Proof.Machine.execGcf s
  | .glf => Sys2Proof.Machine.execGlf s
  | .gsp => Sys2Proof.Machine.execGsp s

end Sys2Proof.Machine
end

