-- ==== Sys2Proof/Machine/Fetch.lean ====
section
/-! DEFINITION. The step's parts that are no instruction's: what follows a fetch, and how a word is put where the next
fetch finds it (spec/10_state.md R12, spec/60_exceptions.md R261). -/

namespace Sys2Proof.Machine

/-- `IsHLT`: an operate group word with the 0400 bit (R261, D28). PRESUMED: the spec marks the encoding as general knowledge. -/
def isHlt (w : Word) : Bool := (w.extractLsb' 13 5 == 0b11111#5) && w.getMsbD 9

/-- A word that is no instruction of the table (R261, R4, R70). In restrict mode an in-out transfer, a HLT or an
incorrect operation code traps; everything else is refused, code 73 in either mode (R66). -/
def execUnmatched (w : Word) (why : Reject) (s : State) : Result :=
  if s.rm && octalCode w == 0o72#6 then .next (s.restrictTrap .iot)
  else if s.rm && isHlt w then .next (s.restrictTrap .hlt)
  else if octalCode w != 0o73#6 && Config.incorrectOp w then
    if s.rm then .next (s.restrictTrap .incorrectOp) else .refused .incorrectOpcode
  else .refused (.noMeaning why)

/-- PC is advanced past the word fetched (R12). -/
def State.advance (s : State) : State := { s with pc := s.pc + 1#12 }

/-- The rest of the step after cycle zero has fetched `w` (R12). -/
def runWord (w : Word) (s : State) : Result :=
  match decode w with
  | .ok i => exec i s.advance
  | .error why => execUnmatched w why s.advance

/-- A step when no break is pending: the drum's accesses that fall in it (R49), cycle zero, then the word fetched (R12). -/
def fetchAndRun (s : State) : Result := drumAccess s (memRead s.pc s runWord)

/-- The physical memory the next fetch is to read: the one named `mcur`, or, where the names must first be restored, the one that then bears it. -/
def State.fetchMemory (s : State) : MemNo :=
  match s.resolve s.mcur with
  | some p => p
  | none => s.mcur

/-- The names the next fetch is to find: those of `s`, or the physical ones where the memory addressed has no one bearer. -/
def State.fetchNames (s : State) : Vector MemNo 4 := if (s.resolve s.mcur).isSome then s.names else physicalNames

/-- `s` made ready to fetch: no break pending, the fetch not forbidden, the name of the memory borne once, the location
not in doubt, no transfer running to a name with no one bearer. Each field is left as it is unless the fetch needs it otherwise. -/
def State.readyToFetch (s : State) : State :=
  { s with
    breaks := { restrict := none, drum := false, scanner := false }
    prot := if s.blocked then 0#4 else s.prot
    names := s.fetchNames
    drum := { s.drum with
      go := s.drum.go && (!s.transferRunning || (State.resolve { s with names := s.fetchNames } s.drum.memory).isSome)
      windows := s.drum.windows.filter fun w => !w.covers s.fetchMemory s.pc } }

/-- `w` stored where the next fetch of `s` finds it. -/
def State.placeWord (w : Word) (s : State) : State :=
  { s.readyToFetch with mem := Memory.store (coreKey s.fetchMemory s.pc) w s.mem }

end Sys2Proof.Machine
end

