-- ==== Sys2Proof/Machine/Step.lean ====
section
/-! DEFINITION. One step of the machine (spec/10_state.md R12, spec/60_exceptions.md R261 to R263): a pending break ends
the run, else one instruction is fetched and executed. -/

namespace Sys2Proof.Machine

/-- The step. -/
def step (s : State) : Host.Outcome State Fault Refusal :=
  match s.seqBreakEntry with
  | some fault => .fault fault
  | none => fetchAndRun s

/-- `s` with an instruction placed where `step` fetches next: this stands for the loading of a program from outside. -/
def State.withFetchWord (s : State) (nbits w : Nat) : State :=
  s.placeWord (BitVec.ofNat 18 (w % 2 ^ nbits))

end Sys2Proof.Machine
end

