-- ==== Sys2Proof/Safety.lean ====
section
/-! DEFINITION. What claims about runs are stated in: which states a run can reach, the invariant of the machine, and
what a restricted program cannot touch (spec/60_exceptions.md R263, R268). -/

namespace Sys2Proof

/-- The rows of kind `instruction` of spec/opcode_table.json, match and mask (R68, R73). -/
def opcodeTable : List (Word × Word) :=
  [(0o120000#18, 0o770000#18), (0o130000#18, 0o770000#18), (0o140000#18, 0o770000#18), (0o150000#18, 0o770000#18), (0o360000#18, 0o770000#18), (0o370000#18, 0o770000#18)] ++
  [(0o644000#18, 0o777777#18), (0o654000#18, 0o777777#18), (0o760020#18, 0o777777#18), (0o760040#18, 0o777777#18), (0o760060#18, 0o777777#18), (0o770000#18, 0o777777#18)] ++
  [(0o740000#18, 0o760000#18), (0o720011#18, 0o777777#18), (0o720010#18, 0o777777#18), (0o720064#18, 0o777777#18), (0o720065#18, 0o777777#18), (0o720067#18, 0o777777#18)] ++
  [(0o720066#18, 0o770077#18), (0o720032#18, 0o770077#18), (0o720035#18, 0o770077#18), (0o720017#18, 0o770077#18), (0o720037#18, 0o770077#18), (0o722061#18, 0o777777#18)] ++
  [(0o722062#18, 0o777777#18), (0o720061#18, 0o770077#18), (0o720062#18, 0o770077#18), (0o720063#18, 0o777777#18), (0o720022#18, 0o775777#18), (0o721022#18, 0o775777#18)] ++
  [(0o725022#18, 0o775777#18), (0o724022#18, 0o775777#18), (0o720122#18, 0o775777#18), (0o724122#18, 0o775777#18), (0o721122#18, 0o775777#18), (0o720007#18, 0o777777#18)] ++
  [(0o722007#18, 0o777777#18), (0o722027#18, 0o777777#18), (0o720027#18, 0o777777#18), (0o720127#18, 0o777777#18), (0o722026#18, 0o777777#18), (0o720026#18, 0o777777#18)]

end Sys2Proof

namespace Sys2Proof.Machine

/-- One step of `s` answers `t`. -/
def Steps (s t : State) : Prop := step s = .next t

/-- `t` is reached from `s` in some number of steps. -/
inductive Reaches : State → State → Prop
  | refl (s : State) : Reaches s s
  | tail {s t u : State} (h : Reaches s t) (h' : Steps t u) : Reaches s u

/-- An access of the processor is forbidden: restrict mode, and the memory addressed is protected (R52). -/
def State.Forbidden (s : State) : Prop := s.rm = true ∧ s.prot.getMsbD s.mcur.toNat = true

/-- An access of the processor is made, in physical memory `p`: it is not forbidden, and `p` alone bears the name addressed (R41). -/
def State.Addresses (s : State) (p : MemNo) : Prop := ¬s.Forbidden ∧ ∀ q, s.nameOf q = s.mcur ↔ q = p

/-- An access of the processor has no memory to go to: it is not forbidden, and no memory, or more than one, bears the
name addressed (R53, D23). -/
def State.Unaddressable (s : State) : Prop := ¬s.Forbidden ∧ ∀ p, ∃ q, ¬(s.nameOf q = s.mcur ↔ q = p)

/-- A transfer of the drum is running and no memory, or more than one, bears the name DCL gave: the drum's access has no memory
to go to (R53, D23). -/
def State.DrumUnaddressable (s : State) : Prop :=
  s.drum.go = true ∧ Config.drumBusy s.turns = true ∧ ∀ p, ∃ q, ¬(s.nameOf q = s.drum.memory ↔ q = p)

/-- No sequence break has been requested (R262, R265). -/
def State.NoBreak (s : State) : Prop := s.breaks.restrict = none ∧ s.breaks.drum = false ∧ s.breaks.scanner = false

/-- The first bit of the character a code designates: 01 bit 0, 10 bit 6, 11 bit 12, and 00 as 01 (R44, R100). -/
def characterStart (code : BitVec 2) : Nat := 6 * (code.toNat - 1)

/-- `t` is `s` with a restrict mode trap taken: the trap buffer loaded, a break on channel 16 requested for `cause`,
nothing else changed (R262). -/
def TrapTaken (cause : TrapCause) (s t : State) : Prop :=
  t = { s with
    tb := Config.trapBuffer s.draws, draws := s.draws + 1, breaks := { s.breaks with restrict := some cause } }

/-- No restrict mode trap has been taken (R263). -/
def State.Untrapped (s : State) : Prop := s.breaks.restrict = none

/-- A restrict mode trap has been taken only in restrict mode (R261). -/
def State.TrapsOnlyRestricted (s : State) : Prop := s.breaks.restrict ≠ none → s.rm = true

/-- No device has requested a break: the default `SeqBreakEntry` admits none (R265). -/
def State.NoDeviceBreak (s : State) : Prop := s.breaks.drum = false ∧ s.breaks.scanner = false

/-- Outside restrict mode no memory is protected: what LRM leaves and only ERM changes (R193, R194, R268). -/
def State.ProtectsOnlyRestricted (s : State) : Prop := s.rm = false → s.prot = 0#4

/-- No word the drum may be rewriting is listed as the processor wrote it (R49). -/
def State.ListsNoWordInDoubt (s : State) : Prop :=
  ∀ cell ∈ s.mem, s.inDoubt (keyMemory cell.1) (keyAddr cell.1) = false

/-- No sequence of the drum's instructions stands begun while GO stands (R293). -/
def State.SequencesOnlyAfterTransfers (s : State) : Prop := s.drum.go = true → s.drum.sequence = .none

/-- The invariant of the machine. -/
structure State.Inv (s : State) : Prop where
  memoryForm : Memory.wf s.mem
  trapsOnlyRestricted : s.TrapsOnlyRestricted
  noDeviceBreak : s.NoDeviceBreak
  protectsOnlyRestricted : s.ProtectsOnlyRestricted
  listsNoWordInDoubt : s.ListsNoWordInDoubt
  sequencesOnlyAfterTransfers : s.SequencesOnlyAfterTransfers

/-- Core is the same in every memory whose name is not protected (R52, R53). -/
def SameUnprotected (s t : State) : Prop :=
  ∀ p a, s.prot.getMsbD (s.nameOf p).toNat = false → t.core p a = s.core p a

/-- The state a restricted program can neither change nor reach: restrict mode, protection, names, clock buffer, every
device and what was sent to it (R268). -/
def SamePrivileged (s t : State) : Prop :=
  t.rm = s.rm ∧ t.prot = s.prot ∧ t.names = s.names ∧ t.mcur = s.mcur ∧ t.ckb = s.ckb ∧ t.drum = s.drum ∧ t.dcs = s.dcs
    ∧ t.display = s.display ∧ t.chargen = s.chargen ∧ t.remRand = s.remRand ∧ t.history = s.history

end Sys2Proof.Machine
end

