-- ==== Sys2Proof/Certificates/Slice0/Obligations.lean ====
section
/-! DEFINITION. What the model is claimed to satisfy. Each statement's docstring names the rule of spec/ it comes from.
`exec` is given the state the fetch left, so PC already names the next instruction (R12). Statements about a free value
hold for every value of it. What they say of MA, MB, LD and INC, which no program can observe, is as the model keeps them
(log 26); what they say of `draws`, which numbers the free values (log 10), and of `turns`, which numbers the drum's turns
between memory cycles (log 28), is the model's own. -/

open Sys2Proof Sys2Proof.Machine

/-! Encoding. -/

/-- R60 to R66: no bit of an encoding is dropped. -/
def Obligations.DecodeOfEncodeIsTheInstruction : Prop :=
  ∀ i : Instr, i.wf = true → decode (encode i) = .ok i

/-- R68: each word has one meaning, and what the decoder answers is well-formed. -/
def Obligations.EncodeOfDecodeIsTheWord : Prop :=
  ∀ (w : Word) (i : Instr), decode w = .ok i → encode i = w ∧ i.wf = true

/-- The printed codes of R69, one or more of each family. -/
def Obligations.PrintedCodesDecode : Prop :=
  decode 0b001010001000000000#18 = .ok (.lch 0o1000) ∧ decode 0b001101000011000000#18 = .ok (.dchI 0o0300)
    ∧ decode 0b011110000010000000#18 = .ok (.tad 0o0200) ∧ decode 0b110101100000000000#18 = .ok .szi
    ∧ decode 0b111110000000110000#18 = .ok .swp ∧ decode 0b111111000000000000#18 = .ok .cmi
    ∧ decode 0b111100000100000000#18 = .ok (.ida 0) ∧ decode 0b111101000000010000#18 = .ok (.szlRev 0)
    ∧ decode 0b111010000000110101#18 = .ok .erm ∧ decode 0b111010010000110001#18 = .ok .dba
    ∧ decode 0b111010000000110001#18 = .ok (.dia 0) ∧ decode 0b111010010000010010#18 = .ok (.rch true)
    ∧ decode 0b111010000001010111#18 = .ok .gcf

/-- R66, R190: an instruction is an in-out transfer exactly if its word has code 72. -/
def Obligations.InOutTransfersHaveCode72 : Prop :=
  ∀ (w : Word) (i : Instr), decode w = .ok i → (i.isIot = true ↔ w.extractLsb' 12 6 = 0o72#6)

/-- R63, R64, R66, R136: of codes 64, 65, 73, 76, 77 exactly six words are instructions, and which. That every other word
of these codes is none is the model's choice with the spec's (D11, D27, log 13). -/
def Obligations.SkipAndOperateWordsAreSix : Prop :=
  ∀ (w : Word) (i : Instr), w.extractLsb' 12 6 ∈ [0o64#6, 0o65#6, 0o73#6, 0o76#6, 0o77#6] →
    (decode w = .ok i ↔
      (w = 0o644000#18 ∧ i = .sni) ∨ (w = 0o654000#18 ∧ i = .szi) ∨ (w = 0o760020#18 ∧ i = .lia)
        ∨ (w = 0o760040#18 ∧ i = .lai) ∨ (w = 0o760060#18 ∧ i = .swp) ∨ (w = 0o770000#18 ∧ i = .cmi))

/-- R68: a word is an instruction exactly if it matches a row of the opcode table. That digits printed X match any digit is
D12 (log 39). -/
def Obligations.InstructionsAreTheTablesWords : Prop :=
  ∀ w : Word, (∃ i, decode w = .ok i) ↔ ∃ row ∈ opcodeTable, w &&& row.2 = row.1

/-! The step. -/

/-- R12, R41: when the word at PC decodes, the step is that instruction's execution, with PC advanced, and MA and MB
as cycle zero leaves them, and the drum's turn after it (R49), unless a running transfer has no memory to go to (D23, log 28).
PC's width, the moment of its increment and its wrap are D2 (log 22). -/
def Obligations.StepRunsTheDecodedInstruction : Prop :=
  ∀ (s : State) (p : MemNo) (i : Instr), s.NoBreak → ¬s.DrumUnaddressable → s.Addresses p → decode (s.core p s.pc) = .ok i →
    step s = exec i { s with pc := s.pc + 1#12, ma := s.pc, mb := s.core p s.pc, turns := s.turns + 1 }

/-- R52, R262: a forbidden fetch traps. That PC still names the word that was not fetched is D14 (log 7, the model's choice
with the spec's), and that nothing else happens is D15 (log 24). A running transfer with no memory to go to is refused first
(log 28). -/
def Obligations.ForbiddenFetchTraps : Prop :=
  ∀ s : State, s.NoBreak → ¬s.DrumUnaddressable → s.Forbidden → ∃ t, step s = .next t ∧ TrapTaken .protectedMemory s t

/-- The refusal of D23 (log 23), a choice: a fetch from a name that no memory, or several, bear is refused, and so is a step in
which a running drum transfer goes to such a name (R41, R49, R53). The source gives such an access no result. Whether a transfer
still runs is free (log 28). -/
def Obligations.UnaddressableFetchIsRefused : Prop :=
  ∀ s : State, s.NoBreak → s.Unaddressable ∨ s.DrumUnaddressable → step s = .refused .memoryName

/-- R261, R66, R70: what a word the table does not match does. In restrict mode an in-out transfer, a HLT and an incorrect
operation code trap. Choices in it: HLT's encoding is general knowledge (D28, log 12); PC is advanced at the trap (D14,
log 7) and nothing else changes (D15, log 24); `IncorrectOp` is free (D22, log 11); words of code 73 and of the base
machine are refused (D1, D27, log 13). -/
def Obligations.UnmatchedWordTrapsOrIsRefused : Prop :=
  ∀ (s : State) (p : MemNo) (why : Reject), s.NoBreak → ¬s.DrumUnaddressable → s.Addresses p →
    let w := s.core p s.pc
    let u := { s with pc := s.pc + 1#12, ma := s.pc, mb := w, turns := s.turns + 1 }
    decode w = .error why →
      (s.rm = true → w.extractLsb' 12 6 = 0o72#6 → ∃ t, step s = .next t ∧ TrapTaken .iot u t)
      ∧ (s.rm = true → w.extractLsb' 13 5 = 0b11111#5 → w.getMsbD 9 = true → ∃ t, step s = .next t ∧ TrapTaken .hlt u t)
      ∧ (w.extractLsb' 12 6 = 0o73#6 → step s = .refused (.noMeaning .code73))
      ∧ (s.rm = true → w.extractLsb' 12 6 ≠ 0o72#6 → w.extractLsb' 12 6 ≠ 0o73#6 →
          ¬(w.extractLsb' 13 5 = 0b11111#5 ∧ w.getMsbD 9 = true) →
            (Config.incorrectOp w = true → ∃ t, step s = .next t ∧ TrapTaken .incorrectOp u t)
              ∧ (Config.incorrectOp w = false → step s = .refused (.noMeaning why)))
      ∧ (s.rm = false → step s = .refused (.noMeaning why) ∨ step s = .refused .incorrectOpcode)

/-- The default of the open `SeqBreakEntry` (R263, D14), a choice (log 6): the trapped state makes no further step. -/
def Obligations.TrappedStateStops : Prop :=
  ∀ (s : State) (cause : TrapCause), s.breaks.restrict = some cause → step s = .fault (.trapped 0o16 cause)

/-- R263, R265: only a pending break ends a run in a fault, which names the break's channel, and for a trap its cause. That
it ends there is the default of `SeqBreakEntry` (D14, log 6); that a drum break stands before a scanner break is the
model's choice (log 36). -/
def Obligations.FaultsComeFromPendingBreaks : Prop :=
  ∀ (s : State) (f : Fault), step s = .fault f →
    (∃ cause, s.breaks.restrict = some cause ∧ f = .trapped 0o16 cause)
      ∨ (s.breaks.restrict = none ∧ s.breaks.drum = true ∧ f = .deviceBreak Config.drumChannel)
      ∨ (s.breaks.restrict = none ∧ s.breaks.drum = false ∧ s.breaks.scanner = true ∧ f = .deviceBreak Config.dcsChannel)

/-- R41, R53, R150, R293: no instruction faults, and an instruction is refused only for an access, or DCL's memory select, to a
name that no memory or several bear (D23, log 23), for a special operate word that reverses a skip it does not make (D9,
log 16), for DIA, DWC or DCL given out of its order or DIA while the last transfer runs, or for DCL of a transfer without a
meaning (R226, U18, log 28): all are choices. -/
def Obligations.InstructionsStopOnlyWhereTheSpecRefuses : Prop :=
  ∀ (i : Instr) (s : State), (∃ t, exec i s = .next t)
    ∨ (exec i s = .refused .memoryName ∧ s.Unaddressable
        ∧ ∃ y, i ∈ [Instr.lch y, .lchI y, .dch y, .dchI y, .tad y, .tadI y])
    ∨ (exec i s = .refused .memoryName ∧ s.rm = false ∧ i = .dcl ∧ s.drum.sequence = .countGiven
        ∧ ∀ p, ∃ q, ¬(s.nameOf q = s.io.extractLsb' 14 2 ↔ q = p))
    ∨ (exec i s = .refused .drumTransfer ∧ s.rm = false ∧ i = .dcl ∧ s.drum.sequence = .countGiven
        ∧ (s.drum.read = s.drum.write ∨ s.drum.wordCount = 0#12
          ∨ 4096 < (s.io.extractLsb' 0 12).toNat + s.drum.wordCount.toNat
          ∨ 4096 < s.drum.initialAddress.toNat + s.drum.wordCount.toNat))
    ∨ (exec i s = .refused .reverseWithoutSkip ∧ ∃ acts x, i = .spc true acts x ∧ acts.szl = false)
    ∨ (exec i s = .refused .drumOrder ∧ s.rm = false ∧ ∃ xx,
        (i = .dia xx ∧ s.drum.sequence ∉ [.none, .breakGiven])
          ∨ (i = .dwc xx ∧ s.drum.sequence ∉ [.addressGiven, .breakGiven]) ∨ (i = .dcl ∧ s.drum.sequence ≠ .countGiven))
    ∨ (exec i s = .refused .drumBusy ∧ s.rm = false ∧ s.drum.go = true ∧ Config.drumBusy s.turns = true ∧ ∃ xx, i = .dia xx)

/-- The model's own (log 40): a word loaded where the machine fetches is the next instruction run, and the load changes
only what that fetch needs. -/
def Obligations.LoadedWordRunsNext : Prop :=
  ∀ (s : State) (nbits w : Nat) (i : Instr), 18 ≤ nbits → w < 2 ^ 18 → decode (BitVec.ofNat 18 w) = .ok i →
    step (s.withFetchWord nbits w) =
      exec i { s.placeWord (BitVec.ofNat 18 w) with
        pc := s.pc + 1#12, ma := s.pc, mb := BitVec.ofNat 18 w, turns := s.turns + 1 }

/-! Memory reference instructions. -/

/-- R100, R103. The drum has its turn between the cycles (R49, log 28). The choices of a pointer's bits 2 to 5, its wrap
and its one deferral (D4, D30, log 20), and the flags left alone (D7, log 19), are in it. -/
def Obligations.LoadCharacterPlain : Prop :=
  ∀ (s : State) (p : MemNo) (y : Addr), s.Addresses p →
    let w := s.core p y
    let a := w.extractLsb' 0 12
    let m := s.drumTurn.core p a
    ∃ t, exec (.lch y) s = .next t
      ∧ (∀ k < 6, t.ac.getMsbD k = m.getMsbD (characterStart (w.extractLsb' 16 2) + k))
      ∧ (∀ k < 18, 6 ≤ k → t.ac.getMsbD k = false)
      ∧ t.ld.toNat = max 1 (w.extractLsb' 16 2).toNat
      ∧ t = { s with ac := t.ac, ld := t.ld, inc := false, ma := a, mb := m, turns := s.turns + 2 }

/-- R102, R104: the pointer at Y is stepped and rewritten, and the stepped pointer is used, even where it names Y itself
(D16, log 38). A word the drum may be rewriting is free (R49, log 28). The choices of a pointer's bits 2 to 5, its wrap
and its one deferral (D4, D30, log 20), and the flags left alone (D7, log 19), are in it. -/
def Obligations.LoadCharacterAutomatic : Prop :=
  ∀ (s : State) (p : MemNo) (y : Addr), s.Addresses p →
    let v := stepPtr s.ring (s.core p y)
    let a := v.extractLsb' 0 12
    let m := if s.inDoubt p a then Config.drumWord (s.turns + 1) p a else if a = y then v else s.core p a
    ∃ t, exec (.lchI y) s = .next t
      ∧ (∀ k < 6, t.ac.getMsbD k = m.getMsbD (characterStart (v.extractLsb' 16 2) + k))
      ∧ (∀ k < 18, 6 ≤ k → t.ac.getMsbD k = false)
      ∧ t.core p y = (if s.inDoubt p y then Config.drumWord t.turns p y else v)
      ∧ (∀ q b, ¬(q = p ∧ b = y) → t.core q b = { s with turns := t.turns }.core q b)
      ∧ t = { s with
          ac := t.ac, mem := t.mem, ld := v.extractLsb' 16 2, inc := true, ma := a, mb := m, turns := s.turns + 2 }

/-- R100, R105: the character replaces six bits of the word at the pointer's address, and AC rotates by one character. MB
holds the word written, and so does core unless the drum may be rewriting it (R49, log 28).
The choices of a pointer's bits 2 to 5, its wrap and its one deferral (D4, D30,
log 20), and the flags left alone (D7, log 19), are in it. -/
def Obligations.DepositCharacterPlain : Prop :=
  ∀ (s : State) (p : MemNo) (y : Addr), s.Addresses p →
    let w := s.core p y
    let a := w.extractLsb' 0 12
    let n := characterStart (w.extractLsb' 16 2)
    let m := s.drumTurn.core p a
    ∃ t, exec (.dch y) s = .next t
      ∧ (∀ k < 18, t.mb.getMsbD k = if n ≤ k ∧ k < n + 6 then s.ac.getMsbD (k - n) else m.getMsbD k)
      ∧ t.core p a = (if s.inDoubt p a then Config.drumWord t.turns p a else t.mb)
      ∧ (∀ q b, ¬(q = p ∧ b = a) → t.core q b = { s with turns := t.turns }.core q b)
      ∧ (∀ k < 18, t.ac.getMsbD k = s.ac.getMsbD ((k + 6) % 18))
      ∧ t.ld.toNat = max 1 (w.extractLsb' 16 2).toNat
      ∧ t = { s with ac := t.ac, mem := t.mem, ld := t.ld, inc := false, ma := a, mb := t.mb, turns := s.turns + 2 }

/-- R102, R106: the pointer is stepped and rewritten, then the character goes to the stepped pointer's place, even where
that is the pointer's own word (D16, log 38). A word the drum may be rewriting is free (R49, log 28). The choices of a
pointer's bits 2 to 5, its wrap and its one deferral (D4, D30, log 20), and the flags left alone (D7, log 19), are in
it. -/
def Obligations.DepositCharacterAutomatic : Prop :=
  ∀ (s : State) (p : MemNo) (y : Addr), s.Addresses p →
    let v := stepPtr s.ring (s.core p y)
    let a := v.extractLsb' 0 12
    let n := characterStart (v.extractLsb' 16 2)
    let m := if s.inDoubt p a then Config.drumWord (s.turns + 1) p a else if a = y then v else s.core p a
    ∃ t, exec (.dchI y) s = .next t
      ∧ (∀ k < 18, t.mb.getMsbD k = if n ≤ k ∧ k < n + 6 then s.ac.getMsbD (k - n) else m.getMsbD k)
      ∧ t.core p a = (if s.inDoubt p a then Config.drumWord t.turns p a else t.mb)
      ∧ (a ≠ y → t.core p y = if s.inDoubt p y then Config.drumWord t.turns p y else v)
      ∧ (∀ q b, ¬(q = p ∧ (b = a ∨ b = y)) → t.core q b = { s with turns := t.turns }.core q b)
      ∧ (∀ k < 18, t.ac.getMsbD k = s.ac.getMsbD ((k + 6) % 18))
      ∧ t = { s with
          ac := t.ac, mem := t.mem, ld := v.extractLsb' 16 2, inc := true, ma := a, mb := t.mb, turns := s.turns + 2 }

/-- R107: AC, the link and the word at Y are added. That the new link is the carry out of bit 0 of the whole sum, and so zero
where there is none, is D5 (log 19), a choice. -/
def Obligations.TwosComplementAdd : Prop :=
  ∀ (s : State) (p : MemNo) (y : Addr), s.Addresses p →
    let m := s.core p y
    ∃ t, exec (.tad y) s = .next t
      ∧ t.ac.toNat + 2 ^ 18 * t.link.toNat = s.ac.toNat + s.link.toNat + m.toNat
      ∧ t = { s with ac := t.ac, link := t.link, ma := y, mb := m, turns := s.turns + 1 }

/-- R108: as R107 with the base machine's effective address, a free value (log 15), in place of Y. That the new link is the
carry of the whole sum, zero where there is none, is D5 (log 19), a choice. -/
def Obligations.TwosComplementAddDeferred : Prop :=
  ∀ (s : State) (p : MemNo) (y : Addr), s.Addresses p →
    let e := Config.baseEffAddr s.draws y
    let m := s.core p e
    ∃ t, exec (.tadI y) s = .next t
      ∧ t.ac.toNat + 2 ^ 18 * t.link.toNat = s.ac.toNat + s.link.toNat + m.toNat
      ∧ t = { s with ac := t.ac, link := t.link, ma := e, mb := m, draws := s.draws + 1, turns := s.turns + 1 }

/-- R52, R109: what `exec` alone says of a memory reference instruction whose access is forbidden: it traps, and that it has
no other effect is D15 (log 24). After a fetch that did not trap the case does not arise (R262). Where the name has no one
memory it is refused, the choice of D23 (log 23, R53). -/
def Obligations.MemoryReferenceTrapsOrIsRefused : Prop :=
  ∀ (s : State) (y : Addr) (i : Instr), i ∈ [Instr.lch y, .lchI y, .dch y, .dchI y, .tad y, .tadI y] →
    (s.Forbidden → ∃ t, exec i s = .next t ∧ TrapTaken .protectedMemory s t)
      ∧ (s.Unaddressable → exec i s = .refused .memoryName)

/-- R101, with R62: the character code counts 00, 01, 10, 11 and then 01 again with the address stepped. That bits 2 to 5
stay and that 7777 steps to 0000 are D4 (log 20), a choice. -/
def Obligations.PointerStep : Prop :=
  ∀ (ring : Bool) (w : Word),
    let v := stepPtr ring w
    let c := (w.extractLsb' 16 2).toNat
    let a := (w.extractLsb' 0 12).toNat
    v.extractLsb' 12 4 = w.extractLsb' 12 4
      ∧ (c ≠ 3 → (v.extractLsb' 16 2).toNat = c + 1 ∧ (v.extractLsb' 0 12).toNat = a)
      ∧ (c = 3 → (v.extractLsb' 16 2).toNat = 1
          ∧ (v.extractLsb' 0 12).toNat = if ring then a - a % 8 + (a + 1) % 8 else (a + 1) % 4096)

/-- R151: in ring mode a pointer whose code is not 00 is itself again after twenty-four steps, the three characters of
eight locations. That its bits 2 to 5 come back too is D4 (log 20). -/
def Obligations.RingReturnsAfterTwentyFourSteps : Prop :=
  ∀ w : Word, w.extractLsb' 16 2 ≠ 0#2 → (stepPtr true)^[24] w = w

/-- R110: codes 12, 14 and 36 do the same whatever RNG is. -/
def Obligations.RingModeDoesNotTouchPlainForms : Prop :=
  ∀ (s t : State) (y : Addr) (b : Bool) (i : Instr), i ∈ [Instr.lch y, .dch y, .tad y] → exec i s = .next t →
    exec i { s with ring := b } = .next { t with ring := b }

/-- R103, R105: a character deposited is the character loaded through the same pointer, where the pointer and the word it
names are two and the drum may be rewriting neither (R49). -/
def Obligations.DepositedCharacterIsLoaded : Prop :=
  ∀ (s t u : State) (p : MemNo) (y : Addr), s.Addresses p →
    let a := (s.core p y).extractLsb' 0 12
    s.inDoubt p y = false → s.inDoubt p a = false → a ≠ y → exec (.dch y) s = .next t → exec (.lch y) t = .next u →
      ∀ k < 18, u.ac.getMsbD k = (decide (k < 6) && s.ac.getMsbD k)

/-- R105: three deposits in a row restore AC, through whichever pointers. -/
def Obligations.ThreeDepositsRestoreAC : Prop :=
  ∀ (s t u v : State) (p : MemNo) (x y z : Addr), s.Addresses p →
    exec (.dch x) s = .next t → exec (.dch y) t = .next u → exec (.dch z) u = .next v → v.ac = s.ac

/-! Skip group and I/O register operate instructions. -/

/-- R130, R131: SNI and SZI. That PC has twelve bits and a skip wraps from 7777 to 0000 is D2 (log 22), a choice. -/
def Obligations.SkipsOnIO : Prop :=
  ∀ s : State, ∃ t u, exec .sni s = .next t ∧ exec .szi s = .next u
    ∧ t = { s with pc := t.pc } ∧ u = { s with pc := u.pc }
    ∧ ((∃ k < 18, s.io.getMsbD k = true) → t.pc.toNat = (s.pc.toNat + 1) % 4096 ∧ u.pc = s.pc)
    ∧ ((∀ k < 18, s.io.getMsbD k = false) → t.pc = s.pc ∧ u.pc.toNat = (s.pc.toNat + 1) % 4096)

/-- R132, R133, R134, R135. -/
def Obligations.RegisterTransfers : Prop :=
  ∀ s : State, exec .lia s = .next { s with io := s.ac } ∧ exec .lai s = .next { s with ac := s.io }
    ∧ exec .swp s = .next { s with ac := s.io, io := s.ac }
    ∧ ∃ t, exec .cmi s = .next t ∧ t = { s with io := t.io } ∧ ∀ k < 18, t.io.getMsbD k = !s.io.getMsbD k

/-! The special operate group. -/

/-- R152, R153, R16: the eight flags and I/O bits 10 to 17 correspond bit for bit. -/
def Obligations.FlagTransfers : Prop :=
  ∀ (s : State) (x : BitVec 2), ∃ t u, exec (.iif x) s = .next t ∧ exec (.ifi x) s = .next u
    ∧ t = { s with io := t.io }
    ∧ (∀ k < 10, t.io.getMsbD k = s.io.getMsbD k)
    ∧ t.io.getMsbD 10 = (s.io.getMsbD 10 || s.link) ∧ t.io.getMsbD 11 = (s.io.getMsbD 11 || s.ring)
    ∧ (∀ k < 6, t.io.getMsbD (12 + k) = (s.io.getMsbD (12 + k) || s.pf.getMsbD k))
    ∧ u = { s with link := u.link, ring := u.ring, pf := u.pf }
    ∧ u.link = (s.link || s.io.getMsbD 10) ∧ u.ring = (s.ring || s.io.getMsbD 11)
    ∧ (∀ k < 6, u.pf.getMsbD k = (s.pf.getMsbD k || s.io.getMsbD (12 + k)))

/-- R154, R155: IDC steps AC as a pointer word, and IDA adds one. Choices in it: IDA in ring mode counts only AC bits 15 to 17,
R155's own reading (log 21); the link is left alone (D7, log 19); `stepPtr` keeps bits 2 to 5 (D4, log 20). -/
def Obligations.IndexInstructions : Prop :=
  ∀ (s : State) (x : BitVec 2), ∃ t u, exec (.idc x) s = .next t ∧ exec (.ida x) s = .next u
    ∧ t = { s with ac := stepPtr s.ring s.ac } ∧ u = { s with ac := u.ac }
    ∧ u.ac.toNat = if s.ring then s.ac.toNat - s.ac.toNat % 8 + (s.ac.toNat + 1) % 8 else (s.ac.toNat + 1) % 2 ^ 18

/-- R156: AC becomes its complement, plus one if the link is a one. That the carry is dropped and the link stays is D7
(log 19), a choice. -/
def Obligations.SpecialComplement : Prop :=
  ∀ (s : State) (x : BitVec 2), ∃ t, exec (.scm x) s = .next t ∧ t = { s with ac := t.ac }
    ∧ t.ac.toNat = (2 ^ 18 - 1 - s.ac.toNat + s.link.toNat) % 2 ^ 18

/-- R157, R158, R161, R162. -/
def Obligations.ClearsAndLink : Prop :=
  ∀ (s : State) (x : BitVec 2), exec (.sci x) s = .next { s with io := 0#18 }
    ∧ exec (.scf x) s = .next { s with link := false, ring := false, pf := 0#6 }
    ∧ exec (.cll x) s = .next { s with link := false } ∧ exec (.cml x) s = .next { s with link := !s.link }

/-- R159, R160: SZL skips on a link of zero, its reverse on a link of one. That a reversal with no skip is refused is D9
(log 16), and the wrap of PC is D2 (log 22): choices. -/
def Obligations.SkipsOnLink : Prop :=
  ∀ (s : State) (x : BitVec 2), (∃ t u, exec (.szl x) s = .next t ∧ exec (.szlRev x) s = .next u
      ∧ t = { s with pc := t.pc } ∧ u = { s with pc := u.pc }
      ∧ (s.link = false → t.pc.toNat = (s.pc.toNat + 1) % 4096 ∧ u.pc = s.pc)
      ∧ (s.link = true → t.pc = s.pc ∧ u.pc.toNat = (s.pc.toNat + 1) % 4096))
    ∧ ∀ acts : SpcActs, acts.szl = false → exec (.spc true acts x) s = .refused .reverseWithoutSkip

/-- R150: what any special operate word does, component by component. Choices in it: the actions of one event time read the
state from before it (D8, log 18); a reversal without a skip is refused (D9, log 16); IDA in ring mode counts three bits
(log 21); carries are dropped and the link stays (D7, log 19). -/
def Obligations.SpecialOperateWord : Prop :=
  ∀ (s : State) (rev : Bool) (a : SpcActs) (x : BitVec 2),
    (rev = true ∧ a.szl = false → exec (.spc rev a x) s = .refused .reverseWithoutSkip)
    ∧ (rev = false ∨ a.szl = true →
      let io1 := if a.sci then 0#18 else s.io
      let link1 := s.link && !(a.scf || a.cll)
      let ring1 := s.ring && !a.scf
      let flag1 (k : Nat) := s.pf.getMsbD k && !a.scf
      let ac2 := if a.scm then (2 ^ 18 - 1 - s.ac.toNat + link1.toNat) % 2 ^ 18 else s.ac.toNat
      let ring2 := ring1 || (a.ifi && io1.getMsbD 11)
      let ac3 := if a.ida then (if ring2 then ac2 - ac2 % 8 + (ac2 + 1) % 8 else (ac2 + 1) % 2 ^ 18) else ac2
      ∃ t, exec (.spc rev a x) s = .next t
        ∧ t = { s with ac := t.ac, io := t.io, pc := t.pc, link := t.link, ring := ring2, pf := t.pf }
        ∧ t.ac = (if a.idc then stepPtr ring2 (BitVec.ofNat 18 ac3) else BitVec.ofNat 18 ac3)
        ∧ (∀ k < 10, t.io.getMsbD k = io1.getMsbD k)
        ∧ t.io.getMsbD 10 = (io1.getMsbD 10 || (a.iif && link1))
        ∧ t.io.getMsbD 11 = (io1.getMsbD 11 || (a.iif && ring1))
        ∧ (∀ k < 6, t.io.getMsbD (12 + k) = (io1.getMsbD (12 + k) || (a.iif && flag1 k)))
        ∧ t.link = ((link1 || (a.ifi && io1.getMsbD 10)) != a.cml)
        ∧ (∀ k < 6, t.pf.getMsbD k = (flag1 k || (a.ifi && io1.getMsbD (12 + k))))
        ∧ t.pc = (if a.szl && (s.link == rev) then s.pc + 1#12 else s.pc))

/-- R68, R72: an action alone is the special operate word with that action alone. Their being constructors of their own is
the model's choice, and bits 16 and 17 are ignored (D10, log 17). -/
def Obligations.SingleActionsAreSpecialOperateWords : Prop :=
  ∀ (s : State) (x : BitVec 2),
    let none : SpcActs := ⟨false, false, false, false, false, false, false, false, false, false⟩
    exec (.iif x) s = exec (.spc false { none with iif := true } x) s
      ∧ exec (.ifi x) s = exec (.spc false { none with ifi := true } x) s
      ∧ exec (.idc x) s = exec (.spc false { none with idc := true } x) s
      ∧ exec (.ida x) s = exec (.spc false { none with ida := true } x) s
      ∧ exec (.scm x) s = exec (.spc false { none with scm := true } x) s
      ∧ exec (.sci x) s = exec (.spc false { none with sci := true } x) s
      ∧ exec (.scf x) s = exec (.spc false { none with scf := true } x) s
      ∧ exec (.szl x) s = exec (.spc false { none with szl := true } x) s
      ∧ exec (.cll x) s = exec (.spc false { none with cll := true } x) s
      ∧ exec (.cml x) s = exec (.spc false { none with cml := true } x) s
      ∧ exec (.szlRev x) s = exec (.spc true { none with szl := true } x) s

/-- R165: the combined words, from the word as it is fetched to what it leaves. PC is advanced past the word first
(R12). That 740030 tests the link from before CLL is D8 (log 18), a choice. The two's complement words need ring mode off,
since IDA in ring mode counts only three bits (R155, log 21). -/
def Obligations.CombinedWords : Prop :=
  ∀ s : State,
    runWord 0o744100#18 s = .next { s with pc := s.pc + 1#12, io := 0#10 ++ s.flags8 }
      ∧ (s.ring = false → s.link = false → runWord 0o740600#18 s = .next { s with pc := s.pc + 1#12, ac := -s.ac })
      ∧ runWord 0o750020#18 s = .next { s with pc := if s.link then s.pc + 2#12 else s.pc + 1#12 }
      ∧ runWord 0o742040#18 s = .next { s with
          pc := s.pc + 1#12, link := s.io.getMsbD 10, ring := s.io.getMsbD 11, pf := s.io.extractLsb' 0 6 }
      ∧ runWord 0o740014#18 s = .next { s with pc := s.pc + 1#12, link := true }
      ∧ runWord 0o740030#18 s = .next { s with pc := if s.link then s.pc + 1#12 else s.pc + 2#12, link := false }
      ∧ (s.ring = false → runWord 0o740610#18 s = .next { s with pc := s.pc + 1#12, ac := -s.ac, link := false })
      ∧ runWord 0o741400#18 s = .next { s with pc := s.pc + 1#12, ac := stepPtr s.ring (indexAC s.ring s.ac) }
      ∧ runWord 0o740140#18 s = .next { s with
          pc := s.pc + 1#12, io := 0#18, link := false, ring := false, pf := 0#6 }

/-! In-out transfers of the processor. -/

/-- R190, V76: in restrict mode every in-out transfer traps. That it has no effect of its own is D15 (log 24), and what the
trap buffer then holds is free (D19, log 8). -/
def Obligations.InOutTransfersTrapInRestrictMode : Prop :=
  ∀ (s : State) (i : Instr), i.isIot = true → s.rm = true → ∃ t, exec i s = .next t ∧ TrapTaken .iot s t

/-- R190: no in-out transfer touches core, but that the drum may rewrite its window's words once DCL has given it GO (R226,
log 28); none touches the accumulator, PC, the link or the program flags, and only ERG and LRG touch RNG. -/
def Obligations.InOutTransfersLeaveTheProcessor : Prop :=
  ∀ (s t : State) (i : Instr), i.isIot = true → exec i s = .next t →
    (∀ p a, t.inDoubt p a = false → t.core p a = s.core p a)
      ∧ t.ac = s.ac ∧ t.pc = s.pc ∧ t.link = s.link ∧ t.pf = s.pf ∧ (i ≠ .erg → i ≠ .lrg → t.ring = s.ring)

/-- R191, R192. -/
def Obligations.RingModeTransfers : Prop :=
  ∀ s : State, s.rm = false →
    exec .erg s = .next { s with ring := true } ∧ exec .lrg s = .next { s with ring := false }

/-- R193, R194: leaving restrict mode clears the mode and the four protect bits; entering it sets the mode. That ERM loads the
protect bits and does not OR them, from I/O bits 10 to 13 of which only 13 is legible, is D25 and N14 (log 25), a choice. -/
def Obligations.RestrictModeTransfers : Prop :=
  ∀ s : State, s.rm = false →
    exec .lrm s = .next { s with rm := false, prot := 0#4 }
      ∧ ∃ t, exec .erm s = .next t ∧ t = { s with rm := true, prot := t.prot }
        ∧ ∀ m < 4, t.prot.getMsbD m = s.io.getMsbD (10 + m)

/-- R195, R196: RNM gives memory X the name Y, X and Y being free and X a physical memory (D13, log 14); RSM gives every
memory its own number. Neither writes anything else. Where a transfer of the drum is not known to be over, the memory that now
alone bears the name DCL gave is one that its next words may go to (R53), and those words of its window are free from then on;
every other word stays as it was, in doubt or not. That, and that no word is taken out of doubt, is the model's choice
(log 28). -/
def Obligations.MemoryNames : Prop :=
  ∀ (s : State) (xx : BitVec 6), s.rm = false → ∃ t u, exec (.rnm xx) s = .next t ∧ exec .rsm s = .next u
    ∧ (∀ p, t.nameOf p = if p = (Config.rnmXY xx).1 then (Config.rnmXY xx).2 else s.nameOf p)
    ∧ (∀ p, u.nameOf p = p)
    ∧ ∀ v ∈ [t, u],
      v = { s with names := v.names, mem := v.mem, drum := { s.drum with windows := v.drum.windows } }
      ∧ (∀ p a, v.core p a = if v.inDoubt p a then Config.drumWord s.turns p a else s.core p a)
      ∧ ∀ p a, v.inDoubt p a = true ↔ s.inDoubt p a = true
          ∨ (s.drum.go = true ∧ s.drum.rewrites = true ∧ (∀ q, v.nameOf q = s.drum.memory ↔ q = p)
              ∧ s.drum.coreAddress.toNat ≤ a.toNat ∧ a.toNat < s.drum.coreAddress.toNat + s.drum.wordCount.toNat)

/-- R197, R198, R199, R200: the clock, the trap buffer and the Rem-Rand Control; the values read are free (log 9, 35). -/
def Obligations.ProcessorTransfers : Prop :=
  ∀ (s : State) (xx : BitVec 6), s.rm = false →
    exec (.rck xx) s = .next { s with
        io := Config.clockRead s.draws, ckb := Config.clockRead s.draws, draws := s.draws + 1 }
      ∧ exec (.ctb xx) s = .next { s with tb := 0 }
      ∧ exec (.rro xx) s = .next { s with
          remRand := { s.remRand with conditionsOut := s.io }, history := s.history ++ [.remRandRro s.io] }
      ∧ exec (.rri xx) s = .next { s with
          io := Config.remRandIn s.draws, remRand := { s.remRand with conditionsIn := Config.remRandIn s.draws }
          draws := s.draws + 1 }

/-! Devices. -/

/-- R221, R222, R224, R293: DIA, DBA and DWC hand I/O to the drum, decoded as the figures say. DBA does so in every state, and
arms the break; where no transfer runs and no sequence is open it may stand for DIA, and a DIA may follow it too; inside a
sequence it puts it out of order, so that neither DIA nor DWC is admitted afterwards. DIA and DWC are refused out of their
place, and DIA while the last transfer runs. That the refusal falls on the first of DIA, DWC and DCL out of place, that whether a
transfer is over is free and that a sequence begun takes back GO are the model's choices (log 28), and so is that DIA leaves the
break armed (log 31). -/
def Obligations.DrumAddressAndCount : Prop :=
  ∀ (s : State) (xx : BitVec 6), s.rm = false →
    let figure := { s.drum with
      read := s.io.getMsbD 0, readField := s.io.extractLsb' 12 5, initialAddress := s.io.extractLsb' 0 12 }
    let ended := s.drum.go = false ∨ Config.drumBusy s.turns = false
    (∃ u, exec .dba s = .next u
        ∧ u = { s with drum := u.drum, history := s.history ++ [.drumDba s.io] }
        ∧ u.drum = { figure with breakArmed := true, go := u.drum.go, sequence := u.drum.sequence }
        ∧ (u.drum.go = true ↔ ¬ended)
        ∧ (s.drum.sequence = .none ∧ ended → u.drum.sequence = .breakGiven)
        ∧ (s.drum.sequence = .none ∧ ¬ended → u.drum.sequence = .none)
        ∧ (s.drum.sequence = .breakGiven → u.drum.sequence = .breakGiven)
        ∧ (s.drum.sequence ∉ [.none, .breakGiven] → u.drum.sequence = .outOfOrder))
    ∧ (s.drum.sequence ∈ [.none, .breakGiven] → ended → exec (.dia xx) s = .next { s with
        drum := { figure with go := false, sequence := .addressGiven }, history := s.history ++ [.drumDia s.io] })
    ∧ (s.drum.sequence ∈ [.none, .breakGiven] → ¬ended → exec (.dia xx) s = .refused .drumBusy)
    ∧ (s.drum.sequence ∉ [.none, .breakGiven] → exec (.dia xx) s = .refused .drumOrder)
    ∧ (s.drum.sequence ∈ [.addressGiven, .breakGiven] → exec (.dwc xx) s = .next { s with
        drum := { s.drum with
          write := s.io.getMsbD 0, writeField := s.io.extractLsb' 12 5, wordCount := s.io.extractLsb' 0 12
          sequence := .countGiven }
        history := s.history ++ [.drumDwc s.io] })
    ∧ (s.drum.sequence ∉ [.addressGiven, .breakGiven] → exec (.dwc xx) s = .refused .drumOrder)

/-- R223, R293: DCL, given in the drum's order, selects memory and core address and says GO. It is refused in any other order;
where the values leave the transfer without a meaning, being both bits or neither, no word, or an address that would wrap (R226,
U18); and, by D23 (log 23), where its memory select is a name that no memory or several bear (R53). R226 with R49: a read adds
exactly the words of its window, in the memory that bears the name, to those that may be rewritten, and a write adds none. Words
that may be rewritten are free from then on and core is otherwise as it was. Where the refusals fall, that both addresses count
as wrapping, which words may be rewritten and which bits of I/O select the memory are the model's choices (log 28, 29). -/
def Obligations.DrumGo : Prop :=
  ∀ s : State, s.rm = false →
    let name := s.io.extractLsb' 14 2
    let start := s.io.extractLsb' 0 12
    let count := s.drum.wordCount.toNat
    let meaning := s.drum.read ≠ s.drum.write ∧ s.drum.wordCount ≠ 0#12 ∧ start.toNat + count ≤ 4096
      ∧ s.drum.initialAddress.toNat + count ≤ 4096
    (s.drum.sequence ≠ .countGiven → exec .dcl s = .refused .drumOrder)
    ∧ (s.drum.sequence = .countGiven → ¬meaning → exec .dcl s = .refused .drumTransfer)
    ∧ (s.drum.sequence = .countGiven → meaning → (∀ p, ∃ q, ¬(s.nameOf q = name ↔ q = p)) →
        exec .dcl s = .refused .memoryName)
    ∧ ∀ p, s.drum.sequence = .countGiven → meaning → (∀ q, s.nameOf q = name ↔ q = p) → ∃ t, exec .dcl s = .next t
      ∧ t = { s with mem := t.mem, drum := t.drum, history := s.history ++ [.drumDcl s.io] }
      ∧ t.drum = { s.drum with
          memory := name, coreAddress := start, go := true, rewrites := s.drum.read, sequence := .none
          windows := t.drum.windows }
      ∧ (∀ q a, t.core q a = if t.inDoubt q a then Config.drumWord s.turns q a else s.core q a)
      ∧ ∀ q a, t.inDoubt q a = true ↔
          (s.drum.read = true ∧ q = p ∧ start.toNat ≤ a.toNat ∧ a.toNat < start.toNat + count) ∨ s.inDoubt q a = true

/-- R225: DRA reads a free value into I/O (D24, log 30). -/
def Obligations.DrumRequestAddress : Prop :=
  ∀ s : State, s.rm = false → exec .dra s = .next { s with
    io := Config.drumAddress s.draws, drum := { s.drum with currentAddress := Config.drumAddress s.draws }
    draws := s.draws + 1 }

/-- R228, R229, R230: the character of the line the receiver counter names is ORed into the character bits of I/O, cleared
first if the 2000 bit is set; bits above the character stay. That line's receiver flag is cleared, the other lines' stay;
RCC also clears the scanner flag. Character and counter are free values, and the 64 lines the model's choice (log 32). -/
def Obligations.ReceiveCharacter : Prop :=
  ∀ (s : State) (c : Bool), s.rm = false →
    let io1 := if c then 0#18 else s.io
    let first := if Config.dcsEightBit then 10 else 13
    let line := Config.receiverCounter s.draws
    ∃ t, exec (.rch c) s = .next t
      ∧ (∀ k < 18, t.io.getMsbD k =
          (io1.getMsbD k || (decide (first ≤ k) && (Config.dcsCharacter s.draws).getMsbD (k - 10))))
      ∧ t = { s with io := t.io, dcs := t.dcs, history := s.history ++ [.dcsClearReceiverFlag], draws := s.draws + 1 }
      ∧ t.dcs = { s.dcs with receiverCounter := line, receiverFlags := t.dcs.receiverFlags }
      ∧ (∀ n < 64, t.dcs.receiverFlags.getLsbD n = (s.dcs.receiverFlags.getLsbD n && decide (n ≠ line.toNat)))
      ∧ exec (.rcc c) s = .next { t with
          dcs := { t.dcs with scannerFlag := false }, history := t.history ++ [.dcsClearScannerFlag] }

/-- R228, R231, R232: the character bits of I/O, after the 2000 bit's clearing, go to the transmitter; the receiver flag of
the line the counter, or the send buffer, names is cleared; TCC also clears the scanner flag. The counter is free, and the
64 lines are the model's choice (log 32). -/
def Obligations.TransmitCharacter : Prop :=
  ∀ (s : State) (c : Bool), s.rm = false →
    let io1 := if c then 0#18 else s.io
    let ch := if Config.dcsEightBit then io1.extractLsb' 0 8 else 0#3 ++ io1.extractLsb' 0 5
    ∃ t u, exec (.tcc c) s = .next t ∧ exec (.tcb c) s = .next u
      ∧ t = { s with
          io := io1, dcs := t.dcs, draws := s.draws + 1
          history := s.history ++ [.dcsTransmitByReceiverCounter ch, .dcsClearReceiverFlag, .dcsClearScannerFlag] }
      ∧ t.dcs = { s.dcs with
          receiverCounter := Config.receiverCounter s.draws, receiverFlags := t.dcs.receiverFlags, scannerFlag := false }
      ∧ (∀ n < 64, t.dcs.receiverFlags.getLsbD n =
          (s.dcs.receiverFlags.getLsbD n && decide (n ≠ (Config.receiverCounter s.draws).toNat)))
      ∧ u = { s with
          io := io1, dcs := { s.dcs with receiverFlags := u.dcs.receiverFlags }
          history := s.history ++ [.dcsTransmitBySendBuffer ch, .dcsClearReceiverFlag] }
      ∧ (∀ n < 64, u.dcs.receiverFlags.getLsbD n =
          (s.dcs.receiverFlags.getLsbD n && decide (n ≠ s.dcs.sendBuffer.toNat)))

/-- R228, R233, R234, R235: the receiver counter, a free value (log 32), is ORed into I/O bits 12 to 17; I/O bits 12 to 17
set the send buffer; the scanner flag is cleared. -/
def Obligations.CounterBufferAndScanner : Prop :=
  ∀ (s : State) (c : Bool), s.rm = false →
    let io1 := if c then 0#18 else s.io
    ∃ t, exec (.rrc c) s = .next t
      ∧ (∀ k < 12, t.io.getMsbD k = io1.getMsbD k)
      ∧ (∀ k < 6, t.io.getMsbD (12 + k) = (io1.getMsbD (12 + k) || (Config.receiverCounter s.draws).getMsbD k))
      ∧ t = { s with
          io := t.io, dcs := { s.dcs with receiverCounter := Config.receiverCounter s.draws }, draws := s.draws + 1 }
      ∧ exec (.ssb c) s = .next { s with
          io := io1, dcs := { s.dcs with sendBuffer := io1.extractLsb' 0 6 }
          history := s.history ++ [.dcsSsb (io1.extractLsb' 0 6)] }
      ∧ exec (.rsc c) s = .next { s with
          io := io1, dcs := { s.dcs with scannerFlag := false }, history := s.history ++ [.dcsClearScannerFlag] }

/-- R238, R239, R242: DPY and SDB load the coordinates from bits 0 to 9 of AC and I/O; DPY and GCF clear the light pen
status; SDB never sets it (whether it clears it is open, log 33). -/
def Obligations.DisplayTransfers : Prop :=
  ∀ s : State, s.rm = false →
    let x := s.ac.extractLsb' 8 10
    let y := s.io.extractLsb' 8 10
    exec .dpy s = .next { s with
        display := { x := x, y := y, lightPen := false }, history := s.history ++ [.displayDpy x y] }
      ∧ (∃ t, exec .sdb s = .next t
        ∧ t = { s with
            display := { x := x, y := y, lightPen := t.display.lightPen }, history := s.history ++ [.displaySdb x y] }
        ∧ (s.display.lightPen = false → t.display.lightPen = false))
      ∧ exec .gcf s = .next { s with
          display := { s.display with lightPen := false }, history := s.history ++ [.displayGcf] }

/-- R240, R241, R243, R244: I/O goes to the shift register; GPL sets the subscript control from bit 17, GLF spacing and size
from bits 15 to 17; the counters a plot or a space moves are free, and so is the dot counter after GSP unless I/O is clear
(the model's choices, log 34). -/
def Obligations.CharacterGeneratorTransfers : Prop :=
  ∀ s : State, s.rm = false →
    exec .gpl s = .next { s with
        chargen := { s.chargen with
          shift := s.io, subscript := s.io.getMsbD 17, dotCounter := Config.dotCounter s.draws }
        history := s.history ++ [.chargenGpl s.io], draws := s.draws + 1 }
      ∧ (∃ t, exec .gpr s = .next t
        ∧ t = { s with
            chargen := { s.chargen with
              shift := s.io, dotCounter := Config.dotCounter s.draws, xCounter := t.chargen.xCounter }
            history := s.history ++ [.chargenGpr s.io], draws := s.draws + 1 }
        ∧ (s.chargen.autoSpacing = false → t.chargen.xCounter = s.chargen.xCounter))
      ∧ exec .glf s = .next { s with
          chargen := { s.chargen with autoSpacing := s.io.getMsbD 15, size := s.io.extractLsb' 0 2 }
          history := s.history ++ [.chargenGlf (s.io.extractLsb' 0 3)] }
      ∧ ∃ t, exec .gsp s = .next t
        ∧ t = { s with
            chargen := { s.chargen with
              shift := s.io, dotCounter := t.chargen.dotCounter, xCounter := Config.xCounter s.draws }
            history := s.history ++ [.chargenGsp s.io], draws := s.draws + 1 }
        ∧ (s.io = 0#18 → t.chargen.dotCounter = s.chargen.dotCounter)

/-- R220: events join the run's history and none is lost, and only in-out transfers send any (what is an event: log 27). -/
def Obligations.HistoryOnlyGrows : Prop :=
  ∀ (s t : State), step s = .next t →
    s.history <+: t.history
      ∧ ((∃ p i, s.Addresses p ∧ decode (s.core p s.pc) = .ok i ∧ i.isIot = true) ∨ t.history = s.history)

/-! Rules about the whole machine. -/

/-- R12, R8: a step leaves PC at the next instruction or the one after it, and leaves it where it was only by a trap at the
fetch. That PC is advanced at every other trap and not at that one is D14 (log 7), and its width and wrap are D2 (log 22):
choices. -/
def Obligations.ProgramCounterAdvances : Prop :=
  ∀ s t : State, step s = .next t →
    t.pc = s.pc + 1#12 ∨ t.pc = s.pc + 2#12 ∨ (t.pc = s.pc ∧ s.Forbidden ∧ TrapTaken .protectedMemory s t)

/-- R13, R14: which instructions write the link, and which RNG. That IDA, IDC, SCM, LCH and DCH do not write the link is D7
(log 19), a choice. SPC counts whatever its bits; SpecialOperateWord says which of them write. -/
def Obligations.WritersOfLinkAndRing : Prop :=
  ∀ (i : Instr) (s t : State), exec i s = .next t →
    (t.link ≠ s.link → ∃ y rev acts x,
      i ∈ [Instr.tad y, .tadI y, .ifi x, .scf x, .cll x, .cml x, .spc rev acts x])
    ∧ (t.ring ≠ s.ring → ∃ rev acts x, i ∈ [Instr.erg, .lrg, .ifi x, .scf x, .spc rev acts x])

/-- R46, R105, R49: of the instructions only the deposits and the automatic load write core, and only in the memory the
processor addresses, which no instruction chooses (D3, log 1); and after every step that made a memory cycle each word that
the drum may be rewriting holds what the drum's turn left there, any value (U19). How the drum's turns are counted is the
model's (log 28). -/
def Obligations.WritersOfCore : Prop :=
  (∀ (i : Instr) (s t : State) (p : MemNo) (a : Addr), exec i s = .next t → t.inDoubt p a = false →
    t.core p a ≠ s.core p a → s.Addresses p ∧ ∃ y, i ∈ [Instr.lchI y, .dch y, .dchI y])
  ∧ ∀ (s t : State) (p : MemNo) (a : Addr), step s = .next t → ¬s.Forbidden → s.inDoubt p a = true →
      s.turns < t.turns ∧ t.core p a = Config.drumWord t.turns p a

/-- From restrict mode no step leads out of it, and none changes protection, names, the clock buffer, a device or what
devices were sent; the trap buffer changes only by a trap (R268). That RM is still set after a trap is the model's choice:
it is the default of `SeqBreakEntry` (D14, log 6), and R268 leaves open whether the break entry would leave the mode. That
a trapping in-out transfer has no effect is D15 (log 24); that devices do not change by themselves is the model's (log 42). -/
def Obligations.RestrictModeIsConfined : Prop :=
  ∀ s t : State, s.rm = true → step s = .next t →
    t.rm = true ∧ SamePrivileged s t ∧ (t.breaks.restrict = none → t.tb = s.tb)

/-- R52: in restrict mode no step of the processor changes a word of a memory whose name is protected: the drum's turns
alone, which nothing checks (log 28), account for what such a word holds after it. That the violating write is suppressed is
D15 (log 24): choices. -/
def Obligations.ProtectedMemoryIsNotWritten : Prop :=
  ∀ (s t : State) (p : MemNo) (a : Addr), s.rm = true → s.prot.getMsbD (s.nameOf p).toNat = true → step s = .next t →
    t.core p a = { s with turns := t.turns }.core p a

/-- R52, R268: in restrict mode no step learns a word of a protected memory: two states that differ only in protected
memories step to states that differ only in protected memories, or stop in the same way. That a forbidden read is not made
is D15 (log 24), a choice, and what a drum transfer puts in doubt is free in both (log 28). -/
def Obligations.ProtectedMemoryIsNotRead : Prop :=
  ∀ (s : State) (m : Memory), s.rm = true → SameUnprotected s { s with mem := m } →
    (∃ t m', step s = .next t ∧ step { s with mem := m } = .next { t with mem := m' }
        ∧ SameUnprotected t { t with mem := m' })
      ∨ (∃ f, step s = .fault f ∧ step { s with mem := m } = .fault f)
      ∨ (∃ r, step s = .refused r ∧ step { s with mem := m } = .refused r)

/-- The invariant of the machine. Its clauses rest on choices: core in the model's canonical form (log 5); a trap pending only in
restrict mode (R261), which needs RM still set after a trap (D14, log 6); no device break requested, since the default
`SeqBreakEntry` admits none (R265, D29, log 36); no protection outside restrict mode (R193, R194); no word listed
that the drum may be rewriting (R49), and no sequence of the drum's instructions open while GO stands (R293), both the model's
own record (log 28). -/
def Obligations.InvariantIsKept : Prop :=
  ∀ s t : State, s.Inv → step s = .next t → t.Inv

/-- The invariant holds after reset, whose values are the model's choice (log 2, 3, 4). -/
def Obligations.InvariantHoldsAtReset : Prop := State.reset.Inv

/-- The model's choice of reset (log 2, 3, 4; R28 gives no value): PC 0000, normal mode, nothing protected, every memory
under its own number, nothing written in core, nothing pending, no drum transfer running and no core word in a drum window; so the first step fetches location 0000 of memory 0. -/
def Obligations.ResetIsReadyToRun : Prop :=
  State.reset.pc = 0#12 ∧ State.reset.rm = false ∧ State.reset.prot = 0#4 ∧ (∀ p, State.reset.nameOf p = p)
    ∧ State.reset.mem = [] ∧ State.reset.NoBreak ∧ State.reset.Addresses 0#2 ∧ State.reset.drum.windows = []
    ∧ State.reset.drum.go = false
end

