-- ==== Sys2Proof/Laws/State.lean ====
section
/-! SUPPORT. One lemma per field per named update of the state, so that no later proof unfolds a record update. -/

namespace Sys2Proof.Machine

/-! `restrictTrap` -/

@[simp] theorem State.restrictTrap_ac (cause : TrapCause) (s : State) :
    (s.restrictTrap cause).ac = s.ac := rfl
@[simp] theorem State.restrictTrap_io (cause : TrapCause) (s : State) :
    (s.restrictTrap cause).io = s.io := rfl
@[simp] theorem State.restrictTrap_pc (cause : TrapCause) (s : State) :
    (s.restrictTrap cause).pc = s.pc := rfl
@[simp] theorem State.restrictTrap_link (cause : TrapCause) (s : State) :
    (s.restrictTrap cause).link = s.link := rfl
@[simp] theorem State.restrictTrap_ring (cause : TrapCause) (s : State) :
    (s.restrictTrap cause).ring = s.ring := rfl
@[simp] theorem State.restrictTrap_pf (cause : TrapCause) (s : State) :
    (s.restrictTrap cause).pf = s.pf := rfl
@[simp] theorem State.restrictTrap_rm (cause : TrapCause) (s : State) :
    (s.restrictTrap cause).rm = s.rm := rfl
@[simp] theorem State.restrictTrap_prot (cause : TrapCause) (s : State) :
    (s.restrictTrap cause).prot = s.prot := rfl
@[simp] theorem State.restrictTrap_names (cause : TrapCause) (s : State) :
    (s.restrictTrap cause).names = s.names := rfl
@[simp] theorem State.restrictTrap_tb (cause : TrapCause) (s : State) :
    (s.restrictTrap cause).tb = Config.trapBuffer s.draws := rfl
@[simp] theorem State.restrictTrap_ckb (cause : TrapCause) (s : State) :
    (s.restrictTrap cause).ckb = s.ckb := rfl
@[simp] theorem State.restrictTrap_mcur (cause : TrapCause) (s : State) :
    (s.restrictTrap cause).mcur = s.mcur := rfl
@[simp] theorem State.restrictTrap_ma (cause : TrapCause) (s : State) :
    (s.restrictTrap cause).ma = s.ma := rfl
@[simp] theorem State.restrictTrap_mb (cause : TrapCause) (s : State) :
    (s.restrictTrap cause).mb = s.mb := rfl
@[simp] theorem State.restrictTrap_ld (cause : TrapCause) (s : State) :
    (s.restrictTrap cause).ld = s.ld := rfl
@[simp] theorem State.restrictTrap_inc (cause : TrapCause) (s : State) :
    (s.restrictTrap cause).inc = s.inc := rfl
@[simp] theorem State.restrictTrap_mem (cause : TrapCause) (s : State) :
    (s.restrictTrap cause).mem = s.mem := rfl
@[simp] theorem State.restrictTrap_drum (cause : TrapCause) (s : State) :
    (s.restrictTrap cause).drum = s.drum := rfl
@[simp] theorem State.restrictTrap_dcs (cause : TrapCause) (s : State) :
    (s.restrictTrap cause).dcs = s.dcs := rfl
@[simp] theorem State.restrictTrap_display (cause : TrapCause) (s : State) :
    (s.restrictTrap cause).display = s.display := rfl
@[simp] theorem State.restrictTrap_chargen (cause : TrapCause) (s : State) :
    (s.restrictTrap cause).chargen = s.chargen := rfl
@[simp] theorem State.restrictTrap_remRand (cause : TrapCause) (s : State) :
    (s.restrictTrap cause).remRand = s.remRand := rfl
@[simp] theorem State.restrictTrap_breaks (cause : TrapCause) (s : State) :
    (s.restrictTrap cause).breaks = { s.breaks with restrict := some cause } := rfl
@[simp] theorem State.restrictTrap_history (cause : TrapCause) (s : State) :
    (s.restrictTrap cause).history = s.history := rfl
@[simp] theorem State.restrictTrap_draws (cause : TrapCause) (s : State) :
    (s.restrictTrap cause).draws = s.draws + 1 := rfl
@[simp] theorem State.restrictTrap_turns (cause : TrapCause) (s : State) :
    (s.restrictTrap cause).turns = s.turns := rfl

/-! `setFlags8` -/

@[simp] theorem State.setFlags8_ac (f : BitVec 8) (s : State) :
    (s.setFlags8 f).ac = s.ac := rfl
@[simp] theorem State.setFlags8_io (f : BitVec 8) (s : State) :
    (s.setFlags8 f).io = s.io := rfl
@[simp] theorem State.setFlags8_pc (f : BitVec 8) (s : State) :
    (s.setFlags8 f).pc = s.pc := rfl
@[simp] theorem State.setFlags8_link (f : BitVec 8) (s : State) :
    (s.setFlags8 f).link = f.getMsbD 0 := rfl
@[simp] theorem State.setFlags8_ring (f : BitVec 8) (s : State) :
    (s.setFlags8 f).ring = f.getMsbD 1 := rfl
@[simp] theorem State.setFlags8_pf (f : BitVec 8) (s : State) :
    (s.setFlags8 f).pf = f.extractLsb' 0 6 := rfl
@[simp] theorem State.setFlags8_rm (f : BitVec 8) (s : State) :
    (s.setFlags8 f).rm = s.rm := rfl
@[simp] theorem State.setFlags8_prot (f : BitVec 8) (s : State) :
    (s.setFlags8 f).prot = s.prot := rfl
@[simp] theorem State.setFlags8_names (f : BitVec 8) (s : State) :
    (s.setFlags8 f).names = s.names := rfl
@[simp] theorem State.setFlags8_tb (f : BitVec 8) (s : State) :
    (s.setFlags8 f).tb = s.tb := rfl
@[simp] theorem State.setFlags8_ckb (f : BitVec 8) (s : State) :
    (s.setFlags8 f).ckb = s.ckb := rfl
@[simp] theorem State.setFlags8_mcur (f : BitVec 8) (s : State) :
    (s.setFlags8 f).mcur = s.mcur := rfl
@[simp] theorem State.setFlags8_ma (f : BitVec 8) (s : State) :
    (s.setFlags8 f).ma = s.ma := rfl
@[simp] theorem State.setFlags8_mb (f : BitVec 8) (s : State) :
    (s.setFlags8 f).mb = s.mb := rfl
@[simp] theorem State.setFlags8_ld (f : BitVec 8) (s : State) :
    (s.setFlags8 f).ld = s.ld := rfl
@[simp] theorem State.setFlags8_inc (f : BitVec 8) (s : State) :
    (s.setFlags8 f).inc = s.inc := rfl
@[simp] theorem State.setFlags8_mem (f : BitVec 8) (s : State) :
    (s.setFlags8 f).mem = s.mem := rfl
@[simp] theorem State.setFlags8_drum (f : BitVec 8) (s : State) :
    (s.setFlags8 f).drum = s.drum := rfl
@[simp] theorem State.setFlags8_dcs (f : BitVec 8) (s : State) :
    (s.setFlags8 f).dcs = s.dcs := rfl
@[simp] theorem State.setFlags8_display (f : BitVec 8) (s : State) :
    (s.setFlags8 f).display = s.display := rfl
@[simp] theorem State.setFlags8_chargen (f : BitVec 8) (s : State) :
    (s.setFlags8 f).chargen = s.chargen := rfl
@[simp] theorem State.setFlags8_remRand (f : BitVec 8) (s : State) :
    (s.setFlags8 f).remRand = s.remRand := rfl
@[simp] theorem State.setFlags8_breaks (f : BitVec 8) (s : State) :
    (s.setFlags8 f).breaks = s.breaks := rfl
@[simp] theorem State.setFlags8_history (f : BitVec 8) (s : State) :
    (s.setFlags8 f).history = s.history := rfl
@[simp] theorem State.setFlags8_draws (f : BitVec 8) (s : State) :
    (s.setFlags8 f).draws = s.draws := rfl
@[simp] theorem State.setFlags8_turns (f : BitVec 8) (s : State) :
    (s.setFlags8 f).turns = s.turns := rfl

/-! `clearFlags` -/

@[simp] theorem State.clearFlags_ac (s : State) :
    (s.clearFlags).ac = s.ac := rfl
@[simp] theorem State.clearFlags_io (s : State) :
    (s.clearFlags).io = s.io := rfl
@[simp] theorem State.clearFlags_pc (s : State) :
    (s.clearFlags).pc = s.pc := rfl
@[simp] theorem State.clearFlags_link (s : State) :
    (s.clearFlags).link = false := rfl
@[simp] theorem State.clearFlags_ring (s : State) :
    (s.clearFlags).ring = false := rfl
@[simp] theorem State.clearFlags_pf (s : State) :
    (s.clearFlags).pf = 0#6 := rfl
@[simp] theorem State.clearFlags_rm (s : State) :
    (s.clearFlags).rm = s.rm := rfl
@[simp] theorem State.clearFlags_prot (s : State) :
    (s.clearFlags).prot = s.prot := rfl
@[simp] theorem State.clearFlags_names (s : State) :
    (s.clearFlags).names = s.names := rfl
@[simp] theorem State.clearFlags_tb (s : State) :
    (s.clearFlags).tb = s.tb := rfl
@[simp] theorem State.clearFlags_ckb (s : State) :
    (s.clearFlags).ckb = s.ckb := rfl
@[simp] theorem State.clearFlags_mcur (s : State) :
    (s.clearFlags).mcur = s.mcur := rfl
@[simp] theorem State.clearFlags_ma (s : State) :
    (s.clearFlags).ma = s.ma := rfl
@[simp] theorem State.clearFlags_mb (s : State) :
    (s.clearFlags).mb = s.mb := rfl
@[simp] theorem State.clearFlags_ld (s : State) :
    (s.clearFlags).ld = s.ld := rfl
@[simp] theorem State.clearFlags_inc (s : State) :
    (s.clearFlags).inc = s.inc := rfl
@[simp] theorem State.clearFlags_mem (s : State) :
    (s.clearFlags).mem = s.mem := rfl
@[simp] theorem State.clearFlags_drum (s : State) :
    (s.clearFlags).drum = s.drum := rfl
@[simp] theorem State.clearFlags_dcs (s : State) :
    (s.clearFlags).dcs = s.dcs := rfl
@[simp] theorem State.clearFlags_display (s : State) :
    (s.clearFlags).display = s.display := rfl
@[simp] theorem State.clearFlags_chargen (s : State) :
    (s.clearFlags).chargen = s.chargen := rfl
@[simp] theorem State.clearFlags_remRand (s : State) :
    (s.clearFlags).remRand = s.remRand := rfl
@[simp] theorem State.clearFlags_breaks (s : State) :
    (s.clearFlags).breaks = s.breaks := rfl
@[simp] theorem State.clearFlags_history (s : State) :
    (s.clearFlags).history = s.history := rfl
@[simp] theorem State.clearFlags_draws (s : State) :
    (s.clearFlags).draws = s.draws := rfl
@[simp] theorem State.clearFlags_turns (s : State) :
    (s.clearFlags).turns = s.turns := rfl

/-! `drumTurn` -/

@[simp] theorem State.drumTurn_ac (s : State) :
    (s.drumTurn).ac = s.ac := rfl
@[simp] theorem State.drumTurn_io (s : State) :
    (s.drumTurn).io = s.io := rfl
@[simp] theorem State.drumTurn_pc (s : State) :
    (s.drumTurn).pc = s.pc := rfl
@[simp] theorem State.drumTurn_link (s : State) :
    (s.drumTurn).link = s.link := rfl
@[simp] theorem State.drumTurn_ring (s : State) :
    (s.drumTurn).ring = s.ring := rfl
@[simp] theorem State.drumTurn_pf (s : State) :
    (s.drumTurn).pf = s.pf := rfl
@[simp] theorem State.drumTurn_rm (s : State) :
    (s.drumTurn).rm = s.rm := rfl
@[simp] theorem State.drumTurn_prot (s : State) :
    (s.drumTurn).prot = s.prot := rfl
@[simp] theorem State.drumTurn_names (s : State) :
    (s.drumTurn).names = s.names := rfl
@[simp] theorem State.drumTurn_tb (s : State) :
    (s.drumTurn).tb = s.tb := rfl
@[simp] theorem State.drumTurn_ckb (s : State) :
    (s.drumTurn).ckb = s.ckb := rfl
@[simp] theorem State.drumTurn_mcur (s : State) :
    (s.drumTurn).mcur = s.mcur := rfl
@[simp] theorem State.drumTurn_ma (s : State) :
    (s.drumTurn).ma = s.ma := rfl
@[simp] theorem State.drumTurn_mb (s : State) :
    (s.drumTurn).mb = s.mb := rfl
@[simp] theorem State.drumTurn_ld (s : State) :
    (s.drumTurn).ld = s.ld := rfl
@[simp] theorem State.drumTurn_inc (s : State) :
    (s.drumTurn).inc = s.inc := rfl
@[simp] theorem State.drumTurn_mem (s : State) :
    (s.drumTurn).mem = s.mem := rfl
@[simp] theorem State.drumTurn_drum (s : State) :
    (s.drumTurn).drum = s.drum := rfl
@[simp] theorem State.drumTurn_dcs (s : State) :
    (s.drumTurn).dcs = s.dcs := rfl
@[simp] theorem State.drumTurn_display (s : State) :
    (s.drumTurn).display = s.display := rfl
@[simp] theorem State.drumTurn_chargen (s : State) :
    (s.drumTurn).chargen = s.chargen := rfl
@[simp] theorem State.drumTurn_remRand (s : State) :
    (s.drumTurn).remRand = s.remRand := rfl
@[simp] theorem State.drumTurn_breaks (s : State) :
    (s.drumTurn).breaks = s.breaks := rfl
@[simp] theorem State.drumTurn_history (s : State) :
    (s.drumTurn).history = s.history := rfl
@[simp] theorem State.drumTurn_draws (s : State) :
    (s.drumTurn).draws = s.draws := rfl
@[simp] theorem State.drumTurn_turns (s : State) :
    (s.drumTurn).turns = s.turns + 1 := rfl

/-! `yieldToDrum` -/

@[simp] theorem State.yieldToDrum_ac (s : State) :
    (s.yieldToDrum).ac = s.ac := rfl
@[simp] theorem State.yieldToDrum_io (s : State) :
    (s.yieldToDrum).io = s.io := rfl
@[simp] theorem State.yieldToDrum_pc (s : State) :
    (s.yieldToDrum).pc = s.pc := rfl
@[simp] theorem State.yieldToDrum_link (s : State) :
    (s.yieldToDrum).link = s.link := rfl
@[simp] theorem State.yieldToDrum_ring (s : State) :
    (s.yieldToDrum).ring = s.ring := rfl
@[simp] theorem State.yieldToDrum_pf (s : State) :
    (s.yieldToDrum).pf = s.pf := rfl
@[simp] theorem State.yieldToDrum_rm (s : State) :
    (s.yieldToDrum).rm = s.rm := rfl
@[simp] theorem State.yieldToDrum_prot (s : State) :
    (s.yieldToDrum).prot = s.prot := rfl
@[simp] theorem State.yieldToDrum_names (s : State) :
    (s.yieldToDrum).names = s.names := rfl
@[simp] theorem State.yieldToDrum_tb (s : State) :
    (s.yieldToDrum).tb = s.tb := rfl
@[simp] theorem State.yieldToDrum_ckb (s : State) :
    (s.yieldToDrum).ckb = s.ckb := rfl
@[simp] theorem State.yieldToDrum_mcur (s : State) :
    (s.yieldToDrum).mcur = s.mcur := rfl
@[simp] theorem State.yieldToDrum_ma (s : State) :
    (s.yieldToDrum).ma = s.ma := rfl
@[simp] theorem State.yieldToDrum_mb (s : State) :
    (s.yieldToDrum).mb = s.mb := rfl
@[simp] theorem State.yieldToDrum_ld (s : State) :
    (s.yieldToDrum).ld = s.ld := rfl
@[simp] theorem State.yieldToDrum_inc (s : State) :
    (s.yieldToDrum).inc = s.inc := rfl
@[simp] theorem State.yieldToDrum_mem (s : State) :
    (s.yieldToDrum).mem = s.mem.filter fun cell => !s.inDoubt (keyMemory cell.1) (keyAddr cell.1) := rfl
@[simp] theorem State.yieldToDrum_drum (s : State) :
    (s.yieldToDrum).drum = s.drum := rfl
@[simp] theorem State.yieldToDrum_dcs (s : State) :
    (s.yieldToDrum).dcs = s.dcs := rfl
@[simp] theorem State.yieldToDrum_display (s : State) :
    (s.yieldToDrum).display = s.display := rfl
@[simp] theorem State.yieldToDrum_chargen (s : State) :
    (s.yieldToDrum).chargen = s.chargen := rfl
@[simp] theorem State.yieldToDrum_remRand (s : State) :
    (s.yieldToDrum).remRand = s.remRand := rfl
@[simp] theorem State.yieldToDrum_breaks (s : State) :
    (s.yieldToDrum).breaks = s.breaks := rfl
@[simp] theorem State.yieldToDrum_history (s : State) :
    (s.yieldToDrum).history = s.history := rfl
@[simp] theorem State.yieldToDrum_draws (s : State) :
    (s.yieldToDrum).draws = s.draws := rfl
@[simp] theorem State.yieldToDrum_turns (s : State) :
    (s.yieldToDrum).turns = s.turns := rfl

/-! `rename` -/

@[simp] theorem State.rename_ac (names : Vector MemNo 4) (s : State) :
    (s.rename names).ac = s.ac := rfl
@[simp] theorem State.rename_io (names : Vector MemNo 4) (s : State) :
    (s.rename names).io = s.io := rfl
@[simp] theorem State.rename_pc (names : Vector MemNo 4) (s : State) :
    (s.rename names).pc = s.pc := rfl
@[simp] theorem State.rename_link (names : Vector MemNo 4) (s : State) :
    (s.rename names).link = s.link := rfl
@[simp] theorem State.rename_ring (names : Vector MemNo 4) (s : State) :
    (s.rename names).ring = s.ring := rfl
@[simp] theorem State.rename_pf (names : Vector MemNo 4) (s : State) :
    (s.rename names).pf = s.pf := rfl
@[simp] theorem State.rename_rm (names : Vector MemNo 4) (s : State) :
    (s.rename names).rm = s.rm := rfl
@[simp] theorem State.rename_prot (names : Vector MemNo 4) (s : State) :
    (s.rename names).prot = s.prot := rfl
@[simp] theorem State.rename_names (names : Vector MemNo 4) (s : State) :
    (s.rename names).names = names := rfl
@[simp] theorem State.rename_tb (names : Vector MemNo 4) (s : State) :
    (s.rename names).tb = s.tb := rfl
@[simp] theorem State.rename_ckb (names : Vector MemNo 4) (s : State) :
    (s.rename names).ckb = s.ckb := rfl
@[simp] theorem State.rename_mcur (names : Vector MemNo 4) (s : State) :
    (s.rename names).mcur = s.mcur := rfl
@[simp] theorem State.rename_ma (names : Vector MemNo 4) (s : State) :
    (s.rename names).ma = s.ma := rfl
@[simp] theorem State.rename_mb (names : Vector MemNo 4) (s : State) :
    (s.rename names).mb = s.mb := rfl
@[simp] theorem State.rename_ld (names : Vector MemNo 4) (s : State) :
    (s.rename names).ld = s.ld := rfl
@[simp] theorem State.rename_inc (names : Vector MemNo 4) (s : State) :
    (s.rename names).inc = s.inc := rfl
@[simp] theorem State.rename_mem (names : Vector MemNo 4) (s : State) :
    (s.rename names).mem =
      s.mem.filter fun cell => !(s.rename names).inDoubt (keyMemory cell.1) (keyAddr cell.1) := rfl
@[simp] theorem State.rename_drum (names : Vector MemNo 4) (s : State) :
    (s.rename names).drum =
      { s.drum with windows := State.transferWindows { s with names := names } ∪ s.drum.windows } := rfl
@[simp] theorem State.rename_dcs (names : Vector MemNo 4) (s : State) :
    (s.rename names).dcs = s.dcs := rfl
@[simp] theorem State.rename_display (names : Vector MemNo 4) (s : State) :
    (s.rename names).display = s.display := rfl
@[simp] theorem State.rename_chargen (names : Vector MemNo 4) (s : State) :
    (s.rename names).chargen = s.chargen := rfl
@[simp] theorem State.rename_remRand (names : Vector MemNo 4) (s : State) :
    (s.rename names).remRand = s.remRand := rfl
@[simp] theorem State.rename_breaks (names : Vector MemNo 4) (s : State) :
    (s.rename names).breaks = s.breaks := rfl
@[simp] theorem State.rename_history (names : Vector MemNo 4) (s : State) :
    (s.rename names).history = s.history := rfl
@[simp] theorem State.rename_draws (names : Vector MemNo 4) (s : State) :
    (s.rename names).draws = s.draws := rfl
@[simp] theorem State.rename_turns (names : Vector MemNo 4) (s : State) :
    (s.rename names).turns = s.turns := rfl

/-! `afterRead` -/

@[simp] theorem State.afterRead_ac (p : MemNo) (a : Addr) (s : State) :
    (s.afterRead p a).ac = s.ac := rfl
@[simp] theorem State.afterRead_io (p : MemNo) (a : Addr) (s : State) :
    (s.afterRead p a).io = s.io := rfl
@[simp] theorem State.afterRead_pc (p : MemNo) (a : Addr) (s : State) :
    (s.afterRead p a).pc = s.pc := rfl
@[simp] theorem State.afterRead_link (p : MemNo) (a : Addr) (s : State) :
    (s.afterRead p a).link = s.link := rfl
@[simp] theorem State.afterRead_ring (p : MemNo) (a : Addr) (s : State) :
    (s.afterRead p a).ring = s.ring := rfl
@[simp] theorem State.afterRead_pf (p : MemNo) (a : Addr) (s : State) :
    (s.afterRead p a).pf = s.pf := rfl
@[simp] theorem State.afterRead_rm (p : MemNo) (a : Addr) (s : State) :
    (s.afterRead p a).rm = s.rm := rfl
@[simp] theorem State.afterRead_prot (p : MemNo) (a : Addr) (s : State) :
    (s.afterRead p a).prot = s.prot := rfl
@[simp] theorem State.afterRead_names (p : MemNo) (a : Addr) (s : State) :
    (s.afterRead p a).names = s.names := rfl
@[simp] theorem State.afterRead_tb (p : MemNo) (a : Addr) (s : State) :
    (s.afterRead p a).tb = s.tb := rfl
@[simp] theorem State.afterRead_ckb (p : MemNo) (a : Addr) (s : State) :
    (s.afterRead p a).ckb = s.ckb := rfl
@[simp] theorem State.afterRead_mcur (p : MemNo) (a : Addr) (s : State) :
    (s.afterRead p a).mcur = s.mcur := rfl
@[simp] theorem State.afterRead_ma (p : MemNo) (a : Addr) (s : State) :
    (s.afterRead p a).ma = a := rfl
@[simp] theorem State.afterRead_mb (p : MemNo) (a : Addr) (s : State) :
    (s.afterRead p a).mb = s.core p a := rfl
@[simp] theorem State.afterRead_ld (p : MemNo) (a : Addr) (s : State) :
    (s.afterRead p a).ld = s.ld := rfl
@[simp] theorem State.afterRead_inc (p : MemNo) (a : Addr) (s : State) :
    (s.afterRead p a).inc = s.inc := rfl
@[simp] theorem State.afterRead_mem (p : MemNo) (a : Addr) (s : State) :
    (s.afterRead p a).mem = s.mem := rfl
@[simp] theorem State.afterRead_drum (p : MemNo) (a : Addr) (s : State) :
    (s.afterRead p a).drum = s.drum := rfl
@[simp] theorem State.afterRead_dcs (p : MemNo) (a : Addr) (s : State) :
    (s.afterRead p a).dcs = s.dcs := rfl
@[simp] theorem State.afterRead_display (p : MemNo) (a : Addr) (s : State) :
    (s.afterRead p a).display = s.display := rfl
@[simp] theorem State.afterRead_chargen (p : MemNo) (a : Addr) (s : State) :
    (s.afterRead p a).chargen = s.chargen := rfl
@[simp] theorem State.afterRead_remRand (p : MemNo) (a : Addr) (s : State) :
    (s.afterRead p a).remRand = s.remRand := rfl
@[simp] theorem State.afterRead_breaks (p : MemNo) (a : Addr) (s : State) :
    (s.afterRead p a).breaks = s.breaks := rfl
@[simp] theorem State.afterRead_history (p : MemNo) (a : Addr) (s : State) :
    (s.afterRead p a).history = s.history := rfl
@[simp] theorem State.afterRead_draws (p : MemNo) (a : Addr) (s : State) :
    (s.afterRead p a).draws = s.draws := rfl
@[simp] theorem State.afterRead_turns (p : MemNo) (a : Addr) (s : State) :
    (s.afterRead p a).turns = s.turns + 1 := rfl

/-! `afterWrite` -/

@[simp] theorem State.afterWrite_ac (p : MemNo) (a : Addr) (v : Word) (s : State) :
    (s.afterWrite p a v).ac = s.ac := rfl
@[simp] theorem State.afterWrite_io (p : MemNo) (a : Addr) (v : Word) (s : State) :
    (s.afterWrite p a v).io = s.io := rfl
@[simp] theorem State.afterWrite_pc (p : MemNo) (a : Addr) (v : Word) (s : State) :
    (s.afterWrite p a v).pc = s.pc := rfl
@[simp] theorem State.afterWrite_link (p : MemNo) (a : Addr) (v : Word) (s : State) :
    (s.afterWrite p a v).link = s.link := rfl
@[simp] theorem State.afterWrite_ring (p : MemNo) (a : Addr) (v : Word) (s : State) :
    (s.afterWrite p a v).ring = s.ring := rfl
@[simp] theorem State.afterWrite_pf (p : MemNo) (a : Addr) (v : Word) (s : State) :
    (s.afterWrite p a v).pf = s.pf := rfl
@[simp] theorem State.afterWrite_rm (p : MemNo) (a : Addr) (v : Word) (s : State) :
    (s.afterWrite p a v).rm = s.rm := rfl
@[simp] theorem State.afterWrite_prot (p : MemNo) (a : Addr) (v : Word) (s : State) :
    (s.afterWrite p a v).prot = s.prot := rfl
@[simp] theorem State.afterWrite_names (p : MemNo) (a : Addr) (v : Word) (s : State) :
    (s.afterWrite p a v).names = s.names := rfl
@[simp] theorem State.afterWrite_tb (p : MemNo) (a : Addr) (v : Word) (s : State) :
    (s.afterWrite p a v).tb = s.tb := rfl
@[simp] theorem State.afterWrite_ckb (p : MemNo) (a : Addr) (v : Word) (s : State) :
    (s.afterWrite p a v).ckb = s.ckb := rfl
@[simp] theorem State.afterWrite_mcur (p : MemNo) (a : Addr) (v : Word) (s : State) :
    (s.afterWrite p a v).mcur = s.mcur := rfl
@[simp] theorem State.afterWrite_ma (p : MemNo) (a : Addr) (v : Word) (s : State) :
    (s.afterWrite p a v).ma = a := rfl
@[simp] theorem State.afterWrite_mb (p : MemNo) (a : Addr) (v : Word) (s : State) :
    (s.afterWrite p a v).mb = v := rfl
@[simp] theorem State.afterWrite_ld (p : MemNo) (a : Addr) (v : Word) (s : State) :
    (s.afterWrite p a v).ld = s.ld := rfl
@[simp] theorem State.afterWrite_inc (p : MemNo) (a : Addr) (v : Word) (s : State) :
    (s.afterWrite p a v).inc = s.inc := rfl
@[simp] theorem State.afterWrite_mem (p : MemNo) (a : Addr) (v : Word) (s : State) :
    (s.afterWrite p a v).mem = if s.inDoubt p a then s.mem else Memory.store (coreKey p a) v s.mem := rfl
@[simp] theorem State.afterWrite_drum (p : MemNo) (a : Addr) (v : Word) (s : State) :
    (s.afterWrite p a v).drum = s.drum := rfl
@[simp] theorem State.afterWrite_dcs (p : MemNo) (a : Addr) (v : Word) (s : State) :
    (s.afterWrite p a v).dcs = s.dcs := rfl
@[simp] theorem State.afterWrite_display (p : MemNo) (a : Addr) (v : Word) (s : State) :
    (s.afterWrite p a v).display = s.display := rfl
@[simp] theorem State.afterWrite_chargen (p : MemNo) (a : Addr) (v : Word) (s : State) :
    (s.afterWrite p a v).chargen = s.chargen := rfl
@[simp] theorem State.afterWrite_remRand (p : MemNo) (a : Addr) (v : Word) (s : State) :
    (s.afterWrite p a v).remRand = s.remRand := rfl
@[simp] theorem State.afterWrite_breaks (p : MemNo) (a : Addr) (v : Word) (s : State) :
    (s.afterWrite p a v).breaks = s.breaks := rfl
@[simp] theorem State.afterWrite_history (p : MemNo) (a : Addr) (v : Word) (s : State) :
    (s.afterWrite p a v).history = s.history := rfl
@[simp] theorem State.afterWrite_draws (p : MemNo) (a : Addr) (v : Word) (s : State) :
    (s.afterWrite p a v).draws = s.draws := rfl
@[simp] theorem State.afterWrite_turns (p : MemNo) (a : Addr) (v : Word) (s : State) :
    (s.afterWrite p a v).turns = s.turns := rfl

/-! `skip` -/

@[simp] theorem State.skip_ac (s : State) :
    (s.skip).ac = s.ac := rfl
@[simp] theorem State.skip_io (s : State) :
    (s.skip).io = s.io := rfl
@[simp] theorem State.skip_pc (s : State) :
    (s.skip).pc = s.pc + 1#12 := rfl
@[simp] theorem State.skip_link (s : State) :
    (s.skip).link = s.link := rfl
@[simp] theorem State.skip_ring (s : State) :
    (s.skip).ring = s.ring := rfl
@[simp] theorem State.skip_pf (s : State) :
    (s.skip).pf = s.pf := rfl
@[simp] theorem State.skip_rm (s : State) :
    (s.skip).rm = s.rm := rfl
@[simp] theorem State.skip_prot (s : State) :
    (s.skip).prot = s.prot := rfl
@[simp] theorem State.skip_names (s : State) :
    (s.skip).names = s.names := rfl
@[simp] theorem State.skip_tb (s : State) :
    (s.skip).tb = s.tb := rfl
@[simp] theorem State.skip_ckb (s : State) :
    (s.skip).ckb = s.ckb := rfl
@[simp] theorem State.skip_mcur (s : State) :
    (s.skip).mcur = s.mcur := rfl
@[simp] theorem State.skip_ma (s : State) :
    (s.skip).ma = s.ma := rfl
@[simp] theorem State.skip_mb (s : State) :
    (s.skip).mb = s.mb := rfl
@[simp] theorem State.skip_ld (s : State) :
    (s.skip).ld = s.ld := rfl
@[simp] theorem State.skip_inc (s : State) :
    (s.skip).inc = s.inc := rfl
@[simp] theorem State.skip_mem (s : State) :
    (s.skip).mem = s.mem := rfl
@[simp] theorem State.skip_drum (s : State) :
    (s.skip).drum = s.drum := rfl
@[simp] theorem State.skip_dcs (s : State) :
    (s.skip).dcs = s.dcs := rfl
@[simp] theorem State.skip_display (s : State) :
    (s.skip).display = s.display := rfl
@[simp] theorem State.skip_chargen (s : State) :
    (s.skip).chargen = s.chargen := rfl
@[simp] theorem State.skip_remRand (s : State) :
    (s.skip).remRand = s.remRand := rfl
@[simp] theorem State.skip_breaks (s : State) :
    (s.skip).breaks = s.breaks := rfl
@[simp] theorem State.skip_history (s : State) :
    (s.skip).history = s.history := rfl
@[simp] theorem State.skip_draws (s : State) :
    (s.skip).draws = s.draws := rfl
@[simp] theorem State.skip_turns (s : State) :
    (s.skip).turns = s.turns := rfl

/-! `skipIf` -/

@[simp] theorem State.skipIf_ac (c : Bool) (s : State) :
    (s.skipIf c).ac = s.ac := by cases c <;> rfl
@[simp] theorem State.skipIf_io (c : Bool) (s : State) :
    (s.skipIf c).io = s.io := by cases c <;> rfl
@[simp] theorem State.skipIf_pc (c : Bool) (s : State) :
    (s.skipIf c).pc = if c then s.pc + 1#12 else s.pc := by cases c <;> rfl
@[simp] theorem State.skipIf_link (c : Bool) (s : State) :
    (s.skipIf c).link = s.link := by cases c <;> rfl
@[simp] theorem State.skipIf_ring (c : Bool) (s : State) :
    (s.skipIf c).ring = s.ring := by cases c <;> rfl
@[simp] theorem State.skipIf_pf (c : Bool) (s : State) :
    (s.skipIf c).pf = s.pf := by cases c <;> rfl
@[simp] theorem State.skipIf_rm (c : Bool) (s : State) :
    (s.skipIf c).rm = s.rm := by cases c <;> rfl
@[simp] theorem State.skipIf_prot (c : Bool) (s : State) :
    (s.skipIf c).prot = s.prot := by cases c <;> rfl
@[simp] theorem State.skipIf_names (c : Bool) (s : State) :
    (s.skipIf c).names = s.names := by cases c <;> rfl
@[simp] theorem State.skipIf_tb (c : Bool) (s : State) :
    (s.skipIf c).tb = s.tb := by cases c <;> rfl
@[simp] theorem State.skipIf_ckb (c : Bool) (s : State) :
    (s.skipIf c).ckb = s.ckb := by cases c <;> rfl
@[simp] theorem State.skipIf_mcur (c : Bool) (s : State) :
    (s.skipIf c).mcur = s.mcur := by cases c <;> rfl
@[simp] theorem State.skipIf_ma (c : Bool) (s : State) :
    (s.skipIf c).ma = s.ma := by cases c <;> rfl
@[simp] theorem State.skipIf_mb (c : Bool) (s : State) :
    (s.skipIf c).mb = s.mb := by cases c <;> rfl
@[simp] theorem State.skipIf_ld (c : Bool) (s : State) :
    (s.skipIf c).ld = s.ld := by cases c <;> rfl
@[simp] theorem State.skipIf_inc (c : Bool) (s : State) :
    (s.skipIf c).inc = s.inc := by cases c <;> rfl
@[simp] theorem State.skipIf_mem (c : Bool) (s : State) :
    (s.skipIf c).mem = s.mem := by cases c <;> rfl
@[simp] theorem State.skipIf_drum (c : Bool) (s : State) :
    (s.skipIf c).drum = s.drum := by cases c <;> rfl
@[simp] theorem State.skipIf_dcs (c : Bool) (s : State) :
    (s.skipIf c).dcs = s.dcs := by cases c <;> rfl
@[simp] theorem State.skipIf_display (c : Bool) (s : State) :
    (s.skipIf c).display = s.display := by cases c <;> rfl
@[simp] theorem State.skipIf_chargen (c : Bool) (s : State) :
    (s.skipIf c).chargen = s.chargen := by cases c <;> rfl
@[simp] theorem State.skipIf_remRand (c : Bool) (s : State) :
    (s.skipIf c).remRand = s.remRand := by cases c <;> rfl
@[simp] theorem State.skipIf_breaks (c : Bool) (s : State) :
    (s.skipIf c).breaks = s.breaks := by cases c <;> rfl
@[simp] theorem State.skipIf_history (c : Bool) (s : State) :
    (s.skipIf c).history = s.history := by cases c <;> rfl
@[simp] theorem State.skipIf_draws (c : Bool) (s : State) :
    (s.skipIf c).draws = s.draws := by cases c <;> rfl
@[simp] theorem State.skipIf_turns (c : Bool) (s : State) :
    (s.skipIf c).turns = s.turns := by cases c <;> rfl

/-! `advance` -/

@[simp] theorem State.advance_ac (s : State) :
    (s.advance).ac = s.ac := rfl
@[simp] theorem State.advance_io (s : State) :
    (s.advance).io = s.io := rfl
@[simp] theorem State.advance_pc (s : State) :
    (s.advance).pc = s.pc + 1#12 := rfl
@[simp] theorem State.advance_link (s : State) :
    (s.advance).link = s.link := rfl
@[simp] theorem State.advance_ring (s : State) :
    (s.advance).ring = s.ring := rfl
@[simp] theorem State.advance_pf (s : State) :
    (s.advance).pf = s.pf := rfl
@[simp] theorem State.advance_rm (s : State) :
    (s.advance).rm = s.rm := rfl
@[simp] theorem State.advance_prot (s : State) :
    (s.advance).prot = s.prot := rfl
@[simp] theorem State.advance_names (s : State) :
    (s.advance).names = s.names := rfl
@[simp] theorem State.advance_tb (s : State) :
    (s.advance).tb = s.tb := rfl
@[simp] theorem State.advance_ckb (s : State) :
    (s.advance).ckb = s.ckb := rfl
@[simp] theorem State.advance_mcur (s : State) :
    (s.advance).mcur = s.mcur := rfl
@[simp] theorem State.advance_ma (s : State) :
    (s.advance).ma = s.ma := rfl
@[simp] theorem State.advance_mb (s : State) :
    (s.advance).mb = s.mb := rfl
@[simp] theorem State.advance_ld (s : State) :
    (s.advance).ld = s.ld := rfl
@[simp] theorem State.advance_inc (s : State) :
    (s.advance).inc = s.inc := rfl
@[simp] theorem State.advance_mem (s : State) :
    (s.advance).mem = s.mem := rfl
@[simp] theorem State.advance_drum (s : State) :
    (s.advance).drum = s.drum := rfl
@[simp] theorem State.advance_dcs (s : State) :
    (s.advance).dcs = s.dcs := rfl
@[simp] theorem State.advance_display (s : State) :
    (s.advance).display = s.display := rfl
@[simp] theorem State.advance_chargen (s : State) :
    (s.advance).chargen = s.chargen := rfl
@[simp] theorem State.advance_remRand (s : State) :
    (s.advance).remRand = s.remRand := rfl
@[simp] theorem State.advance_breaks (s : State) :
    (s.advance).breaks = s.breaks := rfl
@[simp] theorem State.advance_history (s : State) :
    (s.advance).history = s.history := rfl
@[simp] theorem State.advance_draws (s : State) :
    (s.advance).draws = s.draws := rfl
@[simp] theorem State.advance_turns (s : State) :
    (s.advance).turns = s.turns := rfl

/-! `devOut` -/

@[simp] theorem State.devOut_ac (e : DevEvent) (s : State) :
    (s.devOut e).ac = s.ac := rfl
@[simp] theorem State.devOut_io (e : DevEvent) (s : State) :
    (s.devOut e).io = s.io := rfl
@[simp] theorem State.devOut_pc (e : DevEvent) (s : State) :
    (s.devOut e).pc = s.pc := rfl
@[simp] theorem State.devOut_link (e : DevEvent) (s : State) :
    (s.devOut e).link = s.link := rfl
@[simp] theorem State.devOut_ring (e : DevEvent) (s : State) :
    (s.devOut e).ring = s.ring := rfl
@[simp] theorem State.devOut_pf (e : DevEvent) (s : State) :
    (s.devOut e).pf = s.pf := rfl
@[simp] theorem State.devOut_rm (e : DevEvent) (s : State) :
    (s.devOut e).rm = s.rm := rfl
@[simp] theorem State.devOut_prot (e : DevEvent) (s : State) :
    (s.devOut e).prot = s.prot := rfl
@[simp] theorem State.devOut_names (e : DevEvent) (s : State) :
    (s.devOut e).names = s.names := rfl
@[simp] theorem State.devOut_tb (e : DevEvent) (s : State) :
    (s.devOut e).tb = s.tb := rfl
@[simp] theorem State.devOut_ckb (e : DevEvent) (s : State) :
    (s.devOut e).ckb = s.ckb := rfl
@[simp] theorem State.devOut_mcur (e : DevEvent) (s : State) :
    (s.devOut e).mcur = s.mcur := rfl
@[simp] theorem State.devOut_ma (e : DevEvent) (s : State) :
    (s.devOut e).ma = s.ma := rfl
@[simp] theorem State.devOut_mb (e : DevEvent) (s : State) :
    (s.devOut e).mb = s.mb := rfl
@[simp] theorem State.devOut_ld (e : DevEvent) (s : State) :
    (s.devOut e).ld = s.ld := rfl
@[simp] theorem State.devOut_inc (e : DevEvent) (s : State) :
    (s.devOut e).inc = s.inc := rfl
@[simp] theorem State.devOut_mem (e : DevEvent) (s : State) :
    (s.devOut e).mem = s.mem := rfl
@[simp] theorem State.devOut_drum (e : DevEvent) (s : State) :
    (s.devOut e).drum = s.drum := rfl
@[simp] theorem State.devOut_dcs (e : DevEvent) (s : State) :
    (s.devOut e).dcs = s.dcs := rfl
@[simp] theorem State.devOut_display (e : DevEvent) (s : State) :
    (s.devOut e).display = s.display := rfl
@[simp] theorem State.devOut_chargen (e : DevEvent) (s : State) :
    (s.devOut e).chargen = s.chargen := rfl
@[simp] theorem State.devOut_remRand (e : DevEvent) (s : State) :
    (s.devOut e).remRand = s.remRand := rfl
@[simp] theorem State.devOut_breaks (e : DevEvent) (s : State) :
    (s.devOut e).breaks = s.breaks := rfl
@[simp] theorem State.devOut_history (e : DevEvent) (s : State) :
    (s.devOut e).history = s.history ++ [e] := rfl
@[simp] theorem State.devOut_draws (e : DevEvent) (s : State) :
    (s.devOut e).draws = s.draws := rfl
@[simp] theorem State.devOut_turns (e : DevEvent) (s : State) :
    (s.devOut e).turns = s.turns := rfl

/-! `drawn` -/

@[simp] theorem State.drawn_ac (s : State) :
    (s.drawn).ac = s.ac := rfl
@[simp] theorem State.drawn_io (s : State) :
    (s.drawn).io = s.io := rfl
@[simp] theorem State.drawn_pc (s : State) :
    (s.drawn).pc = s.pc := rfl
@[simp] theorem State.drawn_link (s : State) :
    (s.drawn).link = s.link := rfl
@[simp] theorem State.drawn_ring (s : State) :
    (s.drawn).ring = s.ring := rfl
@[simp] theorem State.drawn_pf (s : State) :
    (s.drawn).pf = s.pf := rfl
@[simp] theorem State.drawn_rm (s : State) :
    (s.drawn).rm = s.rm := rfl
@[simp] theorem State.drawn_prot (s : State) :
    (s.drawn).prot = s.prot := rfl
@[simp] theorem State.drawn_names (s : State) :
    (s.drawn).names = s.names := rfl
@[simp] theorem State.drawn_tb (s : State) :
    (s.drawn).tb = s.tb := rfl
@[simp] theorem State.drawn_ckb (s : State) :
    (s.drawn).ckb = s.ckb := rfl
@[simp] theorem State.drawn_mcur (s : State) :
    (s.drawn).mcur = s.mcur := rfl
@[simp] theorem State.drawn_ma (s : State) :
    (s.drawn).ma = s.ma := rfl
@[simp] theorem State.drawn_mb (s : State) :
    (s.drawn).mb = s.mb := rfl
@[simp] theorem State.drawn_ld (s : State) :
    (s.drawn).ld = s.ld := rfl
@[simp] theorem State.drawn_inc (s : State) :
    (s.drawn).inc = s.inc := rfl
@[simp] theorem State.drawn_mem (s : State) :
    (s.drawn).mem = s.mem := rfl
@[simp] theorem State.drawn_drum (s : State) :
    (s.drawn).drum = s.drum := rfl
@[simp] theorem State.drawn_dcs (s : State) :
    (s.drawn).dcs = s.dcs := rfl
@[simp] theorem State.drawn_display (s : State) :
    (s.drawn).display = s.display := rfl
@[simp] theorem State.drawn_chargen (s : State) :
    (s.drawn).chargen = s.chargen := rfl
@[simp] theorem State.drawn_remRand (s : State) :
    (s.drawn).remRand = s.remRand := rfl
@[simp] theorem State.drawn_breaks (s : State) :
    (s.drawn).breaks = s.breaks := rfl
@[simp] theorem State.drawn_history (s : State) :
    (s.drawn).history = s.history := rfl
@[simp] theorem State.drawn_draws (s : State) :
    (s.drawn).draws = s.draws + 1 := rfl
@[simp] theorem State.drawn_turns (s : State) :
    (s.drawn).turns = s.turns := rfl

/-! `preClear` -/

@[simp] theorem State.preClear_ac (c : Bool) (s : State) :
    (s.preClear c).ac = s.ac := by cases c <;> rfl
@[simp] theorem State.preClear_io (c : Bool) (s : State) :
    (s.preClear c).io = if c then 0#18 else s.io := by cases c <;> rfl
@[simp] theorem State.preClear_pc (c : Bool) (s : State) :
    (s.preClear c).pc = s.pc := by cases c <;> rfl
@[simp] theorem State.preClear_link (c : Bool) (s : State) :
    (s.preClear c).link = s.link := by cases c <;> rfl
@[simp] theorem State.preClear_ring (c : Bool) (s : State) :
    (s.preClear c).ring = s.ring := by cases c <;> rfl
@[simp] theorem State.preClear_pf (c : Bool) (s : State) :
    (s.preClear c).pf = s.pf := by cases c <;> rfl
@[simp] theorem State.preClear_rm (c : Bool) (s : State) :
    (s.preClear c).rm = s.rm := by cases c <;> rfl
@[simp] theorem State.preClear_prot (c : Bool) (s : State) :
    (s.preClear c).prot = s.prot := by cases c <;> rfl
@[simp] theorem State.preClear_names (c : Bool) (s : State) :
    (s.preClear c).names = s.names := by cases c <;> rfl
@[simp] theorem State.preClear_tb (c : Bool) (s : State) :
    (s.preClear c).tb = s.tb := by cases c <;> rfl
@[simp] theorem State.preClear_ckb (c : Bool) (s : State) :
    (s.preClear c).ckb = s.ckb := by cases c <;> rfl
@[simp] theorem State.preClear_mcur (c : Bool) (s : State) :
    (s.preClear c).mcur = s.mcur := by cases c <;> rfl
@[simp] theorem State.preClear_ma (c : Bool) (s : State) :
    (s.preClear c).ma = s.ma := by cases c <;> rfl
@[simp] theorem State.preClear_mb (c : Bool) (s : State) :
    (s.preClear c).mb = s.mb := by cases c <;> rfl
@[simp] theorem State.preClear_ld (c : Bool) (s : State) :
    (s.preClear c).ld = s.ld := by cases c <;> rfl
@[simp] theorem State.preClear_inc (c : Bool) (s : State) :
    (s.preClear c).inc = s.inc := by cases c <;> rfl
@[simp] theorem State.preClear_mem (c : Bool) (s : State) :
    (s.preClear c).mem = s.mem := by cases c <;> rfl
@[simp] theorem State.preClear_drum (c : Bool) (s : State) :
    (s.preClear c).drum = s.drum := by cases c <;> rfl
@[simp] theorem State.preClear_dcs (c : Bool) (s : State) :
    (s.preClear c).dcs = s.dcs := by cases c <;> rfl
@[simp] theorem State.preClear_display (c : Bool) (s : State) :
    (s.preClear c).display = s.display := by cases c <;> rfl
@[simp] theorem State.preClear_chargen (c : Bool) (s : State) :
    (s.preClear c).chargen = s.chargen := by cases c <;> rfl
@[simp] theorem State.preClear_remRand (c : Bool) (s : State) :
    (s.preClear c).remRand = s.remRand := by cases c <;> rfl
@[simp] theorem State.preClear_breaks (c : Bool) (s : State) :
    (s.preClear c).breaks = s.breaks := by cases c <;> rfl
@[simp] theorem State.preClear_history (c : Bool) (s : State) :
    (s.preClear c).history = s.history := by cases c <;> rfl
@[simp] theorem State.preClear_draws (c : Bool) (s : State) :
    (s.preClear c).draws = s.draws := by cases c <;> rfl
@[simp] theorem State.preClear_turns (c : Bool) (s : State) :
    (s.preClear c).turns = s.turns := by cases c <;> rfl

/-! `drumInitial` -/

@[simp] theorem State.drumInitial_ac (s : State) :
    (s.drumInitial).ac = s.ac := rfl
@[simp] theorem State.drumInitial_io (s : State) :
    (s.drumInitial).io = s.io := rfl
@[simp] theorem State.drumInitial_pc (s : State) :
    (s.drumInitial).pc = s.pc := rfl
@[simp] theorem State.drumInitial_link (s : State) :
    (s.drumInitial).link = s.link := rfl
@[simp] theorem State.drumInitial_ring (s : State) :
    (s.drumInitial).ring = s.ring := rfl
@[simp] theorem State.drumInitial_pf (s : State) :
    (s.drumInitial).pf = s.pf := rfl
@[simp] theorem State.drumInitial_rm (s : State) :
    (s.drumInitial).rm = s.rm := rfl
@[simp] theorem State.drumInitial_prot (s : State) :
    (s.drumInitial).prot = s.prot := rfl
@[simp] theorem State.drumInitial_names (s : State) :
    (s.drumInitial).names = s.names := rfl
@[simp] theorem State.drumInitial_tb (s : State) :
    (s.drumInitial).tb = s.tb := rfl
@[simp] theorem State.drumInitial_ckb (s : State) :
    (s.drumInitial).ckb = s.ckb := rfl
@[simp] theorem State.drumInitial_mcur (s : State) :
    (s.drumInitial).mcur = s.mcur := rfl
@[simp] theorem State.drumInitial_ma (s : State) :
    (s.drumInitial).ma = s.ma := rfl
@[simp] theorem State.drumInitial_mb (s : State) :
    (s.drumInitial).mb = s.mb := rfl
@[simp] theorem State.drumInitial_ld (s : State) :
    (s.drumInitial).ld = s.ld := rfl
@[simp] theorem State.drumInitial_inc (s : State) :
    (s.drumInitial).inc = s.inc := rfl
@[simp] theorem State.drumInitial_mem (s : State) :
    (s.drumInitial).mem = s.mem := rfl
@[simp] theorem State.drumInitial_drum (s : State) :
    (s.drumInitial).drum = { s.drum.addressed s.io with go := false, sequence := .addressGiven } := rfl
@[simp] theorem State.drumInitial_dcs (s : State) :
    (s.drumInitial).dcs = s.dcs := rfl
@[simp] theorem State.drumInitial_display (s : State) :
    (s.drumInitial).display = s.display := rfl
@[simp] theorem State.drumInitial_chargen (s : State) :
    (s.drumInitial).chargen = s.chargen := rfl
@[simp] theorem State.drumInitial_remRand (s : State) :
    (s.drumInitial).remRand = s.remRand := rfl
@[simp] theorem State.drumInitial_breaks (s : State) :
    (s.drumInitial).breaks = s.breaks := rfl
@[simp] theorem State.drumInitial_history (s : State) :
    (s.drumInitial).history = s.history := rfl
@[simp] theorem State.drumInitial_draws (s : State) :
    (s.drumInitial).draws = s.draws := rfl
@[simp] theorem State.drumInitial_turns (s : State) :
    (s.drumInitial).turns = s.turns := rfl

/-! `drumBreak` -/

@[simp] theorem State.drumBreak_ac (s : State) :
    (s.drumBreak).ac = s.ac := rfl
@[simp] theorem State.drumBreak_io (s : State) :
    (s.drumBreak).io = s.io := rfl
@[simp] theorem State.drumBreak_pc (s : State) :
    (s.drumBreak).pc = s.pc := rfl
@[simp] theorem State.drumBreak_link (s : State) :
    (s.drumBreak).link = s.link := rfl
@[simp] theorem State.drumBreak_ring (s : State) :
    (s.drumBreak).ring = s.ring := rfl
@[simp] theorem State.drumBreak_pf (s : State) :
    (s.drumBreak).pf = s.pf := rfl
@[simp] theorem State.drumBreak_rm (s : State) :
    (s.drumBreak).rm = s.rm := rfl
@[simp] theorem State.drumBreak_prot (s : State) :
    (s.drumBreak).prot = s.prot := rfl
@[simp] theorem State.drumBreak_names (s : State) :
    (s.drumBreak).names = s.names := rfl
@[simp] theorem State.drumBreak_tb (s : State) :
    (s.drumBreak).tb = s.tb := rfl
@[simp] theorem State.drumBreak_ckb (s : State) :
    (s.drumBreak).ckb = s.ckb := rfl
@[simp] theorem State.drumBreak_mcur (s : State) :
    (s.drumBreak).mcur = s.mcur := rfl
@[simp] theorem State.drumBreak_ma (s : State) :
    (s.drumBreak).ma = s.ma := rfl
@[simp] theorem State.drumBreak_mb (s : State) :
    (s.drumBreak).mb = s.mb := rfl
@[simp] theorem State.drumBreak_ld (s : State) :
    (s.drumBreak).ld = s.ld := rfl
@[simp] theorem State.drumBreak_inc (s : State) :
    (s.drumBreak).inc = s.inc := rfl
@[simp] theorem State.drumBreak_mem (s : State) :
    (s.drumBreak).mem = s.mem := rfl
@[simp] theorem State.drumBreak_drum (s : State) :
    (s.drumBreak).drum =
      { s.drum.addressed s.io with
        breakArmed := true
        go := s.transferRunning
        sequence := s.drum.sequence.afterBreak s.transferRunning } := rfl
@[simp] theorem State.drumBreak_dcs (s : State) :
    (s.drumBreak).dcs = s.dcs := rfl
@[simp] theorem State.drumBreak_display (s : State) :
    (s.drumBreak).display = s.display := rfl
@[simp] theorem State.drumBreak_chargen (s : State) :
    (s.drumBreak).chargen = s.chargen := rfl
@[simp] theorem State.drumBreak_remRand (s : State) :
    (s.drumBreak).remRand = s.remRand := rfl
@[simp] theorem State.drumBreak_breaks (s : State) :
    (s.drumBreak).breaks = s.breaks := rfl
@[simp] theorem State.drumBreak_history (s : State) :
    (s.drumBreak).history = s.history := rfl
@[simp] theorem State.drumBreak_draws (s : State) :
    (s.drumBreak).draws = s.draws := rfl
@[simp] theorem State.drumBreak_turns (s : State) :
    (s.drumBreak).turns = s.turns := rfl

/-! `drumCount` -/

@[simp] theorem State.drumCount_ac (s : State) :
    (s.drumCount).ac = s.ac := rfl
@[simp] theorem State.drumCount_io (s : State) :
    (s.drumCount).io = s.io := rfl
@[simp] theorem State.drumCount_pc (s : State) :
    (s.drumCount).pc = s.pc := rfl
@[simp] theorem State.drumCount_link (s : State) :
    (s.drumCount).link = s.link := rfl
@[simp] theorem State.drumCount_ring (s : State) :
    (s.drumCount).ring = s.ring := rfl
@[simp] theorem State.drumCount_pf (s : State) :
    (s.drumCount).pf = s.pf := rfl
@[simp] theorem State.drumCount_rm (s : State) :
    (s.drumCount).rm = s.rm := rfl
@[simp] theorem State.drumCount_prot (s : State) :
    (s.drumCount).prot = s.prot := rfl
@[simp] theorem State.drumCount_names (s : State) :
    (s.drumCount).names = s.names := rfl
@[simp] theorem State.drumCount_tb (s : State) :
    (s.drumCount).tb = s.tb := rfl
@[simp] theorem State.drumCount_ckb (s : State) :
    (s.drumCount).ckb = s.ckb := rfl
@[simp] theorem State.drumCount_mcur (s : State) :
    (s.drumCount).mcur = s.mcur := rfl
@[simp] theorem State.drumCount_ma (s : State) :
    (s.drumCount).ma = s.ma := rfl
@[simp] theorem State.drumCount_mb (s : State) :
    (s.drumCount).mb = s.mb := rfl
@[simp] theorem State.drumCount_ld (s : State) :
    (s.drumCount).ld = s.ld := rfl
@[simp] theorem State.drumCount_inc (s : State) :
    (s.drumCount).inc = s.inc := rfl
@[simp] theorem State.drumCount_mem (s : State) :
    (s.drumCount).mem = s.mem := rfl
@[simp] theorem State.drumCount_drum (s : State) :
    (s.drumCount).drum =
      { s.drum with write := s.io.getMsbD 0, writeField := drumField s.io, wordCount := drumNumber s.io
                    sequence := .countGiven } := rfl
@[simp] theorem State.drumCount_dcs (s : State) :
    (s.drumCount).dcs = s.dcs := rfl
@[simp] theorem State.drumCount_display (s : State) :
    (s.drumCount).display = s.display := rfl
@[simp] theorem State.drumCount_chargen (s : State) :
    (s.drumCount).chargen = s.chargen := rfl
@[simp] theorem State.drumCount_remRand (s : State) :
    (s.drumCount).remRand = s.remRand := rfl
@[simp] theorem State.drumCount_breaks (s : State) :
    (s.drumCount).breaks = s.breaks := rfl
@[simp] theorem State.drumCount_history (s : State) :
    (s.drumCount).history = s.history := rfl
@[simp] theorem State.drumCount_draws (s : State) :
    (s.drumCount).draws = s.draws := rfl
@[simp] theorem State.drumCount_turns (s : State) :
    (s.drumCount).turns = s.turns := rfl

/-! `drumGo` -/

@[simp] theorem State.drumGo_ac (p : MemNo) (s : State) :
    (s.drumGo p).ac = s.ac := rfl
@[simp] theorem State.drumGo_io (p : MemNo) (s : State) :
    (s.drumGo p).io = s.io := rfl
@[simp] theorem State.drumGo_pc (p : MemNo) (s : State) :
    (s.drumGo p).pc = s.pc := rfl
@[simp] theorem State.drumGo_link (p : MemNo) (s : State) :
    (s.drumGo p).link = s.link := rfl
@[simp] theorem State.drumGo_ring (p : MemNo) (s : State) :
    (s.drumGo p).ring = s.ring := rfl
@[simp] theorem State.drumGo_pf (p : MemNo) (s : State) :
    (s.drumGo p).pf = s.pf := rfl
@[simp] theorem State.drumGo_rm (p : MemNo) (s : State) :
    (s.drumGo p).rm = s.rm := rfl
@[simp] theorem State.drumGo_prot (p : MemNo) (s : State) :
    (s.drumGo p).prot = s.prot := rfl
@[simp] theorem State.drumGo_names (p : MemNo) (s : State) :
    (s.drumGo p).names = s.names := rfl
@[simp] theorem State.drumGo_tb (p : MemNo) (s : State) :
    (s.drumGo p).tb = s.tb := rfl
@[simp] theorem State.drumGo_ckb (p : MemNo) (s : State) :
    (s.drumGo p).ckb = s.ckb := rfl
@[simp] theorem State.drumGo_mcur (p : MemNo) (s : State) :
    (s.drumGo p).mcur = s.mcur := rfl
@[simp] theorem State.drumGo_ma (p : MemNo) (s : State) :
    (s.drumGo p).ma = s.ma := rfl
@[simp] theorem State.drumGo_mb (p : MemNo) (s : State) :
    (s.drumGo p).mb = s.mb := rfl
@[simp] theorem State.drumGo_ld (p : MemNo) (s : State) :
    (s.drumGo p).ld = s.ld := rfl
@[simp] theorem State.drumGo_inc (p : MemNo) (s : State) :
    (s.drumGo p).inc = s.inc := rfl
@[simp] theorem State.drumGo_mem (p : MemNo) (s : State) :
    (s.drumGo p).mem =
      s.mem.filter fun cell => !(s.drumGo p).inDoubt (keyMemory cell.1) (keyAddr cell.1) := rfl
@[simp] theorem State.drumGo_drum (p : MemNo) (s : State) :
    (s.drumGo p).drum =
      { s.drum.located s.io with
        rewrites := s.drum.read, windows := (s.drum.located s.io).started p } := rfl
@[simp] theorem State.drumGo_dcs (p : MemNo) (s : State) :
    (s.drumGo p).dcs = s.dcs := rfl
@[simp] theorem State.drumGo_display (p : MemNo) (s : State) :
    (s.drumGo p).display = s.display := rfl
@[simp] theorem State.drumGo_chargen (p : MemNo) (s : State) :
    (s.drumGo p).chargen = s.chargen := rfl
@[simp] theorem State.drumGo_remRand (p : MemNo) (s : State) :
    (s.drumGo p).remRand = s.remRand := rfl
@[simp] theorem State.drumGo_breaks (p : MemNo) (s : State) :
    (s.drumGo p).breaks = s.breaks := rfl
@[simp] theorem State.drumGo_history (p : MemNo) (s : State) :
    (s.drumGo p).history = s.history := rfl
@[simp] theorem State.drumGo_draws (p : MemNo) (s : State) :
    (s.drumGo p).draws = s.draws := rfl
@[simp] theorem State.drumGo_turns (p : MemNo) (s : State) :
    (s.drumGo p).turns = s.turns := rfl

/-! `clearReceiverFlag` -/

@[simp] theorem State.clearReceiverFlag_ac (line : BitVec 6) (s : State) :
    (s.clearReceiverFlag line).ac = s.ac := rfl
@[simp] theorem State.clearReceiverFlag_io (line : BitVec 6) (s : State) :
    (s.clearReceiverFlag line).io = s.io := rfl
@[simp] theorem State.clearReceiverFlag_pc (line : BitVec 6) (s : State) :
    (s.clearReceiverFlag line).pc = s.pc := rfl
@[simp] theorem State.clearReceiverFlag_link (line : BitVec 6) (s : State) :
    (s.clearReceiverFlag line).link = s.link := rfl
@[simp] theorem State.clearReceiverFlag_ring (line : BitVec 6) (s : State) :
    (s.clearReceiverFlag line).ring = s.ring := rfl
@[simp] theorem State.clearReceiverFlag_pf (line : BitVec 6) (s : State) :
    (s.clearReceiverFlag line).pf = s.pf := rfl
@[simp] theorem State.clearReceiverFlag_rm (line : BitVec 6) (s : State) :
    (s.clearReceiverFlag line).rm = s.rm := rfl
@[simp] theorem State.clearReceiverFlag_prot (line : BitVec 6) (s : State) :
    (s.clearReceiverFlag line).prot = s.prot := rfl
@[simp] theorem State.clearReceiverFlag_names (line : BitVec 6) (s : State) :
    (s.clearReceiverFlag line).names = s.names := rfl
@[simp] theorem State.clearReceiverFlag_tb (line : BitVec 6) (s : State) :
    (s.clearReceiverFlag line).tb = s.tb := rfl
@[simp] theorem State.clearReceiverFlag_ckb (line : BitVec 6) (s : State) :
    (s.clearReceiverFlag line).ckb = s.ckb := rfl
@[simp] theorem State.clearReceiverFlag_mcur (line : BitVec 6) (s : State) :
    (s.clearReceiverFlag line).mcur = s.mcur := rfl
@[simp] theorem State.clearReceiverFlag_ma (line : BitVec 6) (s : State) :
    (s.clearReceiverFlag line).ma = s.ma := rfl
@[simp] theorem State.clearReceiverFlag_mb (line : BitVec 6) (s : State) :
    (s.clearReceiverFlag line).mb = s.mb := rfl
@[simp] theorem State.clearReceiverFlag_ld (line : BitVec 6) (s : State) :
    (s.clearReceiverFlag line).ld = s.ld := rfl
@[simp] theorem State.clearReceiverFlag_inc (line : BitVec 6) (s : State) :
    (s.clearReceiverFlag line).inc = s.inc := rfl
@[simp] theorem State.clearReceiverFlag_mem (line : BitVec 6) (s : State) :
    (s.clearReceiverFlag line).mem = s.mem := rfl
@[simp] theorem State.clearReceiverFlag_drum (line : BitVec 6) (s : State) :
    (s.clearReceiverFlag line).drum = s.drum := rfl
@[simp] theorem State.clearReceiverFlag_dcs (line : BitVec 6) (s : State) :
    (s.clearReceiverFlag line).dcs = { s.dcs with receiverFlags := withoutFlag line s.dcs.receiverFlags } := rfl
@[simp] theorem State.clearReceiverFlag_display (line : BitVec 6) (s : State) :
    (s.clearReceiverFlag line).display = s.display := rfl
@[simp] theorem State.clearReceiverFlag_chargen (line : BitVec 6) (s : State) :
    (s.clearReceiverFlag line).chargen = s.chargen := rfl
@[simp] theorem State.clearReceiverFlag_remRand (line : BitVec 6) (s : State) :
    (s.clearReceiverFlag line).remRand = s.remRand := rfl
@[simp] theorem State.clearReceiverFlag_breaks (line : BitVec 6) (s : State) :
    (s.clearReceiverFlag line).breaks = s.breaks := rfl
@[simp] theorem State.clearReceiverFlag_history (line : BitVec 6) (s : State) :
    (s.clearReceiverFlag line).history = s.history ++ [.dcsClearReceiverFlag] := rfl
@[simp] theorem State.clearReceiverFlag_draws (line : BitVec 6) (s : State) :
    (s.clearReceiverFlag line).draws = s.draws := rfl
@[simp] theorem State.clearReceiverFlag_turns (line : BitVec 6) (s : State) :
    (s.clearReceiverFlag line).turns = s.turns := rfl

/-! `clearScannerFlag` -/

@[simp] theorem State.clearScannerFlag_ac (s : State) :
    (s.clearScannerFlag).ac = s.ac := rfl
@[simp] theorem State.clearScannerFlag_io (s : State) :
    (s.clearScannerFlag).io = s.io := rfl
@[simp] theorem State.clearScannerFlag_pc (s : State) :
    (s.clearScannerFlag).pc = s.pc := rfl
@[simp] theorem State.clearScannerFlag_link (s : State) :
    (s.clearScannerFlag).link = s.link := rfl
@[simp] theorem State.clearScannerFlag_ring (s : State) :
    (s.clearScannerFlag).ring = s.ring := rfl
@[simp] theorem State.clearScannerFlag_pf (s : State) :
    (s.clearScannerFlag).pf = s.pf := rfl
@[simp] theorem State.clearScannerFlag_rm (s : State) :
    (s.clearScannerFlag).rm = s.rm := rfl
@[simp] theorem State.clearScannerFlag_prot (s : State) :
    (s.clearScannerFlag).prot = s.prot := rfl
@[simp] theorem State.clearScannerFlag_names (s : State) :
    (s.clearScannerFlag).names = s.names := rfl
@[simp] theorem State.clearScannerFlag_tb (s : State) :
    (s.clearScannerFlag).tb = s.tb := rfl
@[simp] theorem State.clearScannerFlag_ckb (s : State) :
    (s.clearScannerFlag).ckb = s.ckb := rfl
@[simp] theorem State.clearScannerFlag_mcur (s : State) :
    (s.clearScannerFlag).mcur = s.mcur := rfl
@[simp] theorem State.clearScannerFlag_ma (s : State) :
    (s.clearScannerFlag).ma = s.ma := rfl
@[simp] theorem State.clearScannerFlag_mb (s : State) :
    (s.clearScannerFlag).mb = s.mb := rfl
@[simp] theorem State.clearScannerFlag_ld (s : State) :
    (s.clearScannerFlag).ld = s.ld := rfl
@[simp] theorem State.clearScannerFlag_inc (s : State) :
    (s.clearScannerFlag).inc = s.inc := rfl
@[simp] theorem State.clearScannerFlag_mem (s : State) :
    (s.clearScannerFlag).mem = s.mem := rfl
@[simp] theorem State.clearScannerFlag_drum (s : State) :
    (s.clearScannerFlag).drum = s.drum := rfl
@[simp] theorem State.clearScannerFlag_dcs (s : State) :
    (s.clearScannerFlag).dcs = { s.dcs with scannerFlag := false } := rfl
@[simp] theorem State.clearScannerFlag_display (s : State) :
    (s.clearScannerFlag).display = s.display := rfl
@[simp] theorem State.clearScannerFlag_chargen (s : State) :
    (s.clearScannerFlag).chargen = s.chargen := rfl
@[simp] theorem State.clearScannerFlag_remRand (s : State) :
    (s.clearScannerFlag).remRand = s.remRand := rfl
@[simp] theorem State.clearScannerFlag_breaks (s : State) :
    (s.clearScannerFlag).breaks = s.breaks := rfl
@[simp] theorem State.clearScannerFlag_history (s : State) :
    (s.clearScannerFlag).history = s.history ++ [.dcsClearScannerFlag] := rfl
@[simp] theorem State.clearScannerFlag_draws (s : State) :
    (s.clearScannerFlag).draws = s.draws := rfl
@[simp] theorem State.clearScannerFlag_turns (s : State) :
    (s.clearScannerFlag).turns = s.turns := rfl

/-! `receive` -/

@[simp] theorem State.receive_ac (s : State) :
    (s.receive).ac = s.ac := rfl
@[simp] theorem State.receive_io (s : State) :
    (s.receive).io = s.io ||| dcsCharacterIn (Config.dcsCharacter s.draws) := rfl
@[simp] theorem State.receive_pc (s : State) :
    (s.receive).pc = s.pc := rfl
@[simp] theorem State.receive_link (s : State) :
    (s.receive).link = s.link := rfl
@[simp] theorem State.receive_ring (s : State) :
    (s.receive).ring = s.ring := rfl
@[simp] theorem State.receive_pf (s : State) :
    (s.receive).pf = s.pf := rfl
@[simp] theorem State.receive_rm (s : State) :
    (s.receive).rm = s.rm := rfl
@[simp] theorem State.receive_prot (s : State) :
    (s.receive).prot = s.prot := rfl
@[simp] theorem State.receive_names (s : State) :
    (s.receive).names = s.names := rfl
@[simp] theorem State.receive_tb (s : State) :
    (s.receive).tb = s.tb := rfl
@[simp] theorem State.receive_ckb (s : State) :
    (s.receive).ckb = s.ckb := rfl
@[simp] theorem State.receive_mcur (s : State) :
    (s.receive).mcur = s.mcur := rfl
@[simp] theorem State.receive_ma (s : State) :
    (s.receive).ma = s.ma := rfl
@[simp] theorem State.receive_mb (s : State) :
    (s.receive).mb = s.mb := rfl
@[simp] theorem State.receive_ld (s : State) :
    (s.receive).ld = s.ld := rfl
@[simp] theorem State.receive_inc (s : State) :
    (s.receive).inc = s.inc := rfl
@[simp] theorem State.receive_mem (s : State) :
    (s.receive).mem = s.mem := rfl
@[simp] theorem State.receive_drum (s : State) :
    (s.receive).drum = s.drum := rfl
@[simp] theorem State.receive_dcs (s : State) :
    (s.receive).dcs = { s.dcs with receiverCounter := Config.receiverCounter s.draws, receiverFlags := withoutFlag (Config.receiverCounter s.draws) s.dcs.receiverFlags } := rfl
@[simp] theorem State.receive_display (s : State) :
    (s.receive).display = s.display := rfl
@[simp] theorem State.receive_chargen (s : State) :
    (s.receive).chargen = s.chargen := rfl
@[simp] theorem State.receive_remRand (s : State) :
    (s.receive).remRand = s.remRand := rfl
@[simp] theorem State.receive_breaks (s : State) :
    (s.receive).breaks = s.breaks := rfl
@[simp] theorem State.receive_history (s : State) :
    (s.receive).history = s.history ++ [.dcsClearReceiverFlag] := rfl
@[simp] theorem State.receive_draws (s : State) :
    (s.receive).draws = s.draws + 1 := rfl
@[simp] theorem State.receive_turns (s : State) :
    (s.receive).turns = s.turns := rfl

/-! `transmitByReceiverCounter` -/

@[simp] theorem State.transmitByReceiverCounter_ac (s : State) :
    (s.transmitByReceiverCounter).ac = s.ac := rfl
@[simp] theorem State.transmitByReceiverCounter_io (s : State) :
    (s.transmitByReceiverCounter).io = s.io := rfl
@[simp] theorem State.transmitByReceiverCounter_pc (s : State) :
    (s.transmitByReceiverCounter).pc = s.pc := rfl
@[simp] theorem State.transmitByReceiverCounter_link (s : State) :
    (s.transmitByReceiverCounter).link = s.link := rfl
@[simp] theorem State.transmitByReceiverCounter_ring (s : State) :
    (s.transmitByReceiverCounter).ring = s.ring := rfl
@[simp] theorem State.transmitByReceiverCounter_pf (s : State) :
    (s.transmitByReceiverCounter).pf = s.pf := rfl
@[simp] theorem State.transmitByReceiverCounter_rm (s : State) :
    (s.transmitByReceiverCounter).rm = s.rm := rfl
@[simp] theorem State.transmitByReceiverCounter_prot (s : State) :
    (s.transmitByReceiverCounter).prot = s.prot := rfl
@[simp] theorem State.transmitByReceiverCounter_names (s : State) :
    (s.transmitByReceiverCounter).names = s.names := rfl
@[simp] theorem State.transmitByReceiverCounter_tb (s : State) :
    (s.transmitByReceiverCounter).tb = s.tb := rfl
@[simp] theorem State.transmitByReceiverCounter_ckb (s : State) :
    (s.transmitByReceiverCounter).ckb = s.ckb := rfl
@[simp] theorem State.transmitByReceiverCounter_mcur (s : State) :
    (s.transmitByReceiverCounter).mcur = s.mcur := rfl
@[simp] theorem State.transmitByReceiverCounter_ma (s : State) :
    (s.transmitByReceiverCounter).ma = s.ma := rfl
@[simp] theorem State.transmitByReceiverCounter_mb (s : State) :
    (s.transmitByReceiverCounter).mb = s.mb := rfl
@[simp] theorem State.transmitByReceiverCounter_ld (s : State) :
    (s.transmitByReceiverCounter).ld = s.ld := rfl
@[simp] theorem State.transmitByReceiverCounter_inc (s : State) :
    (s.transmitByReceiverCounter).inc = s.inc := rfl
@[simp] theorem State.transmitByReceiverCounter_mem (s : State) :
    (s.transmitByReceiverCounter).mem = s.mem := rfl
@[simp] theorem State.transmitByReceiverCounter_drum (s : State) :
    (s.transmitByReceiverCounter).drum = s.drum := rfl
@[simp] theorem State.transmitByReceiverCounter_dcs (s : State) :
    (s.transmitByReceiverCounter).dcs = { s.dcs with receiverCounter := Config.receiverCounter s.draws, receiverFlags := withoutFlag (Config.receiverCounter s.draws) s.dcs.receiverFlags, scannerFlag := false } := rfl
@[simp] theorem State.transmitByReceiverCounter_display (s : State) :
    (s.transmitByReceiverCounter).display = s.display := rfl
@[simp] theorem State.transmitByReceiverCounter_chargen (s : State) :
    (s.transmitByReceiverCounter).chargen = s.chargen := rfl
@[simp] theorem State.transmitByReceiverCounter_remRand (s : State) :
    (s.transmitByReceiverCounter).remRand = s.remRand := rfl
@[simp] theorem State.transmitByReceiverCounter_breaks (s : State) :
    (s.transmitByReceiverCounter).breaks = s.breaks := rfl
@[simp] theorem State.transmitByReceiverCounter_history (s : State) :
    (s.transmitByReceiverCounter).history = s.history ++
      [.dcsTransmitByReceiverCounter (dcsCharacterOf s.io), .dcsClearReceiverFlag, .dcsClearScannerFlag] := rfl
@[simp] theorem State.transmitByReceiverCounter_draws (s : State) :
    (s.transmitByReceiverCounter).draws = s.draws + 1 := rfl
@[simp] theorem State.transmitByReceiverCounter_turns (s : State) :
    (s.transmitByReceiverCounter).turns = s.turns := rfl

/-! `transmitBySendBuffer` -/

@[simp] theorem State.transmitBySendBuffer_ac (s : State) :
    (s.transmitBySendBuffer).ac = s.ac := rfl
@[simp] theorem State.transmitBySendBuffer_io (s : State) :
    (s.transmitBySendBuffer).io = s.io := rfl
@[simp] theorem State.transmitBySendBuffer_pc (s : State) :
    (s.transmitBySendBuffer).pc = s.pc := rfl
@[simp] theorem State.transmitBySendBuffer_link (s : State) :
    (s.transmitBySendBuffer).link = s.link := rfl
@[simp] theorem State.transmitBySendBuffer_ring (s : State) :
    (s.transmitBySendBuffer).ring = s.ring := rfl
@[simp] theorem State.transmitBySendBuffer_pf (s : State) :
    (s.transmitBySendBuffer).pf = s.pf := rfl
@[simp] theorem State.transmitBySendBuffer_rm (s : State) :
    (s.transmitBySendBuffer).rm = s.rm := rfl
@[simp] theorem State.transmitBySendBuffer_prot (s : State) :
    (s.transmitBySendBuffer).prot = s.prot := rfl
@[simp] theorem State.transmitBySendBuffer_names (s : State) :
    (s.transmitBySendBuffer).names = s.names := rfl
@[simp] theorem State.transmitBySendBuffer_tb (s : State) :
    (s.transmitBySendBuffer).tb = s.tb := rfl
@[simp] theorem State.transmitBySendBuffer_ckb (s : State) :
    (s.transmitBySendBuffer).ckb = s.ckb := rfl
@[simp] theorem State.transmitBySendBuffer_mcur (s : State) :
    (s.transmitBySendBuffer).mcur = s.mcur := rfl
@[simp] theorem State.transmitBySendBuffer_ma (s : State) :
    (s.transmitBySendBuffer).ma = s.ma := rfl
@[simp] theorem State.transmitBySendBuffer_mb (s : State) :
    (s.transmitBySendBuffer).mb = s.mb := rfl
@[simp] theorem State.transmitBySendBuffer_ld (s : State) :
    (s.transmitBySendBuffer).ld = s.ld := rfl
@[simp] theorem State.transmitBySendBuffer_inc (s : State) :
    (s.transmitBySendBuffer).inc = s.inc := rfl
@[simp] theorem State.transmitBySendBuffer_mem (s : State) :
    (s.transmitBySendBuffer).mem = s.mem := rfl
@[simp] theorem State.transmitBySendBuffer_drum (s : State) :
    (s.transmitBySendBuffer).drum = s.drum := rfl
@[simp] theorem State.transmitBySendBuffer_dcs (s : State) :
    (s.transmitBySendBuffer).dcs = { s.dcs with receiverFlags := withoutFlag s.dcs.sendBuffer s.dcs.receiverFlags } := rfl
@[simp] theorem State.transmitBySendBuffer_display (s : State) :
    (s.transmitBySendBuffer).display = s.display := rfl
@[simp] theorem State.transmitBySendBuffer_chargen (s : State) :
    (s.transmitBySendBuffer).chargen = s.chargen := rfl
@[simp] theorem State.transmitBySendBuffer_remRand (s : State) :
    (s.transmitBySendBuffer).remRand = s.remRand := rfl
@[simp] theorem State.transmitBySendBuffer_breaks (s : State) :
    (s.transmitBySendBuffer).breaks = s.breaks := rfl
@[simp] theorem State.transmitBySendBuffer_history (s : State) :
    (s.transmitBySendBuffer).history = s.history ++ [.dcsTransmitBySendBuffer (dcsCharacterOf s.io)] ++ [.dcsClearReceiverFlag] := rfl
@[simp] theorem State.transmitBySendBuffer_draws (s : State) :
    (s.transmitBySendBuffer).draws = s.draws := rfl
@[simp] theorem State.transmitBySendBuffer_turns (s : State) :
    (s.transmitBySendBuffer).turns = s.turns := rfl

/-! `readReceiverCounter` -/

@[simp] theorem State.readReceiverCounter_ac (s : State) :
    (s.readReceiverCounter).ac = s.ac := rfl
@[simp] theorem State.readReceiverCounter_io (s : State) :
    (s.readReceiverCounter).io = s.io ||| (Config.receiverCounter s.draws).setWidth 18 := rfl
@[simp] theorem State.readReceiverCounter_pc (s : State) :
    (s.readReceiverCounter).pc = s.pc := rfl
@[simp] theorem State.readReceiverCounter_link (s : State) :
    (s.readReceiverCounter).link = s.link := rfl
@[simp] theorem State.readReceiverCounter_ring (s : State) :
    (s.readReceiverCounter).ring = s.ring := rfl
@[simp] theorem State.readReceiverCounter_pf (s : State) :
    (s.readReceiverCounter).pf = s.pf := rfl
@[simp] theorem State.readReceiverCounter_rm (s : State) :
    (s.readReceiverCounter).rm = s.rm := rfl
@[simp] theorem State.readReceiverCounter_prot (s : State) :
    (s.readReceiverCounter).prot = s.prot := rfl
@[simp] theorem State.readReceiverCounter_names (s : State) :
    (s.readReceiverCounter).names = s.names := rfl
@[simp] theorem State.readReceiverCounter_tb (s : State) :
    (s.readReceiverCounter).tb = s.tb := rfl
@[simp] theorem State.readReceiverCounter_ckb (s : State) :
    (s.readReceiverCounter).ckb = s.ckb := rfl
@[simp] theorem State.readReceiverCounter_mcur (s : State) :
    (s.readReceiverCounter).mcur = s.mcur := rfl
@[simp] theorem State.readReceiverCounter_ma (s : State) :
    (s.readReceiverCounter).ma = s.ma := rfl
@[simp] theorem State.readReceiverCounter_mb (s : State) :
    (s.readReceiverCounter).mb = s.mb := rfl
@[simp] theorem State.readReceiverCounter_ld (s : State) :
    (s.readReceiverCounter).ld = s.ld := rfl
@[simp] theorem State.readReceiverCounter_inc (s : State) :
    (s.readReceiverCounter).inc = s.inc := rfl
@[simp] theorem State.readReceiverCounter_mem (s : State) :
    (s.readReceiverCounter).mem = s.mem := rfl
@[simp] theorem State.readReceiverCounter_drum (s : State) :
    (s.readReceiverCounter).drum = s.drum := rfl
@[simp] theorem State.readReceiverCounter_dcs (s : State) :
    (s.readReceiverCounter).dcs = { s.dcs with receiverCounter := Config.receiverCounter s.draws } := rfl
@[simp] theorem State.readReceiverCounter_display (s : State) :
    (s.readReceiverCounter).display = s.display := rfl
@[simp] theorem State.readReceiverCounter_chargen (s : State) :
    (s.readReceiverCounter).chargen = s.chargen := rfl
@[simp] theorem State.readReceiverCounter_remRand (s : State) :
    (s.readReceiverCounter).remRand = s.remRand := rfl
@[simp] theorem State.readReceiverCounter_breaks (s : State) :
    (s.readReceiverCounter).breaks = s.breaks := rfl
@[simp] theorem State.readReceiverCounter_history (s : State) :
    (s.readReceiverCounter).history = s.history := rfl
@[simp] theorem State.readReceiverCounter_draws (s : State) :
    (s.readReceiverCounter).draws = s.draws + 1 := rfl
@[simp] theorem State.readReceiverCounter_turns (s : State) :
    (s.readReceiverCounter).turns = s.turns := rfl

/-! `setSendBuffer` -/

@[simp] theorem State.setSendBuffer_ac (s : State) :
    (s.setSendBuffer).ac = s.ac := rfl
@[simp] theorem State.setSendBuffer_io (s : State) :
    (s.setSendBuffer).io = s.io := rfl
@[simp] theorem State.setSendBuffer_pc (s : State) :
    (s.setSendBuffer).pc = s.pc := rfl
@[simp] theorem State.setSendBuffer_link (s : State) :
    (s.setSendBuffer).link = s.link := rfl
@[simp] theorem State.setSendBuffer_ring (s : State) :
    (s.setSendBuffer).ring = s.ring := rfl
@[simp] theorem State.setSendBuffer_pf (s : State) :
    (s.setSendBuffer).pf = s.pf := rfl
@[simp] theorem State.setSendBuffer_rm (s : State) :
    (s.setSendBuffer).rm = s.rm := rfl
@[simp] theorem State.setSendBuffer_prot (s : State) :
    (s.setSendBuffer).prot = s.prot := rfl
@[simp] theorem State.setSendBuffer_names (s : State) :
    (s.setSendBuffer).names = s.names := rfl
@[simp] theorem State.setSendBuffer_tb (s : State) :
    (s.setSendBuffer).tb = s.tb := rfl
@[simp] theorem State.setSendBuffer_ckb (s : State) :
    (s.setSendBuffer).ckb = s.ckb := rfl
@[simp] theorem State.setSendBuffer_mcur (s : State) :
    (s.setSendBuffer).mcur = s.mcur := rfl
@[simp] theorem State.setSendBuffer_ma (s : State) :
    (s.setSendBuffer).ma = s.ma := rfl
@[simp] theorem State.setSendBuffer_mb (s : State) :
    (s.setSendBuffer).mb = s.mb := rfl
@[simp] theorem State.setSendBuffer_ld (s : State) :
    (s.setSendBuffer).ld = s.ld := rfl
@[simp] theorem State.setSendBuffer_inc (s : State) :
    (s.setSendBuffer).inc = s.inc := rfl
@[simp] theorem State.setSendBuffer_mem (s : State) :
    (s.setSendBuffer).mem = s.mem := rfl
@[simp] theorem State.setSendBuffer_drum (s : State) :
    (s.setSendBuffer).drum = s.drum := rfl
@[simp] theorem State.setSendBuffer_dcs (s : State) :
    (s.setSendBuffer).dcs = { s.dcs with sendBuffer := lowSix s.io } := rfl
@[simp] theorem State.setSendBuffer_display (s : State) :
    (s.setSendBuffer).display = s.display := rfl
@[simp] theorem State.setSendBuffer_chargen (s : State) :
    (s.setSendBuffer).chargen = s.chargen := rfl
@[simp] theorem State.setSendBuffer_remRand (s : State) :
    (s.setSendBuffer).remRand = s.remRand := rfl
@[simp] theorem State.setSendBuffer_breaks (s : State) :
    (s.setSendBuffer).breaks = s.breaks := rfl
@[simp] theorem State.setSendBuffer_history (s : State) :
    (s.setSendBuffer).history = s.history ++ [.dcsSsb (lowSix s.io)] := rfl
@[simp] theorem State.setSendBuffer_draws (s : State) :
    (s.setSendBuffer).draws = s.draws := rfl
@[simp] theorem State.setSendBuffer_turns (s : State) :
    (s.setSendBuffer).turns = s.turns := rfl

/-! `eventOne` -/

@[simp] theorem eventOne_ac (a : SpcActs) (s : State) :
    (eventOne a s).ac = s.ac := by
  obtain ⟨_, _, _, _, _, sci, scf, _, cll, _⟩ := a
  cases sci <;> cases scf <;> cases cll <;> rfl
@[simp] theorem eventOne_io (a : SpcActs) (s : State) :
    (eventOne a s).io = if a.sci then 0#18 else s.io := by
  obtain ⟨_, _, _, _, _, sci, scf, _, cll, _⟩ := a
  cases sci <;> cases scf <;> cases cll <;> rfl
@[simp] theorem eventOne_pc (a : SpcActs) (s : State) :
    (eventOne a s).pc = s.pc := by
  obtain ⟨_, _, _, _, _, sci, scf, _, cll, _⟩ := a
  cases sci <;> cases scf <;> cases cll <;> rfl
@[simp] theorem eventOne_link (a : SpcActs) (s : State) :
    (eventOne a s).link = if a.scf || a.cll then false else s.link := by
  obtain ⟨_, _, _, _, _, sci, scf, _, cll, _⟩ := a
  cases sci <;> cases scf <;> cases cll <;> rfl
@[simp] theorem eventOne_ring (a : SpcActs) (s : State) :
    (eventOne a s).ring = if a.scf then false else s.ring := by
  obtain ⟨_, _, _, _, _, sci, scf, _, cll, _⟩ := a
  cases sci <;> cases scf <;> cases cll <;> rfl
@[simp] theorem eventOne_pf (a : SpcActs) (s : State) :
    (eventOne a s).pf = if a.scf then 0#6 else s.pf := by
  obtain ⟨_, _, _, _, _, sci, scf, _, cll, _⟩ := a
  cases sci <;> cases scf <;> cases cll <;> rfl
@[simp] theorem eventOne_rm (a : SpcActs) (s : State) :
    (eventOne a s).rm = s.rm := by
  obtain ⟨_, _, _, _, _, sci, scf, _, cll, _⟩ := a
  cases sci <;> cases scf <;> cases cll <;> rfl
@[simp] theorem eventOne_prot (a : SpcActs) (s : State) :
    (eventOne a s).prot = s.prot := by
  obtain ⟨_, _, _, _, _, sci, scf, _, cll, _⟩ := a
  cases sci <;> cases scf <;> cases cll <;> rfl
@[simp] theorem eventOne_names (a : SpcActs) (s : State) :
    (eventOne a s).names = s.names := by
  obtain ⟨_, _, _, _, _, sci, scf, _, cll, _⟩ := a
  cases sci <;> cases scf <;> cases cll <;> rfl
@[simp] theorem eventOne_tb (a : SpcActs) (s : State) :
    (eventOne a s).tb = s.tb := by
  obtain ⟨_, _, _, _, _, sci, scf, _, cll, _⟩ := a
  cases sci <;> cases scf <;> cases cll <;> rfl
@[simp] theorem eventOne_ckb (a : SpcActs) (s : State) :
    (eventOne a s).ckb = s.ckb := by
  obtain ⟨_, _, _, _, _, sci, scf, _, cll, _⟩ := a
  cases sci <;> cases scf <;> cases cll <;> rfl
@[simp] theorem eventOne_mcur (a : SpcActs) (s : State) :
    (eventOne a s).mcur = s.mcur := by
  obtain ⟨_, _, _, _, _, sci, scf, _, cll, _⟩ := a
  cases sci <;> cases scf <;> cases cll <;> rfl
@[simp] theorem eventOne_ma (a : SpcActs) (s : State) :
    (eventOne a s).ma = s.ma := by
  obtain ⟨_, _, _, _, _, sci, scf, _, cll, _⟩ := a
  cases sci <;> cases scf <;> cases cll <;> rfl
@[simp] theorem eventOne_mb (a : SpcActs) (s : State) :
    (eventOne a s).mb = s.mb := by
  obtain ⟨_, _, _, _, _, sci, scf, _, cll, _⟩ := a
  cases sci <;> cases scf <;> cases cll <;> rfl
@[simp] theorem eventOne_ld (a : SpcActs) (s : State) :
    (eventOne a s).ld = s.ld := by
  obtain ⟨_, _, _, _, _, sci, scf, _, cll, _⟩ := a
  cases sci <;> cases scf <;> cases cll <;> rfl
@[simp] theorem eventOne_inc (a : SpcActs) (s : State) :
    (eventOne a s).inc = s.inc := by
  obtain ⟨_, _, _, _, _, sci, scf, _, cll, _⟩ := a
  cases sci <;> cases scf <;> cases cll <;> rfl
@[simp] theorem eventOne_mem (a : SpcActs) (s : State) :
    (eventOne a s).mem = s.mem := by
  obtain ⟨_, _, _, _, _, sci, scf, _, cll, _⟩ := a
  cases sci <;> cases scf <;> cases cll <;> rfl
@[simp] theorem eventOne_drum (a : SpcActs) (s : State) :
    (eventOne a s).drum = s.drum := by
  obtain ⟨_, _, _, _, _, sci, scf, _, cll, _⟩ := a
  cases sci <;> cases scf <;> cases cll <;> rfl
@[simp] theorem eventOne_dcs (a : SpcActs) (s : State) :
    (eventOne a s).dcs = s.dcs := by
  obtain ⟨_, _, _, _, _, sci, scf, _, cll, _⟩ := a
  cases sci <;> cases scf <;> cases cll <;> rfl
@[simp] theorem eventOne_display (a : SpcActs) (s : State) :
    (eventOne a s).display = s.display := by
  obtain ⟨_, _, _, _, _, sci, scf, _, cll, _⟩ := a
  cases sci <;> cases scf <;> cases cll <;> rfl
@[simp] theorem eventOne_chargen (a : SpcActs) (s : State) :
    (eventOne a s).chargen = s.chargen := by
  obtain ⟨_, _, _, _, _, sci, scf, _, cll, _⟩ := a
  cases sci <;> cases scf <;> cases cll <;> rfl
@[simp] theorem eventOne_remRand (a : SpcActs) (s : State) :
    (eventOne a s).remRand = s.remRand := by
  obtain ⟨_, _, _, _, _, sci, scf, _, cll, _⟩ := a
  cases sci <;> cases scf <;> cases cll <;> rfl
@[simp] theorem eventOne_breaks (a : SpcActs) (s : State) :
    (eventOne a s).breaks = s.breaks := by
  obtain ⟨_, _, _, _, _, sci, scf, _, cll, _⟩ := a
  cases sci <;> cases scf <;> cases cll <;> rfl
@[simp] theorem eventOne_history (a : SpcActs) (s : State) :
    (eventOne a s).history = s.history := by
  obtain ⟨_, _, _, _, _, sci, scf, _, cll, _⟩ := a
  cases sci <;> cases scf <;> cases cll <;> rfl
@[simp] theorem eventOne_draws (a : SpcActs) (s : State) :
    (eventOne a s).draws = s.draws := by
  obtain ⟨_, _, _, _, _, sci, scf, _, cll, _⟩ := a
  cases sci <;> cases scf <;> cases cll <;> rfl
@[simp] theorem eventOne_turns (a : SpcActs) (s : State) :
    (eventOne a s).turns = s.turns := by
  obtain ⟨_, _, _, _, _, sci, scf, _, cll, _⟩ := a
  cases sci <;> cases scf <;> cases cll <;> rfl

/-! `eventTwo` -/

@[simp] theorem eventTwo_ac (a : SpcActs) (s : State) :
    (eventTwo a s).ac = if a.scm then specialComplement s.ac s.link else s.ac := rfl
@[simp] theorem eventTwo_io (a : SpcActs) (s : State) :
    (eventTwo a s).io = if a.iif then s.io ||| s.flags8.setWidth 18 else s.io := rfl
@[simp] theorem eventTwo_pc (a : SpcActs) (s : State) :
    (eventTwo a s).pc = s.pc := rfl
@[simp] theorem eventTwo_link (a : SpcActs) (s : State) :
    (eventTwo a s).link = (if a.ifi then s.flags8 ||| lowEight s.io else s.flags8).getMsbD 0 := rfl
@[simp] theorem eventTwo_ring (a : SpcActs) (s : State) :
    (eventTwo a s).ring = (if a.ifi then s.flags8 ||| lowEight s.io else s.flags8).getMsbD 1 := rfl
@[simp] theorem eventTwo_pf (a : SpcActs) (s : State) :
    (eventTwo a s).pf = (if a.ifi then s.flags8 ||| lowEight s.io else s.flags8).extractLsb' 0 6 := rfl
@[simp] theorem eventTwo_rm (a : SpcActs) (s : State) :
    (eventTwo a s).rm = s.rm := rfl
@[simp] theorem eventTwo_prot (a : SpcActs) (s : State) :
    (eventTwo a s).prot = s.prot := rfl
@[simp] theorem eventTwo_names (a : SpcActs) (s : State) :
    (eventTwo a s).names = s.names := rfl
@[simp] theorem eventTwo_tb (a : SpcActs) (s : State) :
    (eventTwo a s).tb = s.tb := rfl
@[simp] theorem eventTwo_ckb (a : SpcActs) (s : State) :
    (eventTwo a s).ckb = s.ckb := rfl
@[simp] theorem eventTwo_mcur (a : SpcActs) (s : State) :
    (eventTwo a s).mcur = s.mcur := rfl
@[simp] theorem eventTwo_ma (a : SpcActs) (s : State) :
    (eventTwo a s).ma = s.ma := rfl
@[simp] theorem eventTwo_mb (a : SpcActs) (s : State) :
    (eventTwo a s).mb = s.mb := rfl
@[simp] theorem eventTwo_ld (a : SpcActs) (s : State) :
    (eventTwo a s).ld = s.ld := rfl
@[simp] theorem eventTwo_inc (a : SpcActs) (s : State) :
    (eventTwo a s).inc = s.inc := rfl
@[simp] theorem eventTwo_mem (a : SpcActs) (s : State) :
    (eventTwo a s).mem = s.mem := rfl
@[simp] theorem eventTwo_drum (a : SpcActs) (s : State) :
    (eventTwo a s).drum = s.drum := rfl
@[simp] theorem eventTwo_dcs (a : SpcActs) (s : State) :
    (eventTwo a s).dcs = s.dcs := rfl
@[simp] theorem eventTwo_display (a : SpcActs) (s : State) :
    (eventTwo a s).display = s.display := rfl
@[simp] theorem eventTwo_chargen (a : SpcActs) (s : State) :
    (eventTwo a s).chargen = s.chargen := rfl
@[simp] theorem eventTwo_remRand (a : SpcActs) (s : State) :
    (eventTwo a s).remRand = s.remRand := rfl
@[simp] theorem eventTwo_breaks (a : SpcActs) (s : State) :
    (eventTwo a s).breaks = s.breaks := rfl
@[simp] theorem eventTwo_history (a : SpcActs) (s : State) :
    (eventTwo a s).history = s.history := rfl
@[simp] theorem eventTwo_draws (a : SpcActs) (s : State) :
    (eventTwo a s).draws = s.draws := rfl
@[simp] theorem eventTwo_turns (a : SpcActs) (s : State) :
    (eventTwo a s).turns = s.turns := rfl

/-! `eventThree` -/

@[simp] theorem eventThree_ac (a : SpcActs) (s : State) :
    (eventThree a s).ac = if a.ida then indexAC s.ring s.ac else s.ac := rfl
@[simp] theorem eventThree_io (a : SpcActs) (s : State) :
    (eventThree a s).io = s.io := rfl
@[simp] theorem eventThree_pc (a : SpcActs) (s : State) :
    (eventThree a s).pc = s.pc := rfl
@[simp] theorem eventThree_link (a : SpcActs) (s : State) :
    (eventThree a s).link = if a.cml then !s.link else s.link := rfl
@[simp] theorem eventThree_ring (a : SpcActs) (s : State) :
    (eventThree a s).ring = s.ring := rfl
@[simp] theorem eventThree_pf (a : SpcActs) (s : State) :
    (eventThree a s).pf = s.pf := rfl
@[simp] theorem eventThree_rm (a : SpcActs) (s : State) :
    (eventThree a s).rm = s.rm := rfl
@[simp] theorem eventThree_prot (a : SpcActs) (s : State) :
    (eventThree a s).prot = s.prot := rfl
@[simp] theorem eventThree_names (a : SpcActs) (s : State) :
    (eventThree a s).names = s.names := rfl
@[simp] theorem eventThree_tb (a : SpcActs) (s : State) :
    (eventThree a s).tb = s.tb := rfl
@[simp] theorem eventThree_ckb (a : SpcActs) (s : State) :
    (eventThree a s).ckb = s.ckb := rfl
@[simp] theorem eventThree_mcur (a : SpcActs) (s : State) :
    (eventThree a s).mcur = s.mcur := rfl
@[simp] theorem eventThree_ma (a : SpcActs) (s : State) :
    (eventThree a s).ma = s.ma := rfl
@[simp] theorem eventThree_mb (a : SpcActs) (s : State) :
    (eventThree a s).mb = s.mb := rfl
@[simp] theorem eventThree_ld (a : SpcActs) (s : State) :
    (eventThree a s).ld = s.ld := rfl
@[simp] theorem eventThree_inc (a : SpcActs) (s : State) :
    (eventThree a s).inc = s.inc := rfl
@[simp] theorem eventThree_mem (a : SpcActs) (s : State) :
    (eventThree a s).mem = s.mem := rfl
@[simp] theorem eventThree_drum (a : SpcActs) (s : State) :
    (eventThree a s).drum = s.drum := rfl
@[simp] theorem eventThree_dcs (a : SpcActs) (s : State) :
    (eventThree a s).dcs = s.dcs := rfl
@[simp] theorem eventThree_display (a : SpcActs) (s : State) :
    (eventThree a s).display = s.display := rfl
@[simp] theorem eventThree_chargen (a : SpcActs) (s : State) :
    (eventThree a s).chargen = s.chargen := rfl
@[simp] theorem eventThree_remRand (a : SpcActs) (s : State) :
    (eventThree a s).remRand = s.remRand := rfl
@[simp] theorem eventThree_breaks (a : SpcActs) (s : State) :
    (eventThree a s).breaks = s.breaks := rfl
@[simp] theorem eventThree_history (a : SpcActs) (s : State) :
    (eventThree a s).history = s.history := rfl
@[simp] theorem eventThree_draws (a : SpcActs) (s : State) :
    (eventThree a s).draws = s.draws := rfl
@[simp] theorem eventThree_turns (a : SpcActs) (s : State) :
    (eventThree a s).turns = s.turns := rfl

/-! `eventFour` -/

@[simp] theorem eventFour_ac (a : SpcActs) (s : State) :
    (eventFour a s).ac = if a.idc then stepPtr s.ring s.ac else s.ac := rfl
@[simp] theorem eventFour_io (a : SpcActs) (s : State) :
    (eventFour a s).io = s.io := rfl
@[simp] theorem eventFour_pc (a : SpcActs) (s : State) :
    (eventFour a s).pc = s.pc := rfl
@[simp] theorem eventFour_link (a : SpcActs) (s : State) :
    (eventFour a s).link = s.link := rfl
@[simp] theorem eventFour_ring (a : SpcActs) (s : State) :
    (eventFour a s).ring = s.ring := rfl
@[simp] theorem eventFour_pf (a : SpcActs) (s : State) :
    (eventFour a s).pf = s.pf := rfl
@[simp] theorem eventFour_rm (a : SpcActs) (s : State) :
    (eventFour a s).rm = s.rm := rfl
@[simp] theorem eventFour_prot (a : SpcActs) (s : State) :
    (eventFour a s).prot = s.prot := rfl
@[simp] theorem eventFour_names (a : SpcActs) (s : State) :
    (eventFour a s).names = s.names := rfl
@[simp] theorem eventFour_tb (a : SpcActs) (s : State) :
    (eventFour a s).tb = s.tb := rfl
@[simp] theorem eventFour_ckb (a : SpcActs) (s : State) :
    (eventFour a s).ckb = s.ckb := rfl
@[simp] theorem eventFour_mcur (a : SpcActs) (s : State) :
    (eventFour a s).mcur = s.mcur := rfl
@[simp] theorem eventFour_ma (a : SpcActs) (s : State) :
    (eventFour a s).ma = s.ma := rfl
@[simp] theorem eventFour_mb (a : SpcActs) (s : State) :
    (eventFour a s).mb = s.mb := rfl
@[simp] theorem eventFour_ld (a : SpcActs) (s : State) :
    (eventFour a s).ld = s.ld := rfl
@[simp] theorem eventFour_inc (a : SpcActs) (s : State) :
    (eventFour a s).inc = s.inc := rfl
@[simp] theorem eventFour_mem (a : SpcActs) (s : State) :
    (eventFour a s).mem = s.mem := rfl
@[simp] theorem eventFour_drum (a : SpcActs) (s : State) :
    (eventFour a s).drum = s.drum := rfl
@[simp] theorem eventFour_dcs (a : SpcActs) (s : State) :
    (eventFour a s).dcs = s.dcs := rfl
@[simp] theorem eventFour_display (a : SpcActs) (s : State) :
    (eventFour a s).display = s.display := rfl
@[simp] theorem eventFour_chargen (a : SpcActs) (s : State) :
    (eventFour a s).chargen = s.chargen := rfl
@[simp] theorem eventFour_remRand (a : SpcActs) (s : State) :
    (eventFour a s).remRand = s.remRand := rfl
@[simp] theorem eventFour_breaks (a : SpcActs) (s : State) :
    (eventFour a s).breaks = s.breaks := rfl
@[simp] theorem eventFour_history (a : SpcActs) (s : State) :
    (eventFour a s).history = s.history := rfl
@[simp] theorem eventFour_draws (a : SpcActs) (s : State) :
    (eventFour a s).draws = s.draws := rfl
@[simp] theorem eventFour_turns (a : SpcActs) (s : State) :
    (eventFour a s).turns = s.turns := rfl

/-! `readyToFetch` -/

@[simp] theorem State.readyToFetch_ac (s : State) :
    (s.readyToFetch).ac = s.ac := rfl
@[simp] theorem State.readyToFetch_io (s : State) :
    (s.readyToFetch).io = s.io := rfl
@[simp] theorem State.readyToFetch_pc (s : State) :
    (s.readyToFetch).pc = s.pc := rfl
@[simp] theorem State.readyToFetch_link (s : State) :
    (s.readyToFetch).link = s.link := rfl
@[simp] theorem State.readyToFetch_ring (s : State) :
    (s.readyToFetch).ring = s.ring := rfl
@[simp] theorem State.readyToFetch_pf (s : State) :
    (s.readyToFetch).pf = s.pf := rfl
@[simp] theorem State.readyToFetch_rm (s : State) :
    (s.readyToFetch).rm = s.rm := rfl
@[simp] theorem State.readyToFetch_prot (s : State) :
    (s.readyToFetch).prot = if s.blocked then 0#4 else s.prot := rfl
@[simp] theorem State.readyToFetch_names (s : State) :
    (s.readyToFetch).names = s.fetchNames := rfl
@[simp] theorem State.readyToFetch_tb (s : State) :
    (s.readyToFetch).tb = s.tb := rfl
@[simp] theorem State.readyToFetch_ckb (s : State) :
    (s.readyToFetch).ckb = s.ckb := rfl
@[simp] theorem State.readyToFetch_mcur (s : State) :
    (s.readyToFetch).mcur = s.mcur := rfl
@[simp] theorem State.readyToFetch_ma (s : State) :
    (s.readyToFetch).ma = s.ma := rfl
@[simp] theorem State.readyToFetch_mb (s : State) :
    (s.readyToFetch).mb = s.mb := rfl
@[simp] theorem State.readyToFetch_ld (s : State) :
    (s.readyToFetch).ld = s.ld := rfl
@[simp] theorem State.readyToFetch_inc (s : State) :
    (s.readyToFetch).inc = s.inc := rfl
@[simp] theorem State.readyToFetch_mem (s : State) :
    (s.readyToFetch).mem = s.mem := rfl
@[simp] theorem State.readyToFetch_drum (s : State) :
    (s.readyToFetch).drum =
      { s.drum with
        go := s.drum.go && (!s.transferRunning || (State.resolve { s with names := s.fetchNames } s.drum.memory).isSome)
        windows := s.drum.windows.filter fun w => !w.covers s.fetchMemory s.pc } := rfl
@[simp] theorem State.readyToFetch_dcs (s : State) :
    (s.readyToFetch).dcs = s.dcs := rfl
@[simp] theorem State.readyToFetch_display (s : State) :
    (s.readyToFetch).display = s.display := rfl
@[simp] theorem State.readyToFetch_chargen (s : State) :
    (s.readyToFetch).chargen = s.chargen := rfl
@[simp] theorem State.readyToFetch_remRand (s : State) :
    (s.readyToFetch).remRand = s.remRand := rfl
@[simp] theorem State.readyToFetch_breaks (s : State) :
    (s.readyToFetch).breaks = { restrict := none, drum := false, scanner := false } := rfl
@[simp] theorem State.readyToFetch_history (s : State) :
    (s.readyToFetch).history = s.history := rfl
@[simp] theorem State.readyToFetch_draws (s : State) :
    (s.readyToFetch).draws = s.draws := rfl
@[simp] theorem State.readyToFetch_turns (s : State) :
    (s.readyToFetch).turns = s.turns := rfl

/-! `placeWord` -/

@[simp] theorem State.placeWord_ac (w : Word) (s : State) :
    (s.placeWord w).ac = s.ac := rfl
@[simp] theorem State.placeWord_io (w : Word) (s : State) :
    (s.placeWord w).io = s.io := rfl
@[simp] theorem State.placeWord_pc (w : Word) (s : State) :
    (s.placeWord w).pc = s.pc := rfl
@[simp] theorem State.placeWord_link (w : Word) (s : State) :
    (s.placeWord w).link = s.link := rfl
@[simp] theorem State.placeWord_ring (w : Word) (s : State) :
    (s.placeWord w).ring = s.ring := rfl
@[simp] theorem State.placeWord_pf (w : Word) (s : State) :
    (s.placeWord w).pf = s.pf := rfl
@[simp] theorem State.placeWord_rm (w : Word) (s : State) :
    (s.placeWord w).rm = s.rm := rfl
@[simp] theorem State.placeWord_prot (w : Word) (s : State) :
    (s.placeWord w).prot = if s.blocked then 0#4 else s.prot := rfl
@[simp] theorem State.placeWord_names (w : Word) (s : State) :
    (s.placeWord w).names = s.fetchNames := rfl
@[simp] theorem State.placeWord_tb (w : Word) (s : State) :
    (s.placeWord w).tb = s.tb := rfl
@[simp] theorem State.placeWord_ckb (w : Word) (s : State) :
    (s.placeWord w).ckb = s.ckb := rfl
@[simp] theorem State.placeWord_mcur (w : Word) (s : State) :
    (s.placeWord w).mcur = s.mcur := rfl
@[simp] theorem State.placeWord_ma (w : Word) (s : State) :
    (s.placeWord w).ma = s.ma := rfl
@[simp] theorem State.placeWord_mb (w : Word) (s : State) :
    (s.placeWord w).mb = s.mb := rfl
@[simp] theorem State.placeWord_ld (w : Word) (s : State) :
    (s.placeWord w).ld = s.ld := rfl
@[simp] theorem State.placeWord_inc (w : Word) (s : State) :
    (s.placeWord w).inc = s.inc := rfl
@[simp] theorem State.placeWord_mem (w : Word) (s : State) :
    (s.placeWord w).mem = Memory.store (coreKey s.fetchMemory s.pc) w s.mem := rfl
@[simp] theorem State.placeWord_drum (w : Word) (s : State) :
    (s.placeWord w).drum =
      { s.drum with
        go := s.drum.go && (!s.transferRunning || (State.resolve { s with names := s.fetchNames } s.drum.memory).isSome)
        windows := s.drum.windows.filter fun w => !w.covers s.fetchMemory s.pc } := rfl
@[simp] theorem State.placeWord_dcs (w : Word) (s : State) :
    (s.placeWord w).dcs = s.dcs := rfl
@[simp] theorem State.placeWord_display (w : Word) (s : State) :
    (s.placeWord w).display = s.display := rfl
@[simp] theorem State.placeWord_chargen (w : Word) (s : State) :
    (s.placeWord w).chargen = s.chargen := rfl
@[simp] theorem State.placeWord_remRand (w : Word) (s : State) :
    (s.placeWord w).remRand = s.remRand := rfl
@[simp] theorem State.placeWord_breaks (w : Word) (s : State) :
    (s.placeWord w).breaks = { restrict := none, drum := false, scanner := false } := rfl
@[simp] theorem State.placeWord_history (w : Word) (s : State) :
    (s.placeWord w).history = s.history := rfl
@[simp] theorem State.placeWord_draws (w : Word) (s : State) :
    (s.placeWord w).draws = s.draws := rfl
@[simp] theorem State.placeWord_turns (w : Word) (s : State) :
    (s.placeWord w).turns = s.turns := rfl

end Sys2Proof.Machine
end

