-- ==== Sys2Proof/Laws/Memory.lean ====
section
/-! SUPPORT. Core as a list in canonical form: reading after writing, and that every memory operation keeps the form;
and what the words the drum may be rewriting hold (spec/20_memory.md R40, R41, R49). -/

namespace Sys2Proof.Machine

theorem Memory.wordAt_store_same (k : Nat) (v : Word) (m : Memory) :
    Memory.wordAt k (Memory.store k v m) = some v := by
  induction m with
  | nil => simp [Memory.store, Memory.wordAt]
  | cons c rest ih =>
    obtain ⟨k', v'⟩ := c
    by_cases hlt : k < k'
    · simp [Memory.store, Memory.wordAt, hlt]
    · by_cases heq : k = k'
      · simp [Memory.store, Memory.wordAt, heq]
      · simp [Memory.store, Memory.wordAt, hlt, heq, ih]

theorem Memory.wordAt_store_other {j k : Nat} (h : j ≠ k) (v : Word) (m : Memory) :
    Memory.wordAt j (Memory.store k v m) = Memory.wordAt j m := by
  induction m with
  | nil => simp [Memory.store, Memory.wordAt, h]
  | cons c rest ih =>
    obtain ⟨k', v'⟩ := c
    by_cases hlt : k < k'
    · simp [Memory.store, Memory.wordAt, hlt, h]
    · by_cases heq : k = k'
      · subst heq
        simp [Memory.store, Memory.wordAt, h]
      · simp [Memory.store, Memory.wordAt, hlt, heq, ih]

/-- Every cell after a store is the stored one or was there before. -/
theorem Memory.mem_store {c : Nat × Word} {k : Nat} {v : Word} {m : Memory} (h : c ∈ Memory.store k v m) :
    c = (k, v) ∨ c ∈ m := by
  induction m with
  | nil => simpa [Memory.store] using h
  | cons d rest ih =>
    obtain ⟨k', v'⟩ := d
    simp only [Memory.store] at h
    split at h
    · simpa using h
    · split at h
      · rcases List.mem_cons.1 h with h | h
        · exact .inl h
        · exact .inr (List.mem_cons_of_mem _ h)
      · rcases List.mem_cons.1 h with h | h
        · exact .inr (h ▸ List.mem_cons_self)
        · exact (ih h).imp id (List.mem_cons_of_mem _)

/-- Every key after a store is the stored one or was there before. -/
theorem Memory.mem_keys_store {j k : Nat} {v : Word} {m : Memory}
    (h : j ∈ (Memory.store k v m).map Prod.fst) : j = k ∨ j ∈ m.map Prod.fst := by
  induction m with
  | nil => simpa [Memory.store] using h
  | cons c rest ih =>
    obtain ⟨k', v'⟩ := c
    by_cases hlt : k < k'
    · simpa [Memory.store, hlt] using h
    · by_cases heq : k = k'
      · subst heq
        simp only [Memory.store, Nat.lt_irrefl, if_true, if_false, List.map_cons, List.mem_cons] at h ⊢
        tauto
      · simp only [Memory.store, hlt, heq, if_false, List.map_cons, List.mem_cons] at h ⊢
        rcases h with h | h
        · exact .inr (.inl h)
        · rcases ih h with h | h
          · exact .inl h
          · exact .inr (.inr h)

theorem Memory.store_keys_rising {k : Nat} {v : Word} {m : Memory}
    (h : (m.map Prod.fst).Pairwise (· < ·)) : ((Memory.store k v m).map Prod.fst).Pairwise (· < ·) := by
  induction m with
  | nil => simp [Memory.store]
  | cons c rest ih =>
    obtain ⟨k', v'⟩ := c
    rw [List.map_cons, List.pairwise_cons] at h
    by_cases hlt : k < k'
    · rw [Memory.store, if_pos hlt, List.map_cons, List.pairwise_cons, List.map_cons, List.pairwise_cons]
      refine ⟨fun j hj => ?_, h.1, h.2⟩
      rcases List.mem_cons.mp hj with rfl | hj
      · exact hlt
      · exact hlt.trans (h.1 j hj)
    · by_cases heq : k = k'
      · subst heq
        simpa [Memory.store] using h
      · simp only [Memory.store, hlt, heq, if_false, List.map_cons, List.pairwise_cons]
        refine ⟨fun j hj => ?_, ih h.2⟩
        rcases Memory.mem_keys_store hj with hj | hj
        · omega
        · exact h.1 j hj

/-- A store within the four memories keeps the canonical form. -/
theorem Memory.store_keeps_wf {k : Nat} {v : Word} {m : Memory} (hm : Memory.wf m) (hk : k < 4 * 4096) :
    Memory.wf (Memory.store k v m) := by
  refine ⟨Memory.store_keys_rising hm.1, fun cell hc => ?_⟩
  rcases Memory.mem_keys_store (List.mem_map_of_mem (f := Prod.fst) hc) with h | h
  · omega
  · obtain ⟨c, hc', h'⟩ := List.mem_map.mp h
    exact h' ▸ hm.2 c hc'

theorem coreKey_lt (p : MemNo) (a : Addr) : coreKey p a < 4 * 4096 := by
  have := p.isLt
  have := a.isLt
  simp only [coreKey]
  omega

theorem coreKey_inj {p q : MemNo} {a b : Addr} (h : coreKey p a = coreKey q b) : p = q ∧ a = b := by
  have := p.isLt
  have := q.isLt
  have := a.isLt
  have := b.isLt
  simp only [coreKey] at h
  exact ⟨BitVec.eq_of_toNat_eq (by omega), BitVec.eq_of_toNat_eq (by omega)⟩

@[simp] theorem keyMemory_coreKey (p : MemNo) (a : Addr) : keyMemory (coreKey p a) = p := by
  have := p.isLt
  have := a.isLt
  apply BitVec.eq_of_toNat_eq
  simp only [keyMemory, coreKey, BitVec.toNat_ofNat]
  omega

@[simp] theorem keyAddr_coreKey (p : MemNo) (a : Addr) : keyAddr (coreKey p a) = a := by
  have := a.isLt
  apply BitVec.eq_of_toNat_eq
  simp only [keyAddr, coreKey, BitVec.toNat_ofNat]
  omega

/-! What holds a core word. -/

theorem State.core_of_inDoubt {s : State} {p : MemNo} {a : Addr} (h : s.inDoubt p a = true) :
    s.core p a = Config.drumWord s.turns p a := if_pos h

theorem State.core_of_not_inDoubt {s : State} {p : MemNo} {a : Addr} (h : s.inDoubt p a = false) :
    s.core p a = (Memory.wordAt (coreKey p a) s.mem).getD (Config.coreAtStart p a) := by
  simp [State.core, h]

/-- The drum's turn leaves a word it may not rewrite as it was. -/
theorem State.core_drumTurn {s : State} {p : MemNo} {a : Addr} (h : s.inDoubt p a = false) :
    s.drumTurn.core p a = s.core p a := by
  rw [State.core_of_not_inDoubt h]
  exact State.core_of_not_inDoubt (s := s.drumTurn) h

/-- After a read cycle core is as the drum's turn left it. -/
@[simp] theorem State.core_afterRead (s : State) (p q : MemNo) (a b : Addr) :
    (s.afterRead p a).core q b = s.drumTurn.core q b := rfl

/-- The word just written is the word held, unless the drum may overwrite it. -/
theorem State.core_afterWrite_same (s : State) (p : MemNo) (a : Addr) (v : Word) :
    (s.afterWrite p a v).core p a = if s.inDoubt p a then Config.drumWord s.turns p a else v := by
  by_cases h : s.inDoubt p a = true
  · rw [if_pos h]
    exact State.core_of_inDoubt (s := s.afterWrite p a v) h
  · rw [Bool.not_eq_true] at h
    rw [State.core_of_not_inDoubt (s := s.afterWrite p a v) h]
    simp [h, Memory.wordAt_store_same]

/-- A write leaves every other word of core as it was. -/
theorem State.core_afterWrite_other {s : State} {p q : MemNo} {a b : Addr} (h : ¬(q = p ∧ b = a)) (v : Word) :
    (s.afterWrite p a v).core q b = s.core q b := by
  have hk : coreKey q b ≠ coreKey p a := fun hk => h (coreKey_inj hk)
  have hm : Memory.wordAt (coreKey q b) (s.afterWrite p a v).mem = Memory.wordAt (coreKey q b) s.mem := by
    rw [State.afterWrite_mem]
    split
    · rfl
    · exact Memory.wordAt_store_other hk v s.mem
  unfold State.core
  rw [hm]
  rfl

/-! What the drum takes over. -/

theorem Memory.wordAt_filter {f : Nat → Bool} {k : Nat} (h : f k = true) (m : Memory) :
    Memory.wordAt k (m.filter fun cell => f cell.1) = Memory.wordAt k m := by
  induction m with
  | nil => rfl
  | cons c rest ih =>
    obtain ⟨k', v⟩ := c
    by_cases hf : f k' = true
    · simp [hf, Memory.wordAt, ih]
    · have : k ≠ k' := fun e => hf (e ▸ h)
      simp [hf, Memory.wordAt, ih, this]

/-- Yielding words to the drum changes no word of core: those words are free already. -/
@[simp] theorem State.core_yieldToDrum (s : State) (p : MemNo) (a : Addr) : s.yieldToDrum.core p a = s.core p a := by
  by_cases h : s.inDoubt p a = true
  · rw [State.core_of_inDoubt h]
    exact State.core_of_inDoubt (s := s.yieldToDrum) h
  · rw [Bool.not_eq_true] at h
    rw [State.core_of_not_inDoubt h, State.core_of_not_inDoubt (s := s.yieldToDrum) h, State.yieldToDrum_mem]
    rw [Memory.wordAt_filter (f := fun k => !s.inDoubt (keyMemory k) (keyAddr k)) (by simp [h])]

theorem Memory.filter_keeps_wf {m : Memory} (h : Memory.wf m) (f : Nat × Word → Bool) : Memory.wf (m.filter f) :=
  ⟨h.1.sublist (List.Sublist.map _ List.filter_sublist), fun c hc => h.2 c (List.mem_filter.1 hc).1⟩

theorem State.yieldToDrum_keeps_wf {s : State} (h : Memory.wf s.mem) : Memory.wf s.yieldToDrum.mem :=
  Memory.filter_keeps_wf h _

theorem State.yieldToDrum_listsNoWordInDoubt (s : State) : s.yieldToDrum.ListsNoWordInDoubt := by
  intro cell hc
  show s.inDoubt _ _ = false
  simpa using (List.mem_filter.1 hc).2

theorem State.afterWrite_keeps_wf {s : State} (h : Memory.wf s.mem) (p : MemNo) (a : Addr) (v : Word) :
    Memory.wf (s.afterWrite p a v).mem := by
  rw [State.afterWrite_mem]
  split
  · exact h
  · exact Memory.store_keeps_wf h (coreKey_lt p a)

theorem State.afterWrite_listsNoWordInDoubt {s : State} (h : s.ListsNoWordInDoubt) (p : MemNo) (a : Addr) (v : Word) :
    (s.afterWrite p a v).ListsNoWordInDoubt := by
  intro cell hc
  rw [State.afterWrite_mem] at hc
  show s.inDoubt (keyMemory cell.1) (keyAddr cell.1) = false
  by_cases hd : s.inDoubt p a = true
  · exact h cell (by simpa [hd] using hc)
  · rw [if_neg hd] at hc
    rcases Memory.mem_store hc with rfl | hc
    · simpa using hd
    · exact h cell hc

theorem State.placeWord_keeps_wf {s : State} (h : Memory.wf s.mem) (w : Word) : Memory.wf (s.placeWord w).mem :=
  Memory.store_keeps_wf h (coreKey_lt _ _)

theorem State.reset_memory_wf : Memory.wf State.reset.mem := by decide

end Sys2Proof.Machine
end

