-- ==== Sys2Proof/Laws/Access.lean ====
section
/-! SUPPORT. What an access, and each shared operation over accesses, can do: one lemma each for the access that is
made, forbidden, or refused for its name (spec/20_memory.md R41, R52, R53; spec/40_memory_reference.md R100, R102). -/

namespace Sys2Proof.Machine

/-! Names and protection do not depend on the rest of the state. -/

theorem State.resolve_congr {s t : State} (h : t.names = s.names) (m : MemNo) : t.resolve m = s.resolve m := by
  simp [State.resolve, State.bearers, State.nameOf, h]

theorem State.blocked_congr {s t : State} (hr : t.rm = s.rm) (hp : t.prot = s.prot) (hm : t.mcur = s.mcur) :
    t.blocked = s.blocked := by
  simp [State.blocked, State.protects, hr, hp, hm]

theorem State.inDoubt_congr {s t : State} (hd : t.drum.windows = s.drum.windows) (p : MemNo) (a : Addr) :
    t.inDoubt p a = s.inDoubt p a := by
  simp [State.inDoubt, hd]

/-- Core depends on the words listed, and the drum's windows and turns alone. -/
theorem State.core_congr {s t : State} (hm : t.mem = s.mem) (hd : t.drum.windows = s.drum.windows)
    (ht : t.turns = s.turns) (p : MemNo) (a : Addr) : t.core p a = s.core p a := by
  simp [State.core, State.inDoubt_congr hd, hm, ht]

/-- A word the drum may not be rewriting stays as it is while the words listed and the windows do. -/
theorem State.core_kept {s t : State} (hm : t.mem = s.mem) (hd : t.drum.windows = s.drum.windows) {p : MemNo} {a : Addr}
    (h : s.inDoubt p a = false) : t.core p a = s.core p a := by
  rw [State.core_of_not_inDoubt h, State.core_of_not_inDoubt ((State.inDoubt_congr hd p a).trans h), hm]

@[simp] theorem State.resolve_afterRead (s : State) (p : MemNo) (a : Addr) (m : MemNo) :
    (s.afterRead p a).resolve m = s.resolve m := rfl

@[simp] theorem State.blocked_afterRead (s : State) (p : MemNo) (a : Addr) : (s.afterRead p a).blocked = s.blocked := rfl

@[simp] theorem State.inDoubt_afterRead (s : State) (p q : MemNo) (a b : Addr) :
    (s.afterRead p a).inDoubt q b = s.inDoubt q b := rfl

@[simp] theorem State.resolve_afterWrite (s : State) (p : MemNo) (a : Addr) (v : Word) (m : MemNo) :
    (s.afterWrite p a v).resolve m = s.resolve m := rfl

@[simp] theorem State.blocked_afterWrite (s : State) (p : MemNo) (a : Addr) (v : Word) :
    (s.afterWrite p a v).blocked = s.blocked := rfl

@[simp] theorem State.inDoubt_afterWrite (s : State) (p q : MemNo) (a b : Addr) (v : Word) :
    (s.afterWrite p a v).inDoubt q b = s.inDoubt q b := rfl

/-- Giving memory `x` the name `y` changes that name alone (R195). -/
theorem State.nameOf_rename_set (s : State) (x y p : MemNo) :
    (s.rename (s.names.set x.toFin y)).nameOf p = if p = x then y else s.nameOf p := by
  simp only [State.nameOf, State.rename_names]
  change (s.names.set x.toNat y x.isLt)[p.toNat] = if p = x then y else s.names[p.toNat]
  rw [Vector.getElem_set]
  simp [eq_comm, BitVec.toNat_eq]

/-- RSM's names (R196). -/
theorem State.nameOf_rename_physical (s : State) (p : MemNo) : (s.rename physicalNames).nameOf p = p := by
  have : ∀ p : MemNo, physicalNames.get p.toFin = p := by decide
  exact this p

/-- A memory that resolves bears the name, and is the only one that does. -/
theorem State.resolve_eq_some {s : State} {m p : MemNo} (h : s.resolve m = some p) :
    s.nameOf p = m ∧ ∀ q, s.nameOf q = m → q = p := by
  have hb : s.bearers m = [p] := by
    unfold State.resolve at h
    split at h
    · simp_all
    · exact absurd h (by simp)
  have hmem : ∀ q : MemNo, q ∈ s.bearers m ↔ s.nameOf q = m := by
    intro q
    have : ∀ q : MemNo, q ∈ [0#2, 1#2, 2#2, 3#2] := by decide
    simpa [State.bearers, List.mem_filter] using fun _ => this q
  refine ⟨(hmem p).1 (by simp [hb]), fun q hq => ?_⟩
  simpa [hb] using (hmem q).2 hq

/-! Claims' words for an access, in the words of the operations. -/

theorem State.forbidden_iff (s : State) : s.Forbidden ↔ s.blocked = true := by
  simp [State.Forbidden, State.blocked, State.protects]

theorem State.mem_bearers (s : State) (m q : MemNo) : q ∈ s.bearers m ↔ s.nameOf q = m := by
  have : ∀ q : MemNo, q ∈ [0#2, 1#2, 2#2, 3#2] := by decide
  simpa [State.bearers, List.mem_filter] using fun _ => this q

theorem State.bearers_nodup (s : State) (m : MemNo) : (s.bearers m).Nodup :=
  List.Nodup.filter _ (by decide)

/-- A name resolves to the one memory that bears it. -/
theorem State.resolve_eq_some_iff (s : State) (m p : MemNo) : s.resolve m = some p ↔ ∀ q, s.nameOf q = m ↔ q = p := by
  constructor
  · intro h q
    obtain ⟨hp, hq⟩ := State.resolve_eq_some h
    exact ⟨hq q, fun h => h ▸ hp⟩
  · intro h
    have hmem : ∀ q, q ∈ s.bearers m ↔ q = p := fun q => (s.mem_bearers m q).trans (h q)
    have hb : s.bearers m = [p] := by
      have hperm : (s.bearers m).Perm [p] :=
        (List.perm_ext_iff_of_nodup (s.bearers_nodup m) (List.nodup_singleton p)).2 (by simpa using hmem)
      simpa using hperm
    simp [State.resolve, hb]

theorem State.addresses_iff (s : State) (p : MemNo) :
    s.Addresses p ↔ s.blocked = false ∧ s.resolve s.mcur = some p := by
  rw [State.Addresses, State.forbidden_iff, State.resolve_eq_some_iff, Bool.not_eq_true]

theorem State.unaddressable_iff (s : State) :
    s.Unaddressable ↔ s.blocked = false ∧ s.resolve s.mcur = none := by
  rw [State.Unaddressable, State.forbidden_iff, Bool.not_eq_true, Option.eq_none_iff_forall_ne_some]
  simp only [ne_eq, State.resolve_eq_some_iff, not_forall]

/-- Every state is in exactly one of the three cases of an access. -/
theorem State.access_trichotomy (s : State) : s.Forbidden ∨ s.Unaddressable ∨ ∃ p, s.Addresses p := by
  rw [State.forbidden_iff, State.unaddressable_iff]
  simp only [State.addresses_iff]
  cases s.blocked <;> cases s.resolve s.mcur <;> simp

/-! The access. -/

theorem named_borne {s : State} {m p : MemNo} (h : s.resolve m = some p) (k : MemNo → Result) : named m s k = k p := by
  simp [named, h]

theorem named_unborne {s : State} {m : MemNo} (h : s.resolve m = none) (k : MemNo → Result) :
    named m s k = .refused .memoryName := by
  simp [named, h]

theorem access_blocked {s : State} (h : s.blocked = true) (k : MemNo → Result) :
    access s k = .next (s.restrictTrap .protectedMemory) := by
  simp [access, h]

theorem access_unnamed {s : State} (h : s.blocked = false) (hr : s.resolve s.mcur = none) (k : MemNo → Result) :
    access s k = .refused .memoryName := by
  simp [access, h, named_unborne hr]

theorem access_made {s : State} {p : MemNo} (h : s.blocked = false) (hr : s.resolve s.mcur = some p) (k : MemNo → Result) :
    access s k = k p := by
  simp [access, h, named_borne hr]

/-- Everything an access that answers a next state can be: the trap, or what follows it in the memory addressed. -/
theorem access_next_cases {s t : State} {k : MemNo → Result} (h : access s k = .next t) :
    (s.blocked = true ∧ t = s.restrictTrap .protectedMemory)
      ∨ ∃ p, s.blocked = false ∧ s.resolve s.mcur = some p ∧ k p = .next t := by
  unfold access at h
  split at h
  · next hb => exact .inl ⟨hb, by simpa using h.symm⟩
  · next hb =>
    unfold named at h
    split at h
    · exact absurd h (by simp)
    · next p hp => exact .inr ⟨p, by simpa using hb, hp, h⟩

/-- A read that is made, the word it finds given a name so that no proof that cites this unfolds `State.core`. -/
theorem memRead_made {s : State} {p : MemNo} (h : s.blocked = false) (hr : s.resolve s.mcur = some p) (a : Addr)
    (k : Word → State → Result) {w : Word} (hw : s.core p a = w) :
    memRead a s k = k w { s with ma := a, mb := w, turns := s.turns + 1 } := by
  subst hw
  exact access_made h hr _

theorem memWrite_made {s : State} {p : MemNo} (h : s.blocked = false) (hr : s.resolve s.mcur = some p) (a : Addr)
    (v : Word) (k : State → Result) : memWrite a v s k = k { s with mem := s.written p a v, ma := a, mb := v } :=
  access_made h hr _

/-- Core after a write and any turns of the drum: the one word written, unless it is in doubt. -/
theorem State.core_of_written {s t : State} {p : MemNo} {a : Addr} {v : Word} (hm : t.mem = s.written p a v)
    (hd : t.drum.windows = s.drum.windows) (q : MemNo) (b : Addr) :
    t.core q b =
      if q = p ∧ b = a then (if s.inDoubt p a then Config.drumWord t.turns p a else v)
      else State.core { s with turns := t.turns } q b := by
  have ht : t.core q b = (State.afterWrite { s with turns := t.turns } p a v).core q b :=
    State.core_congr (s := State.afterWrite { s with turns := t.turns } p a v) hm hd rfl q b
  rw [ht]
  split
  · next h =>
    obtain ⟨rfl, rfl⟩ := h
    exact State.core_afterWrite_same { s with turns := t.turns } _ _ v
  · next h => exact State.core_afterWrite_other h v

/-! Character addressing. -/

theorem charAddrPlain_made {s : State} {p : MemNo} (h : s.blocked = false) (hr : s.resolve s.mcur = some p) (y : Addr)
    (k : BitVec 2 → Addr → State → Result) {w : Word} (hw : s.core p y = w) :
    charAddrPlain y s k =
      k (plainCode (pointerCode w)) (pointerAddress w)
        { s with ld := plainCode (pointerCode w), inc := false, ma := y, mb := w, turns := s.turns + 1 } :=
  memRead_made h hr y _ hw

theorem charAddrAuto_made {s : State} {p : MemNo} (h : s.blocked = false) (hr : s.resolve s.mcur = some p) (y : Addr)
    (k : BitVec 2 → Addr → State → Result) {v : Word} (hv : stepPtr s.ring (s.core p y) = v) :
    charAddrAuto y s k =
      k (pointerCode v) (pointerAddress v)
        { s with
          ld := pointerCode v, inc := true, mem := s.written p y v, ma := y, mb := v, turns := s.turns + 1 } := by
  unfold charAddrAuto
  generalize hw : s.core p y = w at hv
  subst hv
  rw [memRead_made h hr y _ hw]
  exact memWrite_made (s := { s with ma := y, mb := w, turns := s.turns + 1 }) h hr y _ _

/-! In-out transfers. -/

theorem inOut_restricted {s : State} (h : s.rm = true) (k : State → Result) :
    inOut s k = .next (s.restrictTrap .iot) := by
  simp [inOut, h]

theorem inOut_normal {s : State} (h : s.rm = false) (k : State → Result) : inOut s k = k s := by
  simp [inOut, h]

end Sys2Proof.Machine
end

