-- ==== Sys2Proof/Laws/Drum.lean ====
section
/-! SUPPORT. Which core words the drum may rewrite, and what its instructions can answer: one lemma for each outcome of
`State.drumGo`, `State.rename`, `inDrumOrder` and `beginSequence` (spec/44_iot_devices.md R224, R226,
spec/70_reset_and_hazards.md R293, spec/20_memory.md R49, R53). -/

namespace Sys2Proof.Machine

theorem Window.covers_iff (p q : MemNo) (start a : Addr) (count : Nat) :
    Window.covers ⟨q, start, count⟩ p a = true ↔ p = q ∧ start.toNat ≤ a.toNat ∧ a.toNat < start.toNat + count := by
  rw [eq_comm (a := p)]
  simp [Window.covers, and_assoc]

/-- A name does not resolve exactly if no memory is the one that bears it. -/
theorem State.resolve_eq_none_iff (s : State) (m : MemNo) :
    s.resolve m = none ↔ ∀ p, ∃ q, ¬(s.nameOf q = m ↔ q = p) := by
  simp only [Option.eq_none_iff_forall_ne_some, ne_eq, State.resolve_eq_some_iff, not_forall]

/-! The windows after DCL. -/

theorem Drum.hasMeaning_iff (d : Drum) :
    d.hasMeaning = true ↔ d.read ≠ d.write ∧ d.wordCount ≠ 0#12 ∧ d.coreAddress.toNat + d.wordCount.toNat ≤ 4096
      ∧ d.initialAddress.toNat + d.wordCount.toNat ≤ 4096 := by
  have : 0 < d.wordCount.toNat ↔ d.wordCount ≠ 0#12 := by
    rw [Nat.pos_iff_ne_zero, ne_eq, ne_eq, BitVec.toNat_eq]
    rfl
  simp [Drum.hasMeaning, this, and_assoc]

/-- DCL adds the words of a read's window, in the memory it starts in, and no others. -/
theorem State.inDoubt_drumGo_iff (s : State) (p q : MemNo) (a : Addr) :
    (s.drumGo p).inDoubt q a = true ↔
      (s.drum.read = true ∧ q = p ∧ (drumNumber s.io).toNat ≤ a.toNat
          ∧ a.toNat < (drumNumber s.io).toNat + s.drum.wordCount.toNat) ∨ s.inDoubt q a = true := by
  have hs : (s.drumGo p).drum.windows =
      if s.drum.read then ⟨p, drumNumber s.io, s.drum.wordCount.toNat⟩ :: s.drum.windows else s.drum.windows := rfl
  rw [State.inDoubt, hs]
  cases s.drum.read with
  | false => simp [State.inDoubt]
  | true =>
    rw [if_pos rfl, List.any_cons, Bool.or_eq_true, Window.covers_iff]
    simp [State.inDoubt]

/-- DCL takes no word out of doubt. -/
theorem State.inDoubt_drumGo {s : State} {q : MemNo} {a : Addr} (h : s.inDoubt q a = true) (p : MemNo) :
    (s.drumGo p).inDoubt q a = true := (State.inDoubt_drumGo_iff s p q a).2 (.inr h)

/-! The windows after a renaming. -/

theorem State.mem_transferWindows (s : State) (w : Window) :
    w ∈ s.transferWindows ↔
      s.drum.go = true ∧ s.drum.rewrites = true ∧ ∃ p, s.resolve s.drum.memory = some p ∧ s.drum.window p = w := by
  unfold State.transferWindows
  split
  · next h =>
    rw [Bool.and_eq_true] at h
    simp [h, Option.mem_toList]
  · next h =>
    rw [Bool.and_eq_true] at h
    simp only [List.not_mem_nil, false_iff]
    exact fun hw => h ⟨hw.1, hw.2.1⟩

/-- A renaming puts in doubt the window's words of the memory that now alone bears the name of a transfer still to end, and no
others. -/
theorem State.inDoubt_rename_iff (s : State) (names : Vector MemNo 4) (p : MemNo) (a : Addr) :
    (s.rename names).inDoubt p a = true ↔ s.inDoubt p a = true
      ∨ (s.drum.go = true ∧ s.drum.rewrites = true ∧ (∀ q, (s.rename names).nameOf q = s.drum.memory ↔ q = p)
          ∧ s.drum.coreAddress.toNat ≤ a.toNat ∧ a.toNat < s.drum.coreAddress.toNat + s.drum.wordCount.toNat) := by
  have hw : ∀ w, w ∈ (s.rename names).drum.windows ↔ w ∈ State.transferWindows { s with names := names } ∨ w ∈ s.drum.windows :=
    fun w => List.mem_union_iff
  simp only [State.inDoubt, List.any_eq_true, hw, State.mem_transferWindows]
  constructor
  · rintro ⟨w, ⟨hg, hr, q, hq, rfl⟩ | h, hc⟩
    · obtain ⟨hp, hc'⟩ := (Window.covers_iff p q s.drum.coreAddress a s.drum.wordCount.toNat).1 hc
      exact .inr ⟨hg, hr, (State.resolve_eq_some_iff _ _ _).1 (hp ▸ hq), hc'⟩
    · exact .inl ⟨w, h, hc⟩
  · rintro (⟨w, h, hc⟩ | ⟨hg, hr, hq, hc⟩)
    · exact ⟨w, .inr h, hc⟩
    · have hq : State.resolve { s with names := names } s.drum.memory = some p := (State.resolve_eq_some_iff _ _ _).2 hq
      exact ⟨s.drum.window p, .inl ⟨hg, hr, p, hq, rfl⟩, (Window.covers_iff ..).2 ⟨rfl, hc⟩⟩

/-- A renaming takes no word out of doubt. -/
theorem State.inDoubt_rename {s : State} {p : MemNo} {a : Addr} (h : s.inDoubt p a = true) (names : Vector MemNo 4) :
    (s.rename names).inDoubt p a = true :=
  (State.inDoubt_rename_iff s names p a).2 (.inl h)

/-! What becomes of core when words are handed to the drum. -/

/-- Words newly in doubt are free, and every other word is as it was. -/
theorem State.core_handedOver {s t : State} (hm : t.mem = s.mem.filter fun cell => !t.inDoubt (keyMemory cell.1) (keyAddr cell.1))
    (ht : t.turns = s.turns) (hd : ∀ p a, s.inDoubt p a = true → t.inDoubt p a = true) (p : MemNo) (a : Addr) :
    t.core p a = if t.inDoubt p a then Config.drumWord s.turns p a else s.core p a := by
  by_cases h : t.inDoubt p a = true
  · rw [if_pos h, State.core_of_inDoubt h, ht]
  · have hs : s.inDoubt p a = false := by
      rw [← Bool.not_eq_true]
      exact fun hs => h (hd p a hs)
    rw [if_neg h]
    rw [Bool.not_eq_true] at h
    rw [State.core_of_not_inDoubt h, State.core_of_not_inDoubt hs, hm,
      Memory.wordAt_filter (f := fun k => !t.inDoubt (keyMemory k) (keyAddr k)) (by simp [h])]

theorem State.core_drumGo (s : State) (p q : MemNo) (a : Addr) :
    (s.drumGo p).core q a = if (s.drumGo p).inDoubt q a then Config.drumWord s.turns q a else s.core q a :=
  State.core_handedOver (State.drumGo_mem p s) rfl (fun _ _ h => State.inDoubt_drumGo h p) q a

theorem State.core_rename (s : State) (names : Vector MemNo 4) (p : MemNo) (a : Addr) :
    (s.rename names).core p a = if (s.rename names).inDoubt p a then Config.drumWord s.turns p a else s.core p a :=
  State.core_handedOver (State.rename_mem names s) rfl (fun _ _ h => State.inDoubt_rename h names) p a

/-! The instructions that decide what is in doubt, outside restrict mode. -/

theorem execRnm_normal {s : State} (h : s.rm = false) (xx : BitVec 6) :
    execRnm xx s = .next (s.rename (s.names.set (Config.rnmXY xx).1.toFin (Config.rnmXY xx).2)) := by
  rw [execRnm, inOut_normal h]

theorem execRsm_normal {s : State} (h : s.rm = false) : execRsm s = .next (s.rename physicalNames) := by
  rw [execRsm, inOut_normal h]

theorem inDrumOrder_pos {places : List DrumSequence} {s : State} (h : s.drum.sequence ∈ places) (k : State → Result) :
    inDrumOrder places s k = k s := if_pos h

theorem inDrumOrder_neg {places : List DrumSequence} {s : State} (h : s.drum.sequence ∉ places) (k : State → Result) :
    inDrumOrder places s k = .refused .drumOrder := if_neg h

theorem State.transferRunning_iff (s : State) :
    s.transferRunning = true ↔ s.drum.go = true ∧ Config.drumBusy s.turns = true := by
  simp [State.transferRunning]

theorem State.drumUnaddressable_iff (s : State) :
    s.DrumUnaddressable ↔ s.transferRunning = true ∧ s.resolve s.drum.memory = none := by
  rw [State.DrumUnaddressable, State.transferRunning_iff, State.resolve_eq_none_iff, and_assoc]

/-- Everything the drum's access can be: refused for its name, or no hindrance to the step. -/
theorem drumAccess_cases (s : State) (r : Result) :
    (s.DrumUnaddressable ∧ drumAccess s r = .refused .memoryName) ∨ (¬s.DrumUnaddressable ∧ drumAccess s r = r) := by
  rw [State.drumUnaddressable_iff]
  unfold drumAccess
  cases hr : s.transferRunning with
  | false => simp
  | true =>
    cases hn : s.resolve s.drum.memory with
    | none => simp [named_unborne hn]
    | some p => simp [named_borne hn]

theorem drumAccess_refused {s : State} (h : s.DrumUnaddressable) (r : Result) : drumAccess s r = .refused .memoryName := by
  rcases drumAccess_cases s r with ⟨-, h'⟩ | ⟨hn, -⟩
  · exact h'
  · exact absurd h hn

theorem drumAccess_made {s : State} (h : ¬s.DrumUnaddressable) (r : Result) : drumAccess s r = r := by
  rcases drumAccess_cases s r with ⟨hn, -⟩ | ⟨-, h'⟩
  · exact absurd hn h
  · exact h'

/-- A step that answers a next state ran the fetch, with nothing in the drum's way. -/
theorem step_next {s t : State} (h : step s = .next t) :
    s.seqBreakEntry = none ∧ ¬s.DrumUnaddressable ∧ memRead s.pc s runWord = .next t := by
  unfold step at h
  split at h
  · exact absurd h (by simp)
  · next hb =>
    rcases drumAccess_cases s (memRead s.pc s runWord) with ⟨-, he⟩ | ⟨hn, he⟩
    · exact absurd (he.symm.trans h) (by simp)
    · exact ⟨hb, hn, he.symm.trans h⟩

/-- A sequence that no transfer stands in the way of begins. -/
theorem beginSequence_idle {s : State} (hs : s.drum.sequence ∈ [.none, .breakGiven]) (h : s.transferRunning = false)
    (k : State → Result) : beginSequence s k = k s := by
  rw [beginSequence, inDrumOrder_pos hs]
  simp [h]

theorem beginSequence_running {s : State} (hs : s.drum.sequence ∈ [.none, .breakGiven]) (h : s.transferRunning = true)
    (k : State → Result) : beginSequence s k = .refused .drumBusy := by
  rw [beginSequence, inDrumOrder_pos hs]
  simp [h]

/-- Everything the begin of a sequence can be. -/
theorem beginSequence_cases (s : State) (k : State → Result) :
    (s.drum.sequence ∈ [.none, .breakGiven] ∧ s.transferRunning = false ∧ beginSequence s k = k s)
      ∨ (s.drum.sequence ∉ [.none, .breakGiven] ∧ beginSequence s k = .refused .drumOrder)
      ∨ (s.drum.sequence ∈ [.none, .breakGiven] ∧ s.transferRunning = true ∧ beginSequence s k = .refused .drumBusy) := by
  by_cases hs : s.drum.sequence ∈ [.none, .breakGiven]
  · cases h : s.transferRunning with
    | false => exact .inl ⟨hs, rfl, beginSequence_idle hs h k⟩
    | true => exact .inr (.inr ⟨hs, rfl, beginSequence_running hs h k⟩)
  · exact .inr (.inl ⟨hs, inDrumOrder_neg hs _⟩)

theorem execDia_normal {s : State} (h : s.rm = false) :
    execDia s = beginSequence s fun s => .next (State.devOut (.drumDia s.io) s.drumInitial) := by
  rw [execDia, inOut_normal h]

theorem execDba_normal {s : State} (h : s.rm = false) : execDba s = .next (State.devOut (.drumDba s.io) s.drumBreak) := by
  rw [execDba, inOut_normal h]

theorem execDwc_in_order {s : State} (h : s.rm = false) (hs : s.drum.sequence ∈ [.addressGiven, .breakGiven]) :
    execDwc s = .next (State.devOut (.drumDwc s.io) s.drumCount) := by
  rw [execDwc, inOut_normal h, inDrumOrder_pos hs]

theorem execDwc_out_of_order {s : State} (h : s.rm = false) (hs : s.drum.sequence ∉ [.addressGiven, .breakGiven]) :
    execDwc s = .refused .drumOrder := by
  rw [execDwc, inOut_normal h, inDrumOrder_neg hs]

theorem withMeaning_pos {s : State} (h : (s.drum.located s.io).hasMeaning = true) (r : Result) : withMeaning s r = r :=
  if_pos h

theorem withMeaning_neg {s : State} (h : (s.drum.located s.io).hasMeaning = false) (r : Result) :
    withMeaning s r = .refused .drumTransfer := by
  simp [withMeaning, h]

theorem execDcl_in_order {s : State} (h : s.rm = false) (hs : s.drum.sequence = .countGiven)
    (hm : (s.drum.located s.io).hasMeaning = true) {p : MemNo} (hp : s.resolve (drumMemory s.io) = some p) :
    execDcl s = .next (State.devOut (.drumDcl s.io) (s.drumGo p)) := by
  rw [execDcl, inOut_normal h, inDrumOrder_pos (by simp [hs]), withMeaning_pos hm, named_borne hp]

theorem execDcl_unnamed {s : State} (h : s.rm = false) (hs : s.drum.sequence = .countGiven)
    (hm : (s.drum.located s.io).hasMeaning = true) (hp : s.resolve (drumMemory s.io) = none) :
    execDcl s = .refused .memoryName := by
  rw [execDcl, inOut_normal h, inDrumOrder_pos (by simp [hs]), withMeaning_pos hm, named_unborne hp]

theorem execDcl_meaningless {s : State} (h : s.rm = false) (hs : s.drum.sequence = .countGiven)
    (hm : (s.drum.located s.io).hasMeaning = false) : execDcl s = .refused .drumTransfer := by
  rw [execDcl, inOut_normal h, inDrumOrder_pos (by simp [hs]), withMeaning_neg hm]

theorem execDcl_out_of_order {s : State} (h : s.rm = false) (hs : s.drum.sequence ≠ .countGiven) :
    execDcl s = .refused .drumOrder := by
  rw [execDcl, inOut_normal h, inDrumOrder_neg (by simp [hs])]

/-- The restrict mode trap's channel is one of the sequence break system's (R5). -/
theorem trapChannel_lt_nChannels : trapChannel < Config.nChannels :=
  Nat.lt_of_lt_of_le (by decide) (Nat.le_add_left 15 _)

end Sys2Proof.Machine
end

