-- ==== Sys2Proof/Laws/Encoding.lean ====
section
/-! SUPPORT. The fields of a word put together by the encoder are the fields the decoder takes out
(spec/30_encoding.md R60, R65, R66). -/

namespace Sys2Proof

@[simp] theorem octalCode_wordOf (code : BitVec 6) (low : BitVec 12) : octalCode (wordOf code low) = code := by
  ext i hi
  simp only [octalCode, wordOf, BitVec.getElem_extractLsb', BitVec.getLsbD_append]
  rw [if_neg (by omega)]
  simp [BitVec.getLsbD_eq_getElem hi]

@[simp] theorem lowTwelve_wordOf (code : BitVec 6) (low : BitVec 12) : lowTwelve (wordOf code low) = low := by
  ext i hi
  simp only [lowTwelve, wordOf, BitVec.getElem_extractLsb', BitVec.getLsbD_append]
  rw [if_pos (by omega)]
  simp [BitVec.getLsbD_eq_getElem hi]

/-- A word is its code and its low twelve bits. -/
theorem wordOf_octalCode_lowTwelve (w : Word) : wordOf (octalCode w) (lowTwelve w) = w := by
  ext i hi
  simp only [octalCode, lowTwelve, wordOf, ← BitVec.getLsbD_eq_getElem, BitVec.getLsbD_append, BitVec.getLsbD_extractLsb']
  split
  · simp_all
  · rw [show 12 + (i - 12) = i by omega]
    simp
    omega

theorem SpcActs.toBits_ofBits (b : BitVec 10) : (SpcActs.ofBits b).toBits = b := by
  revert b
  decide +kernel

theorem SpcActs.ofBits_toBits (a : SpcActs) : SpcActs.ofBits a.toBits = a := by
  obtain ⟨a0, a1, a2, a3, a4, a5, a6, a7, a8, a9⟩ := a
  revert a0 a1 a2 a3 a4 a5 a6 a7 a8 a9
  decide +kernel

end Sys2Proof
end

