-- ==== Sys2Proof/Laws/MemoryReference.lean ====
section
/-! SUPPORT. What the memory reference instructions answer where their accesses are made, forbidden or refused
(spec/40_memory_reference.md R103 to R109), and the bits of a character moved (R44). -/

namespace Sys2Proof.Machine

/-! Cycle one. -/

theorem loadCharacter_made {s : State} {p : MemNo} (h : s.blocked = false) (hr : s.resolve s.mcur = some p)
    (code : BitVec 2) (a : Addr) {m : Word} (hm : s.core p a = m) :
    loadCharacter code a s =
      .next { s with ac := characterWord (getCharacter code m), ma := a, mb := m, turns := s.turns + 1 } :=
  memRead_made h hr a _ hm

theorem depositCharacter_made {s : State} {p : MemNo} (h : s.blocked = false) (hr : s.resolve s.mcur = some p)
    (code : BitVec 2) (a : Addr) {m : Word} (hm : s.core p a = m) :
    depositCharacter code a s =
      .next { s with
        ac := rotateCharacter s.ac, mem := s.written p a (putCharacter code (firstCharacter s.ac) m), ma := a
        mb := putCharacter code (firstCharacter s.ac) m, turns := s.turns + 1 } := by
  unfold depositCharacter
  rw [memRead_made h hr a _ hm]
  exact memWrite_made (s := { s with ma := a, mb := m, turns := s.turns + 1 }) h hr a _ _

theorem addWord_made {s : State} {p : MemNo} (h : s.blocked = false) (hr : s.resolve s.mcur = some p) (e : Addr)
    (k : State → Result) {m : Word} (hm : s.core p e = m) :
    addWord e s k =
      k { s with ac := tadResult s.ac s.link m, link := tadCarry s.ac s.link m, ma := e, mb := m, turns := s.turns + 1 } :=
  memRead_made h hr e _ hm

/-! The instructions where their accesses are made, each as one record over `s`, the words found under names. -/

/-- After the defer cycle of the automatic form the pointer's own location holds the stepped pointer, and the rest of core
is as the drum's turn left it (R102, R49). -/
theorem State.core_deferredAuto (s : State) (p : MemNo) (y a : Addr) (v : Word) :
    State.core { s with mem := s.written p y v, turns := s.turns + 1 } p a =
      if s.inDoubt p a then Config.drumWord (s.turns + 1) p a else if a = y then v else s.core p a := by
  rw [State.core_of_written (s := s) (t := { s with mem := s.written p y v, turns := s.turns + 1 }) rfl rfl]
  by_cases hd : s.inDoubt p a = true
  · rw [if_pos hd]
    split
    · next h => rw [← h.2, if_pos hd]
    · exact State.core_of_inDoubt (s := s.drumTurn) hd
  · by_cases hay : a = y
    · subst hay
      simp [hd]
    · rw [if_neg (by simp [hay]), if_neg hd, if_neg hay]
      exact State.core_drumTurn (by simpa using hd)

theorem execLch_made {s : State} {p : MemNo} (h : s.blocked = false) (hr : s.resolve s.mcur = some p) (y : Addr)
    {w m : Word} (hw : s.core p y = w) (hm : s.drumTurn.core p (pointerAddress w) = m) :
    execLch y s =
      .next { s with
        ac := characterWord (getCharacter (plainCode (pointerCode w)) m), ld := plainCode (pointerCode w), inc := false
        ma := pointerAddress w, mb := m, turns := s.turns + 2 } := by
  rw [execLch, charAddrPlain_made h hr y _ hw]
  refine loadCharacter_made (p := p) ?_ ?_ _ _ ?_
  · exact h
  · exact hr
  · exact (State.core_congr (s := s.drumTurn) rfl rfl rfl _ _).trans hm

theorem execDch_made {s : State} {p : MemNo} (h : s.blocked = false) (hr : s.resolve s.mcur = some p) (y : Addr)
    {w m : Word} (hw : s.core p y = w) (hm : s.drumTurn.core p (pointerAddress w) = m) :
    execDch y s =
      .next { s with
        ac := rotateCharacter s.ac, ld := plainCode (pointerCode w), inc := false
        mem := s.written p (pointerAddress w) (putCharacter (plainCode (pointerCode w)) (firstCharacter s.ac) m)
        ma := pointerAddress w, mb := putCharacter (plainCode (pointerCode w)) (firstCharacter s.ac) m
        turns := s.turns + 2 } := by
  rw [execDch, charAddrPlain_made h hr y _ hw]
  refine depositCharacter_made (p := p) ?_ ?_ _ _ ?_
  · exact h
  · exact hr
  · exact (State.core_congr (s := s.drumTurn) rfl rfl rfl _ _).trans hm

theorem execLchI_made {s : State} {p : MemNo} (h : s.blocked = false) (hr : s.resolve s.mcur = some p) (y : Addr)
    {v m : Word} (hv : stepPtr s.ring (s.core p y) = v)
    (hm : State.core { s with mem := s.written p y v, turns := s.turns + 1 } p (pointerAddress v) = m) :
    execLchI y s =
      .next { s with
        ac := characterWord (getCharacter (pointerCode v) m), ld := pointerCode v, inc := true
        mem := s.written p y v, ma := pointerAddress v, mb := m, turns := s.turns + 2 } := by
  rw [execLchI, charAddrAuto_made h hr y _ hv]
  refine loadCharacter_made (p := p) ?_ ?_ _ _ ?_
  · exact h
  · exact hr
  · exact (State.core_congr (s := { s with mem := s.written p y v, turns := s.turns + 1 }) rfl rfl rfl _ _).trans hm

theorem execDchI_made {s : State} {p : MemNo} (h : s.blocked = false) (hr : s.resolve s.mcur = some p) (y : Addr)
    {v m : Word} (hv : stepPtr s.ring (s.core p y) = v)
    (hm : State.core { s with mem := s.written p y v, turns := s.turns + 1 } p (pointerAddress v) = m) :
    execDchI y s =
      .next { s with
        ac := rotateCharacter s.ac, ld := pointerCode v, inc := true
        mem := State.written { s with mem := s.written p y v } p (pointerAddress v)
          (putCharacter (pointerCode v) (firstCharacter s.ac) m)
        ma := pointerAddress v, mb := putCharacter (pointerCode v) (firstCharacter s.ac) m, turns := s.turns + 2 } := by
  rw [execDchI, charAddrAuto_made h hr y _ hv]
  refine depositCharacter_made (p := p) ?_ ?_ _ _ ?_
  · exact h
  · exact hr
  · exact (State.core_congr (s := { s with mem := s.written p y v, turns := s.turns + 1 }) rfl rfl rfl _ _).trans hm

theorem execTad_made {s : State} {p : MemNo} (h : s.blocked = false) (hr : s.resolve s.mcur = some p) (y : Addr)
    {m : Word} (hm : s.core p y = m) :
    execTad y s =
      .next { s with
        ac := tadResult s.ac s.link m, link := tadCarry s.ac s.link m, ma := y, mb := m, turns := s.turns + 1 } :=
  addWord_made h hr y _ hm

theorem execTadI_made {s : State} {p : MemNo} (h : s.blocked = false) (hr : s.resolve s.mcur = some p) (y : Addr)
    {m : Word} (hm : s.core p (Config.baseEffAddr s.draws y) = m) :
    execTadI y s =
      .next { s with
        ac := tadResult s.ac s.link m, link := tadCarry s.ac s.link m, ma := Config.baseEffAddr s.draws y, mb := m
        draws := s.draws + 1, turns := s.turns + 1 } :=
  addWord_made h hr _ _ hm

/-- The exact sum is the new AC and, above it, the new link (R107). -/
theorem tad_exact (ac : Word) (link : Bool) (m : Word) :
    (tadResult ac link m).toNat + 2 ^ 18 * (tadCarry ac link m).toNat = ac.toNat + link.toNat + m.toNat := by
  have := ac.isLt
  have := m.isLt
  have := Bool.toNat_le link
  simp only [tadResult, tadCarry, BitVec.toNat_ofNat, tadSum]
  by_cases hc : 2 ^ 18 ≤ ac.toNat + link.toNat + m.toNat
  · simp only [hc, decide_true, Bool.toNat_true]
    omega
  · simp only [hc, decide_false, Bool.toNat_false]
    omega

/-- An access that is forbidden, or has no memory, decides the whole instruction: the first access is the one that fails. -/
theorem execMemoryReference_stops {s : State} {r : Result} (h : ∀ k, access s k = r) (y : Addr) :
    execLch y s = r ∧ execLchI y s = r ∧ execDch y s = r ∧ execDchI y s = r ∧ execTad y s = r ∧ execTadI y s = r :=
  ⟨h _, h _, h _, h _, h _, h _⟩

/-! Characters, bit by bit. -/

theorem characterWord_getMsbD (c : Character) (k : Nat) :
    (characterWord c).getMsbD k = (decide (k < 6) && c.getMsbD k) := by
  simp only [characterWord, BitVec.getMsbD_append]
  by_cases h : 6 ≤ k
  · simp [h, Nat.not_lt.mpr h]
  · simp [h, Nat.lt_of_not_le h]

/-- Bit k of a piece of a word, counted from the left as the manual counts. -/
theorem extract_getMsbD (w : Word) (start : Nat) {len k : Nat} (hk : k < len) (hw : start + len ≤ 18) :
    (w.extractLsb' start len).getMsbD k = w.getMsbD (18 - start - len + k) := by
  simp only [BitVec.getMsbD_eq_getLsbD, BitVec.getLsbD_extractLsb']
  rw [show start + (len - 1 - k) = 18 - 1 - (18 - start - len + k) by omega]
  simp [hk, show 18 - start - len + k < 18 by omega, show len - 1 - k < len by omega]

theorem rotateCharacter_getMsbD (w : Word) {k : Nat} (hk : k < 18) :
    (rotateCharacter w).getMsbD k = w.getMsbD ((k + 6) % 18) := by
  refine (BitVec.getMsbD_append (n := 12) (m := 6)).trans ?_
  by_cases h : 12 ≤ k
  · rw [if_pos h, extract_getMsbD w 12 (by omega) (by decide)]
    congr 1
    omega
  · rw [if_neg h, extract_getMsbD w 0 (by omega) (by decide)]
    congr 1
    omega

/-- The character a code designates starts at bit 0, 6 or 12 (R103). -/
theorem getCharacter_getMsbD {code : BitVec 2} (hc : code ≠ 0#2) (w : Word) {k : Nat} (hk : k < 6) :
    (getCharacter code w).getMsbD k = w.getMsbD (6 * (code.toNat - 1) + k) := by
  have hcode : code = 1#2 ∨ code = 2#2 ∨ code = 3#2 := by
    revert code
    decide
  have : ∀ i : Fin 6, (getCharacter code w).getMsbD i = w.getMsbD (6 * (code.toNat - 1) + i) := by
    intro i
    rcases hcode with rfl | rfl | rfl <;> fin_cases i <;> simp [getCharacter, BitVec.getMsbD_eq_getLsbD]
  exact this ⟨k, hk⟩

/-- A deposit replaces the six bits of the character and keeps the other twelve (R105). -/
theorem putCharacter_getMsbD {code : BitVec 2} (hc : code ≠ 0#2) (ac w : Word) {k : Nat} (hk : k < 18) :
    (putCharacter code (firstCharacter ac) w).getMsbD k =
      if 6 * (code.toNat - 1) ≤ k ∧ k < 6 * (code.toNat - 1) + 6 then ac.getMsbD (k - 6 * (code.toNat - 1))
      else w.getMsbD k := by
  have hcode : code = 1#2 ∨ code = 2#2 ∨ code = 3#2 := by
    revert code
    decide
  have hfirst : ∀ j, j < 6 → (firstCharacter ac).getMsbD j = ac.getMsbD j := fun j hj =>
    (extract_getMsbD ac 12 hj (by decide)).trans (by congr 1; omega)
  rcases hcode with rfl | rfl | rfl
  · refine (BitVec.getMsbD_append (n := 6) (m := 12)).trans ?_
    by_cases h : 6 ≤ k
    · rw [if_pos h, extract_getMsbD w 0 (by omega) (by decide), if_neg (by simp; omega)]
      congr 1
      omega
    · rw [if_neg h, hfirst k (by omega), if_pos (by simp; omega)]
      rfl
  · refine (BitVec.getMsbD_append (n := 12) (m := 6)).trans ?_
    by_cases h : 12 ≤ k
    · rw [if_pos h, extract_getMsbD w 0 (by omega) (by decide), if_neg (by simp; omega)]
      congr 1
      omega
    · rw [if_neg h]
      refine (BitVec.getMsbD_append (n := 6) (m := 6)).trans ?_
      by_cases h6 : 6 ≤ k
      · rw [if_pos h6, hfirst (k - 6) (by omega), if_pos (by simp; omega)]
        rfl
      · rw [if_neg h6, extract_getMsbD w 12 (by omega) (by decide), if_neg (by simp; omega)]
        congr 1
        omega
  · refine (BitVec.getMsbD_append (n := 12) (m := 6)).trans ?_
    by_cases h : 12 ≤ k
    · rw [if_pos h, hfirst (k - 12) (by omega), if_pos (by simp; omega)]
      rfl
    · rw [if_neg h, extract_getMsbD w 6 (by omega) (by decide), if_neg (by simp; omega)]
      congr 1
      omega

theorem plainCode_ne_zero (code : BitVec 2) : plainCode code ≠ 0#2 := by
  revert code
  decide

theorem plainCode_toNat (code : BitVec 2) : (plainCode code).toNat = max 1 code.toNat := by
  revert code
  decide

theorem pointerCode_pointerWord (code : BitVec 2) (middle : BitVec 4) (a : Addr) :
    pointerCode (pointerWord code middle a) = code := by
  apply BitVec.eq_of_getLsbD_eq
  intro i hi
  simp only [pointerCode, pointerWord, BitVec.getLsbD_extractLsb', BitVec.getLsbD_append]
  rw [if_neg (by omega), if_neg (by omega)]
  simp [hi, show 16 + i - 12 - 4 = i by omega]

theorem pointerMiddle_pointerWord (code : BitVec 2) (middle : BitVec 4) (a : Addr) :
    pointerMiddle (pointerWord code middle a) = middle := by
  apply BitVec.eq_of_getLsbD_eq
  intro i hi
  simp only [pointerMiddle, pointerWord, BitVec.getLsbD_extractLsb', BitVec.getLsbD_append]
  rw [if_neg (by omega), if_pos (by omega)]
  simp [hi]

theorem pointerAddress_pointerWord (code : BitVec 2) (middle : BitVec 4) (a : Addr) :
    pointerAddress (pointerWord code middle a) = a := by
  apply BitVec.eq_of_getLsbD_eq
  intro i hi
  simp only [pointerAddress, pointerWord, BitVec.getLsbD_extractLsb', BitVec.getLsbD_append]
  rw [if_pos (by omega)]
  simp [hi]

/-- The stepped pointer's code, bits 2 to 5 and address portion (R101). -/
theorem pointerCode_stepPtr (ring : Bool) (w : Word) :
    pointerCode (stepPtr ring w) = if pointerCode w = 3#2 then 1#2 else pointerCode w + 1#2 := by
  unfold stepPtr
  split <;> exact pointerCode_pointerWord _ _ _

theorem pointerMiddle_stepPtr (ring : Bool) (w : Word) : pointerMiddle (stepPtr ring w) = pointerMiddle w := by
  unfold stepPtr
  split <;> exact pointerMiddle_pointerWord _ _ _

theorem pointerAddress_stepPtr (ring : Bool) (w : Word) :
    pointerAddress (stepPtr ring w) = if pointerCode w = 3#2 then addressStep ring (pointerAddress w) else pointerAddress w := by
  unfold stepPtr
  split <;> exact pointerAddress_pointerWord _ _ _

/-- A stepped pointer never has the code 00 (R102). -/
theorem pointerCode_stepPtr_ne_zero (ring : Bool) (w : Word) : pointerCode (stepPtr ring w) ≠ 0#2 := by
  rw [pointerCode_stepPtr]
  generalize pointerCode w = c
  revert c
  decide

theorem rotateCharacter_three_times (w : Word) : rotateCharacter (rotateCharacter (rotateCharacter w)) = w := by
  apply BitVec.eq_of_getMsbD_eq
  intro i hi
  rw [rotateCharacter_getMsbD _ hi, rotateCharacter_getMsbD _ (Nat.mod_lt _ (by decide)),
    rotateCharacter_getMsbD _ (Nat.mod_lt _ (by decide))]
  congr 1
  omega

end Sys2Proof.Machine
end

