-- ==== Sys2Proof/Laws/PerInstr.lean ====
section
/-! SUPPORT. Per instruction: its word has octal code 72 exactly if it is an in-out transfer, which is what R190 and
R261 check in restrict mode (spec/30_encoding.md R60, R66). -/

namespace Sys2Proof.Laws.IotCode

/-- The instruction is an in-out transfer exactly if its word has octal code 72. -/
def Statement (i : Instr) : Prop := i.isIot = true ↔ octalCode (encode i) = 0o72#6

theorem lch (y : Addr) : Statement (.lch y) := by
  simp [Statement, Instr.isIot, encode]

theorem lchI (y : Addr) : Statement (.lchI y) := by
  simp [Statement, Instr.isIot, encode]

theorem dch (y : Addr) : Statement (.dch y) := by
  simp [Statement, Instr.isIot, encode]

theorem dchI (y : Addr) : Statement (.dchI y) := by
  simp [Statement, Instr.isIot, encode]

theorem tad (y : Addr) : Statement (.tad y) := by
  simp [Statement, Instr.isIot, encode]

theorem tadI (y : Addr) : Statement (.tadI y) := by
  simp [Statement, Instr.isIot, encode]

theorem sni : Statement .sni := by
  unfold Statement
  decide

theorem szi : Statement .szi := by
  unfold Statement
  decide

theorem lia : Statement .lia := by
  unfold Statement
  decide

theorem lai : Statement .lai := by
  unfold Statement
  decide

theorem swp : Statement .swp := by
  unfold Statement
  decide

theorem cmi : Statement .cmi := by
  unfold Statement
  decide

theorem spc (rev : Bool) (acts : SpcActs) (x : BitVec 2) : Statement (.spc rev acts x) := by
  cases rev <;> simp [Statement, Instr.isIot, encode, spcWord]

theorem iif (x : BitVec 2) : Statement (.iif x) := by
  simp [Statement, Instr.isIot, encode, spcWord]

theorem ifi (x : BitVec 2) : Statement (.ifi x) := by
  simp [Statement, Instr.isIot, encode, spcWord]

theorem idc (x : BitVec 2) : Statement (.idc x) := by
  simp [Statement, Instr.isIot, encode, spcWord]

theorem ida (x : BitVec 2) : Statement (.ida x) := by
  simp [Statement, Instr.isIot, encode, spcWord]

theorem scm (x : BitVec 2) : Statement (.scm x) := by
  simp [Statement, Instr.isIot, encode, spcWord]

theorem sci (x : BitVec 2) : Statement (.sci x) := by
  simp [Statement, Instr.isIot, encode, spcWord]

theorem scf (x : BitVec 2) : Statement (.scf x) := by
  simp [Statement, Instr.isIot, encode, spcWord]

theorem szl (x : BitVec 2) : Statement (.szl x) := by
  simp [Statement, Instr.isIot, encode, spcWord]

theorem cll (x : BitVec 2) : Statement (.cll x) := by
  simp [Statement, Instr.isIot, encode, spcWord]

theorem cml (x : BitVec 2) : Statement (.cml x) := by
  simp [Statement, Instr.isIot, encode, spcWord]

theorem szlRev (x : BitVec 2) : Statement (.szlRev x) := by
  simp [Statement, Instr.isIot, encode, spcWord]

theorem erg : Statement .erg := by
  unfold Statement
  decide

theorem lrg : Statement .lrg := by
  unfold Statement
  decide

theorem lrm : Statement .lrm := by
  unfold Statement
  decide

theorem erm : Statement .erm := by
  unfold Statement
  decide

theorem rsm : Statement .rsm := by
  unfold Statement
  decide

theorem rnm (xx : BitVec 6) : Statement (.rnm xx) := by
  simp [Statement, Instr.isIot, encode, iotWord]

theorem rck (xx : BitVec 6) : Statement (.rck xx) := by
  simp [Statement, Instr.isIot, encode, iotWord]

theorem ctb (xx : BitVec 6) : Statement (.ctb xx) := by
  simp [Statement, Instr.isIot, encode, iotWord]

theorem rro (xx : BitVec 6) : Statement (.rro xx) := by
  simp [Statement, Instr.isIot, encode, iotWord]

theorem rri (xx : BitVec 6) : Statement (.rri xx) := by
  simp [Statement, Instr.isIot, encode, iotWord]

theorem dba : Statement .dba := by
  unfold Statement
  decide

theorem dra : Statement .dra := by
  unfold Statement
  decide

theorem dia (xx : BitVec 6) : Statement (.dia xx) := by
  simp [Statement, Instr.isIot, encode, iotWord]

theorem dwc (xx : BitVec 6) : Statement (.dwc xx) := by
  simp [Statement, Instr.isIot, encode, iotWord]

theorem dcl : Statement .dcl := by
  unfold Statement
  decide

theorem rch (c : Bool) : Statement (.rch c) := by
  simp [Statement, Instr.isIot, encode, iotWord]

theorem rcc (c : Bool) : Statement (.rcc c) := by
  simp [Statement, Instr.isIot, encode, iotWord]

theorem tcc (c : Bool) : Statement (.tcc c) := by
  simp [Statement, Instr.isIot, encode, iotWord]

theorem tcb (c : Bool) : Statement (.tcb c) := by
  simp [Statement, Instr.isIot, encode, iotWord]

theorem rrc (c : Bool) : Statement (.rrc c) := by
  simp [Statement, Instr.isIot, encode, iotWord]

theorem ssb (c : Bool) : Statement (.ssb c) := by
  simp [Statement, Instr.isIot, encode, iotWord]

theorem rsc (c : Bool) : Statement (.rsc c) := by
  simp [Statement, Instr.isIot, encode, iotWord]

theorem dpy : Statement .dpy := by
  unfold Statement
  decide

theorem sdb : Statement .sdb := by
  unfold Statement
  decide

theorem gpl : Statement .gpl := by
  unfold Statement
  decide

theorem gpr : Statement .gpr := by
  unfold Statement
  decide

theorem gcf : Statement .gcf := by
  unfold Statement
  decide

theorem glf : Statement .glf := by
  unfold Statement
  decide

theorem gsp : Statement .gsp := by
  unfold Statement
  decide

end Sys2Proof.Laws.IotCode
end

