-- ==== Sys2Proof/Tests/Slice0.lean ====
section
/-! SUPPORT. The model's own tests. Expected values come from spec/95_test_vectors.md (E and V numbers) and from the
encodings of spec/30_encoding.md written out by hand; then a witness for the hypotheses of every statement. -/

namespace Sys2Proof.Tests

open Sys2Proof.Machine

/-! What the well-formedness check refuses, one term a check. -/

theorem test_wf_refuses_spc_with_own_row :
    Instr.wf (.spc false ⟨true, false, false, false, false, false, false, false, false, false⟩ 0) = false := by decide

theorem test_wf_refuses_spc_reversed_szl :
    Instr.wf (.spc true ⟨false, false, false, false, false, false, false, true, false, false⟩ 0) = false := by decide

theorem test_wf_refuses_dia_of_dba : Instr.wf (.dia 0o20) = false := by decide

theorem test_wf_refuses_dwc_of_dra : Instr.wf (.dwc 0o20) = false := by decide

/-! Every constructor's word, written out from R61 to R66. -/

theorem test_decode_lch : decode 0b001010001000000000#18 = .ok (.lch 0o1000) := by decide

theorem test_decode_lchI : decode 0b001011000010000000#18 = .ok (.lchI 0o0200) := by decide

theorem test_decode_dch : decode 0b001100111111111111#18 = .ok (.dch 0o7777) := by decide

theorem test_decode_dchI : decode 0b001101000011000000#18 = .ok (.dchI 0o0300) := by decide

theorem test_decode_tad : decode 0b011110000010000000#18 = .ok (.tad 0o0200) := by decide

theorem test_decode_tadI : decode 0b011111000010000001#18 = .ok (.tadI 0o0201) := by decide

theorem test_decode_sni : decode 0b110100100000000000#18 = .ok (.sni) := by decide

theorem test_decode_szi : decode 0b110101100000000000#18 = .ok (.szi) := by decide

theorem test_decode_lia : decode 0b111110000000010000#18 = .ok (.lia) := by decide

theorem test_decode_lai : decode 0b111110000000100000#18 = .ok (.lai) := by decide

theorem test_decode_swp : decode 0b111110000000110000#18 = .ok (.swp) := by decide

theorem test_decode_cmi : decode 0b111111000000000000#18 = .ok (.cmi) := by decide

theorem test_decode_spc : decode 0b111100100001000000#18 = .ok (.spc false ⟨true, false, false, false, false, true, false, false, false, false⟩ 0) := by decide

theorem test_decode_iif : decode 0b111100100000000000#18 = .ok (.iif 0) := by decide

theorem test_decode_ifi : decode 0b111100010000000001#18 = .ok (.ifi 1) := by decide

theorem test_decode_idc : decode 0b111100001000000000#18 = .ok (.idc 0) := by decide

theorem test_decode_ida : decode 0b111100000100000011#18 = .ok (.ida 3) := by decide

theorem test_decode_scm : decode 0b111100000010000000#18 = .ok (.scm 0) := by decide

theorem test_decode_sci : decode 0b111100000001000000#18 = .ok (.sci 0) := by decide

theorem test_decode_scf : decode 0b111100000000100000#18 = .ok (.scf 0) := by decide

theorem test_decode_szl : decode 0b111100000000010010#18 = .ok (.szl 2) := by decide

theorem test_decode_cll : decode 0b111100000000001000#18 = .ok (.cll 0) := by decide

theorem test_decode_cml : decode 0b111100000000000100#18 = .ok (.cml 0) := by decide

theorem test_decode_szlRev : decode 0b111101000000010000#18 = .ok (.szlRev 0) := by decide

theorem test_decode_erg : decode 0b111010000000001001#18 = .ok (.erg) := by decide

theorem test_decode_lrg : decode 0b111010000000001000#18 = .ok (.lrg) := by decide

theorem test_decode_lrm : decode 0b111010000000110100#18 = .ok (.lrm) := by decide

theorem test_decode_erm : decode 0b111010000000110101#18 = .ok (.erm) := by decide

theorem test_decode_rsm : decode 0b111010000000110111#18 = .ok (.rsm) := by decide

theorem test_decode_rnm : decode 0b111010000001110110#18 = .ok (.rnm 0o01) := by decide

theorem test_decode_rck : decode 0b111010000000011010#18 = .ok (.rck 0) := by decide

theorem test_decode_ctb : decode 0b111010101101011101#18 = .ok (.ctb 0o55) := by decide

theorem test_decode_rro : decode 0b111010000000001111#18 = .ok (.rro 0) := by decide

theorem test_decode_rri : decode 0b111010111111011111#18 = .ok (.rri 0o77) := by decide

theorem test_decode_dba : decode 0b111010010000110001#18 = .ok (.dba) := by decide

theorem test_decode_dra : decode 0b111010010000110010#18 = .ok (.dra) := by decide

theorem test_decode_dia : decode 0b111010000000110001#18 = .ok (.dia 0) := by decide

theorem test_decode_dwc : decode 0b111010110000110010#18 = .ok (.dwc 0o60) := by decide

theorem test_decode_dcl : decode 0b111010000000110011#18 = .ok (.dcl) := by decide

theorem test_decode_rch : decode 0b111010010000010010#18 = .ok (.rch true) := by decide

theorem test_decode_rcc : decode 0b111010001000010010#18 = .ok (.rcc false) := by decide

theorem test_decode_tcc : decode 0b111010101000010010#18 = .ok (.tcc false) := by decide

theorem test_decode_tcb : decode 0b111010110000010010#18 = .ok (.tcb true) := by decide

theorem test_decode_rrc : decode 0b111010000001010010#18 = .ok (.rrc false) := by decide

theorem test_decode_ssb : decode 0b111010100001010010#18 = .ok (.ssb false) := by decide

theorem test_decode_rsc : decode 0b111010011001010010#18 = .ok (.rsc true) := by decide

theorem test_decode_dpy : decode 0b111010000000000111#18 = .ok (.dpy) := by decide

theorem test_decode_sdb : decode 0b111010010000000111#18 = .ok (.sdb) := by decide

theorem test_decode_gpl : decode 0b111010010000010111#18 = .ok (.gpl) := by decide

theorem test_decode_gpr : decode 0b111010000000010111#18 = .ok (.gpr) := by decide

theorem test_decode_gcf : decode 0b111010000001010111#18 = .ok (.gcf) := by decide

theorem test_decode_glf : decode 0b111010010000010110#18 = .ok (.glf) := by decide

theorem test_decode_gsp : decode 0b111010000000010110#18 = .ok (.gsp) := by decide

theorem test_decode_rejects_code_73 : decode 0o730011#18 = .error .code73 := by decide

theorem test_decode_rejects_mixed_operate : decode 0o760420#18 = .error .operateCombination := by decide

theorem test_decode_rejects_unprinted_iot : decode 0o720064#18 = .ok .lrm ∧ decode 0o720164#18 = .error .unprintedIot := by
  decide

theorem test_decodeTableWord_18_bits : decodeTableWord 18 0o722061 = some .dba ∧ decodeTableWord 24 0o1722061 = none := by
  decide

/-! Executions, on a state with the instruction at 0100 already fetched. -/

/-- The start state of spec/95_test_vectors.md: PC past 0100, all else as after reset. -/
def start : State := { State.reset with pc := 0o101 }

/-- One observation of what an instruction answers. -/
def observe {α : Type} (f : State → α) : Result → Option α
  | .next s => some (f s)
  | _ => none

/-- V1, E1. -/
theorem test_lch_one : observe (fun t => (t.ac, t.mem, t.ma, t.mb)) (exec (.lch 0o1000) { start with mem := [(0o1000, 0o202000#18), (0o2000, 0o616263#18)], ac := 0o777777 }) =
    some (0o610000, [(0o1000, 0o202000#18), (0o2000, 0o616263#18)], 0o2000, 0o616263) := by decide

/-- V2. -/
theorem test_lch_code_00 : observe (fun t => (t.ac, Memory.wordAt 0o1000 t.mem)) (exec (.lch 0o1000) { start with mem := [(0o1000, 0o002000#18), (0o2000, 0o616263#18)] }) =
    some (0o610000, some 0o002000#18) := by decide

/-- V3. -/
theorem test_lchI_steps_address : observe (fun t => (t.ac, Memory.wordAt 0o200 t.mem)) (exec (.lchI 0o200) { start with mem := [(0o200, 0o600307#18), (0o300, 0o414243#18), (0o310, 0o717273#18)] }) =
    some (0o710000, some 0o200310#18) := by decide

/-- V4. -/
theorem test_lchI_ring : observe (fun t => (t.ac, Memory.wordAt 0o200 t.mem)) (exec (.lchI 0o200) { start with ring := true, mem := [(0o200, 0o600307#18), (0o300, 0o414243#18), (0o310, 0o717273#18)] }) =
    some (0o410000, some 0o200300#18) := by decide

/-- E4, second row. -/
theorem test_dch_middle : observe (fun t => (t.ac, Memory.wordAt 0o2000 t.mem)) (exec (.dch 0o1000) { start with mem := [(0o1000, 0o402000#18), (0o2000, 0o707172#18)], ac := 0o616263 }) =
    some (0o626361, some 0o706172#18) := by decide

/-- V10. -/
theorem test_dch_own_pointer : observe (fun t => (t.ac, t.mem)) (exec (.dch 0o200) { start with mem := [(0o200, 0o000200#18)], ac := 0o770000 }) =
    some (0o000077, [(0o200, 0o770200#18)]) := by decide

/-- V8. -/
theorem test_dchI_first : observe (fun t => (t.ac, t.mem)) (exec (.dchI 0o300) { start with mem := [(0o300, 0o000400#18), (0o400, 0#18)], ac := 0o610000 }) =
    some (0o000061, [(0o300, 0o200400#18), (0o400, 0o610000#18)]) := by decide

/-- V9. -/
theorem test_dchI_own_pointer : observe (fun t => (t.ac, t.mem)) (exec (.dchI 0o200) { start with mem := [(0o200, 0o000200#18)], ac := 0o770000 }) =
    some (0o000077, [(0o200, 0o770200#18)]) := by decide

/-- V16. -/
theorem test_tad_carry_of_link : observe (fun t => (t.ac, t.link)) (exec (.tad 0o200) { start with mem := [(0o200, 0#18)], ac := 0o777777, link := true }) =
    some (0, true) := by decide

/-- V18. -/
theorem test_tad_signed_overflow : observe (fun t => (t.ac, t.link)) (exec (.tad 0o200) { start with mem := [(0o200, 1#18)], ac := 0o377777 }) =
    some (0o400000, false) := by decide

/-- V22. -/
theorem test_sni_wraps : observe (fun t => t.pc) (exec (.sni) { start with io := 0o400000, pc := 0o7777 }) =
    some 0 := by decide

/-- V24. -/
theorem test_szi_minus_zero : observe (fun t => t.pc) (exec (.szi) { start with io := 0o777777 }) =
    some 0o101 := by decide

/-- V25. -/
theorem test_lia : observe (fun t => (t.ac, t.io)) (exec (.lia) { start with ac := 0o123456 }) =
    some (0o123456, 0o123456) := by decide

/-- V26. -/
theorem test_lai : observe (fun t => (t.ac, t.io)) (exec (.lai) { start with ac := 0o123456 }) =
    some (0, 0) := by decide

/-- V27. -/
theorem test_swp : observe (fun t => (t.ac, t.io)) (exec (.swp) { start with ac := 0o123456, io := 0o654321 }) =
    some (0o654321, 0o123456) := by decide

/-- V28. -/
theorem test_cmi : observe (fun t => t.io) (exec (.cmi) { start with io := 0o123456 }) =
    some 0o654321 := by decide

/-- V69, the word 747774. -/
theorem test_spc_all_ten : observe (fun t => (t.pc, t.io, t.link, t.ring, t.pf, t.ac)) (exec (.spc false ⟨true, true, true, true, true, true, true, true, true, true⟩ 0) { start with ac := 0o600006, io := 0o000377 }) =
    some (0o102, 0, true, false, 0, 0o377772) := by decide

/-- V63, the word 742200. -/
theorem test_spc_scm_sees_old_link : observe (fun t => (t.ac, t.link)) (exec (.spc false ⟨false, true, false, false, true, false, false, false, false, false⟩ 0) { start with ac := 5, io := 0o000200 }) =
    some (0o777772, true) := by decide

/-- V30. -/
theorem test_iif : observe (fun t => t.io) (exec (.iif 0) { start with link := true, pf := 0b100001, io := 0o400000 }) =
    some 0o400241 := by decide

/-- V32. -/
theorem test_ifi : observe (fun t => (t.link, t.ring, t.pf)) (exec (.ifi 0) { start with io := 0o000300 }) =
    some (true, true, 0) := by decide

/-- V37. -/
theorem test_idc_ring : observe (fun t => t.ac) (exec (.idc 0) { start with ac := 0o602007, ring := true }) =
    some 0o202000 := by decide

/-- V39. -/
theorem test_idc_keeps_middle : observe (fun t => t.ac) (exec (.idc 0) { start with ac := 0o367777 }) =
    some 0o567777 := by decide

/-- V40. -/
theorem test_ida_drops_carry : observe (fun t => (t.ac, t.link)) (exec (.ida 0) { start with ac := 0o777777 }) =
    some (0, false) := by decide

/-- V42. -/
theorem test_ida_ring : observe (fun t => t.ac) (exec (.ida 0) { start with ac := 0o123457, ring := true }) =
    some 0o123450 := by decide

/-- V44. -/
theorem test_scm_link : observe (fun t => (t.ac, t.link)) (exec (.scm 0) { start with ac := 5, link := true }) =
    some (0o777773, true) := by decide

/-- V50. -/
theorem test_sci : observe (fun t => t.io) (exec (.sci 0) { start with io := 0o123456 }) =
    some 0 := by decide

/-- V51. -/
theorem test_scf : observe (fun t => (t.link, t.ring, t.pf)) (exec (.scf 0) { start with link := true, ring := true, pf := 0b001000 }) =
    some (false, false, 0) := by decide

/-- V52. -/
theorem test_szl_skips : observe (fun t => t.pc) (exec (.szl 0) start) =
    some 0o102 := by decide

/-- V54. -/
theorem test_szlRev_skips : observe (fun t => t.pc) (exec (.szlRev 0) { start with link := true }) =
    some 0o102 := by decide

/-- V59. -/
theorem test_cll : observe (fun t => t.link) (exec (.cll 0) { start with link := true }) =
    some false := by decide

/-- V60. -/
theorem test_cml : observe (fun t => t.link) (exec (.cml 0) start) =
    some true := by decide

/-- V70. -/
theorem test_erg : observe (fun t => t.ring) (exec (.erg) start) =
    some true := by decide

/-- V71. -/
theorem test_lrg : observe (fun t => t.ring) (exec (.lrg) { start with ring := true }) =
    some false := by decide

/-- V72. -/
theorem test_erm : observe (fun t => (t.rm, t.prot)) (exec (.erm) { start with io := 0o000240 }) =
    some (true, 0b1010) := by decide

/-- V73. -/
theorem test_lrm : observe (fun t => (t.rm, t.prot)) (exec (.lrm) { start with prot := 0b1010 }) =
    some (false, 0) := by decide

/-- V74. -/
theorem test_rsm : observe (fun t => t.names) (exec (.rsm) { start with names := #v[1, 0, 2, 3] }) =
    some #v[0, 1, 2, 3] := by decide

/-- V75. -/
theorem test_ctb : observe (fun t => t.tb) (exec (.ctb 0o55) { start with tb := 123 }) =
    some 0 := by decide

/-- V92. -/
theorem test_iot_traps : observe (fun t => (t.rm, t.pc, t.breaks.restrict)) (exec (.lrm) { start with rm := true }) =
    some (true, 0o101, some .iot) := by decide

/-- V78. -/
theorem test_rro : observe (fun t => (t.io, t.history)) (exec (.rro 0) { start with io := 0o123456 }) =
    some (0o123456, [.remRandRro 0o123456]) := by decide

/-- V80. -/
theorem test_dia : observe (fun t => (t.history, t.drum.read, t.drum.readField, t.drum.initialAddress)) (exec (.dia 0) { start with io := 0o412000 }) =
    some ([.drumDia 0o412000], true, 1, 0o2000) := by decide

/-- V81. -/
theorem test_dba : observe (fun t => (t.history, t.drum.breakArmed)) (exec (.dba) { start with io := 0o412000 }) =
    some ([.drumDba 0o412000], true) := by decide

/-- R222, worked example, after DIA (R293). -/
theorem test_dwc : observe (fun t => (t.drum.write, t.drum.writeField, t.drum.wordCount)) (exec (.dwc 0) { start.drumInitial with io := 0o030100 }) =
    some (false, 3, 0o100) := by decide

/-- A drum that has been given its address and a read, and its count, and no GO before. -/
def sequenced (io : Word) (read write : Bool) (count : BitVec 12) : State :=
  { start with io := io, drum := { start.drum with read := read, write := write, wordCount := count, sequence := .countGiven } }

/-- V82's event, after DIA and DWC (R293); bits 2 and 3 of 044000 are 01, memory 1 (R223, log 29). -/
theorem test_dcl : observe (fun t => (t.history, t.drum.memory, t.drum.coreAddress)) (exec .dcl (sequenced 0o044000 true false 1)) =
    some ([.drumDcl 0o044000], 1, 0o4000) := by decide

/-- V86. -/
theorem test_ssb : observe (fun t => (t.history, t.dcs.sendBuffer)) (exec (.ssb false) { start with io := 5 }) =
    some ([.dcsSsb 5], 5) := by decide

/-- R228, R235. -/
theorem test_rsc_clears_io : observe (fun t => (t.io, t.dcs.scannerFlag)) (exec (.rsc true) { start with io := 7, dcs := { start.dcs with scannerFlag := true } }) =
    some (0, false) := by decide

/-- R232, R297: line 2. -/
theorem test_tcb_clears_flag : observe (fun t => t.dcs.receiverFlags) (exec (.tcb false) { start with dcs := { start.dcs with sendBuffer := 2, receiverFlags := 7 } }) =
    some 3 := by decide

/-- V87. -/
theorem test_dpy : observe (fun t => (t.history, t.ac, t.io)) (exec (.dpy) { start with ac := 0o377700, io := 0o400000 }) =
    some ([.displayDpy 0o777 0o1000], 0o377700, 0o400000) := by decide

/-- R239. -/
theorem test_sdb : observe (fun t => (t.display.x, t.display.y)) (exec (.sdb) { start with ac := 0o377700, io := 0o400000 }) =
    some (0o777, 0o1000) := by decide

/-- R242, worked example. -/
theorem test_gcf : observe (fun t => t.display.lightPen) (exec (.gcf) { start with display := { start.display with lightPen := true } }) =
    some false := by decide

/-- V88: size 3 is code 10. -/
theorem test_glf : observe (fun t => (t.history, t.chargen.autoSpacing, t.chargen.size)) (exec (.glf) { start with io := 6 }) =
    some ([.chargenGlf 6], true, 2) := by decide

/-- R240, worked example. -/
theorem test_gpl : observe (fun t => (t.chargen.shift, t.chargen.subscript)) (exec (.gpl) { start with io := 0o777776 }) =
    some (0o777776, false) := by decide

/-- R241, worked example. -/
theorem test_gpr : observe (fun t => (t.chargen.shift, t.history)) (exec (.gpr) { start with io := 0o777777 }) =
    some (0o777777, [.chargenGpr 0o777777]) := by decide

/-- R244, worked example. -/
theorem test_gsp : observe (fun t => (t.chargen.shift, t.history)) (exec (.gsp) start) =
    some (0, [.chargenGsp 0]) := by decide

/-- V68, the word 750400. -/
theorem test_spc_reverse_without_skip :
    (match exec (.spc true ⟨false, false, false, true, false, false, false, false, false, false⟩ 0) start with
      | .refused .reverseWithoutSkip => true
      | _ => false) = true := by decide

/-- V77: the clock buffer replaces I/O. -/
theorem test_rck : exec (.rck 0) { start with io := 0o777777 } =
    .next { start with io := Config.clockRead 0, ckb := Config.clockRead 0, draws := 1 } := rfl

/-- R200: the conditions replace I/O. -/
theorem test_rri : observe (fun t => t.io) (exec (.rri 0) { start with io := 0o777777 }) = some (Config.remRandIn 0) := rfl

/-- R225. -/
theorem test_dra : observe (fun t => t.io) (exec .dra { start with io := 0o777777 }) = some (Config.drumAddress 0) := rfl

/-- R195: memory X is named Y. -/
theorem test_rnm : observe (fun t => t.nameOf (Config.rnmXY 0o01).1) (exec (.rnm 0o01) start) =
    some (Config.rnmXY 0o01).2 :=
  congrArg some ((State.nameOf_rename_set start _ _ _).trans (if_pos rfl))

/-- R108: the operand is the word at the base machine's effective address. -/
theorem test_tadI : observe (fun t => (t.ma, t.mb)) (exec (.tadI 0o200) start) =
    some (Config.baseEffAddr 0 0o200, start.core 0 (Config.baseEffAddr 0 0o200)) := rfl

/-- R229, V84: with the 2000 bit only the character is left. -/
theorem test_rch : observe (fun t => t.io) (exec (.rch true) { start with io := 0o777777 }) =
    some (0#18 ||| dcsCharacterIn (Config.dcsCharacter 0)) := rfl

/-- R230: RCC also clears the scanner flag. -/
theorem test_rcc : observe (fun t => (t.dcs.scannerFlag, t.history)) (exec (.rcc false) start) =
    some (false, [.dcsClearReceiverFlag, .dcsClearScannerFlag]) := by decide

/-- R231. -/
theorem test_tcc : observe (fun t => t.history) (exec (.tcc false) { start with io := 0o301 }) =
    some [.dcsTransmitByReceiverCounter (dcsCharacterOf 0o301), .dcsClearReceiverFlag, .dcsClearScannerFlag] := rfl

/-- R233, V85: the counter is ORed into I/O. -/
theorem test_rrc : observe (fun t => t.io) (exec (.rrc false) { start with io := 0o400 }) =
    some (0o400 ||| (Config.receiverCounter 0).setWidth 18) := rfl

/-! Steps. -/

/-- A state with `w` at location 0100 of memory 0 and PC there. -/
def about (w : Word) : State := { State.reset with pc := 0o100, mem := [(0o100, w)] }

/-- V91: the accumulator is indexed in restrict mode. -/
theorem test_step_restricted_ida : observe (fun t => (t.ac, t.pc)) (step { about 0o740400 with rm := true }) =
    some (1, 0o101) := by decide

/-- V90: a protected memory traps at the fetch, and PC is still 0100. -/
theorem test_step_protected_fetch :
    observe (fun t => (t.pc, t.breaks.restrict)) (step { about 0o740400 with rm := true, prot := 0b1000 }) =
    some (0o100, some .protectedMemory) := by decide

/-- V93: HLT traps in restrict mode. -/
theorem test_step_hlt :
    observe (fun t => (t.pc, t.breaks.restrict)) (step { about 0o760400 with rm := true }) = some (0o101, some .hlt) := by
  decide

/-- P4 (a): the state after the trap makes no further step. -/
theorem test_step_trapped :
    (match step ((about 0o720010).restrictTrap .iot) with
      | .fault (.trapped 14 .iot) => true
      | _ => false) = true := by decide

/-- R66: a word of code 73 is refused, in restrict mode too. -/
theorem test_step_code_73 :
    (match step { about 0o730011 with rm := true } with
      | .refused (.noMeaning .code73) => true
      | _ => false) = true := by decide

/-- R195, R53: with name 0 borne twice the fetch is refused. -/
theorem test_step_ambiguous_name :
    (match step { about 0o740400 with names := #v[0, 0, 2, 3] } with
      | .refused .memoryName => true
      | _ => false) = true := by decide

/-- The loader's word is run first after reset. -/
theorem test_withFetchWord :
    observe (fun t => (t.io, t.pc)) (step ({ State.reset with ac := 5 }.withFetchWord 24 0o760020)) = some (5, 1) := by
  decide


/-! Witnesses: for every statement with hypotheses a state and operands that meet all of them, each clause at a boundary. -/

theorem start_addresses : start.Addresses 0 := (State.addresses_iff _ _).2 (by decide)

/-- Restrict mode, nothing protected but memory 3, memories 0 and 1 exchanged. -/
def restricted : State := { start with rm := true, prot := 0b0001, names := #v[1, 0, 2, 3] }

theorem restricted_addresses : restricted.Addresses 1 := (State.addresses_iff _ _).2 (by decide)

/-- Restrict mode with memory 0, the one addressed, protected. -/
def forbidden : State := { about 0o740400 with rm := true, prot := 0b1000 }

theorem forbidden_forbidden : forbidden.Forbidden := ⟨rfl, rfl⟩

/-- The name addressed is borne twice. -/
def ambiguous : State := { about 0o740400 with names := #v[0, 0, 2, 3] }

/-- The name addressed is borne by no memory. -/
def nameless : State := { about 0o740400 with names := #v[1, 1, 2, 3] }

theorem ambiguous_unaddressable : ambiguous.Unaddressable := (State.unaddressable_iff _).2 (by decide)

theorem nameless_unaddressable : nameless.Unaddressable := (State.unaddressable_iff _).2 (by decide)

theorem about_addresses (w : Word) : (about w).Addresses 0 := (State.addresses_iff _ _).2 ⟨rfl, rfl⟩

theorem about_noBreak (w : Word) : (about w).NoBreak := ⟨rfl, rfl, rfl⟩

theorem about_drum (w : Word) : ¬(about w).DrumUnaddressable := fun h => Bool.noConfusion h.1

theorem about_core (w : Word) : (about w).core 0 (about w).pc = w := rfl

/-- The state `about w`, its memory addressed and no break pending, in restrict mode. -/
theorem about_restricted (w : Word) :
    State.NoBreak { about w with rm := true } ∧ State.Addresses { about w with rm := true } 0
      ∧ State.core { about w with rm := true } 0 0o100 = w :=
  ⟨⟨rfl, rfl, rfl⟩, (State.addresses_iff _ _).2 ⟨show (true && (0#4).getMsbD 0) = false by decide, rfl⟩, rfl⟩

theorem witness_DecodeOfEncodeIsTheInstruction :
    Instr.wf (.dia 0o21) = true ∧ Instr.wf (.dwc 0o17) = true ∧ Instr.wf (.lch 0o7777) = true
      ∧ Instr.wf (.spc true ⟨true, false, false, false, false, false, false, false, false, false⟩ 3) = true
      ∧ Instr.wf (.spc false ⟨false, false, false, false, false, false, false, false, false, false⟩ 0) = true := by decide

theorem witness_EncodeOfDecodeIsTheWord : decode 0o777777 = .error .operateCombination
    ∧ decode 0o757777 = .ok (.spc true ⟨true, true, true, true, true, true, true, true, true, true⟩ 3) := by decide

theorem witness_InOutTransfersHaveCode72 : decode 0o727766 = .ok (.rnm 0o77) ∧ decode 0o740000 =
    .ok (.spc false ⟨false, false, false, false, false, false, false, false, false, false⟩ 0) := by decide

theorem witness_SkipAndOperateWordsAreSix :
    (0o644000#18).extractLsb' 12 6 ∈ [0o64#6, 0o65#6, 0o73#6, 0o76#6, 0o77#6] ∧ decode 0o644000 = .ok .sni
      ∧ (0o770000#18).extractLsb' 12 6 ∈ [0o64#6, 0o65#6, 0o73#6, 0o76#6, 0o77#6] ∧ decode 0o770000 = .ok .cmi := by decide

theorem witness_StepRunsTheDecodedInstruction :
    (about 0o747774).NoBreak ∧ ¬(about 0o747774).DrumUnaddressable ∧ (about 0o747774).Addresses 0
      ∧ decode ((about 0o747774).core 0 (about 0o747774).pc) =
        .ok (.spc false ⟨true, true, true, true, true, true, true, true, true, true⟩ 0) :=
  ⟨about_noBreak _, about_drum _, about_addresses _, by rw [about_core]; decide⟩

theorem witness_ForbiddenFetchTraps : forbidden.NoBreak ∧ ¬forbidden.DrumUnaddressable ∧ forbidden.Forbidden :=
  ⟨⟨rfl, rfl, rfl⟩, fun h => absurd h.1 (by decide), forbidden_forbidden⟩

theorem witness_UnaddressableFetchIsRefused :
    (ambiguous.NoBreak ∧ ambiguous.Unaddressable) ∧ nameless.NoBreak ∧ nameless.Unaddressable :=
  ⟨⟨⟨rfl, rfl, rfl⟩, ambiguous_unaddressable⟩, ⟨rfl, rfl, rfl⟩, nameless_unaddressable⟩

/-- The first clause: an unprinted in-out transfer in restrict mode. -/
theorem witness_UnmatchedWord_iot :
    decode 0o720000 = .error .unprintedIot ∧ (0o720000#18).extractLsb' 12 6 = 0o72#6
      ∧ decode 0o727777 = .error .unprintedIot ∧ (0o727777#18).extractLsb' 12 6 = 0o72#6 := by decide

/-- The second clause: HLT in restrict mode. -/
theorem witness_UnmatchedWord_hlt :
    decode 0o760400 = .error .operateCombination ∧ (0o760400#18).extractLsb' 13 5 = 0b11111#5
      ∧ (0o760400#18).getMsbD 9 = true := by decide

/-- The third clause: code 73. -/
theorem witness_UnmatchedWord_code73 :
    decode 0o730000 = .error .code73 ∧ (0o737777#18).extractLsb' 12 6 = 0o73#6 ∧ decode 0o737777 = .error .code73 := by decide

/-- The fourth and fifth clauses: a word of the base machine, which is none of the three. What `IncorrectOp` says of it is free. -/
theorem witness_UnmatchedWord_base :
    decode 0o000000 = .error .baseCode ∧ (0o000000#18).extractLsb' 12 6 ≠ 0o72#6 ∧ (0o000000#18).extractLsb' 12 6 ≠ 0o73#6
      ∧ ¬((0o000000#18).extractLsb' 13 5 = 0b11111#5 ∧ (0o000000#18).getMsbD 9 = true)
      ∧ decode 0o760000 = .error .operateCombination
      ∧ ¬((0o760000#18).extractLsb' 13 5 = 0b11111#5 ∧ (0o760000#18).getMsbD 9 = true) := by decide

/-- All hypotheses together, for each of the words above, in and out of restrict mode. -/
theorem witness_UnmatchedWordTrapsOrIsRefused (w : Word) (why : Reject) (h : decode w = .error why) :
    (∃ s : State, s.NoBreak ∧ ¬s.DrumUnaddressable ∧ s.Addresses 0 ∧ s.rm = true ∧ decode (s.core 0 s.pc) = .error why)
      ∧ ∃ s : State, s.NoBreak ∧ ¬s.DrumUnaddressable ∧ s.Addresses 0 ∧ s.rm = false ∧ decode (s.core 0 s.pc) = .error why :=
  ⟨⟨{ about w with rm := true }, (about_restricted w).1, about_drum w, (about_restricted w).2.1, rfl, h⟩,
    ⟨about w, about_noBreak w, about_drum w, about_addresses w, rfl, h⟩⟩

theorem witness_TrappedStateStops : ((about 0o720010).restrictTrap .iot).breaks.restrict = some .iot := rfl

theorem witness_FaultsComeFromPendingBreaks :
    step ((about 0).restrictTrap .hlt) = .fault (.trapped 0o16 .hlt)
      ∧ step { about 0 with breaks := { restrict := none, drum := true, scanner := true } } = .fault (.deviceBreak Config.drumChannel)
      ∧ step { about 0 with breaks := { restrict := none, drum := false, scanner := true } } =
        .fault (.deviceBreak Config.dcsChannel) := ⟨rfl, rfl, rfl⟩

theorem witness_LoadedWordRunsNext :
    18 ≤ 18 ∧ 0o757777 < 2 ^ 18
      ∧ decode (BitVec.ofNat 18 0o757777) =
        .ok (.spc true ⟨true, true, true, true, true, true, true, true, true, true⟩ 3) := by decide

/-- The memory addressed, for the six memory reference instructions, in normal and in restrict mode, with a pointer that
names its own location and one at the top of memory. -/
theorem witness_memory_reference :
    start.Addresses 0 ∧ restricted.Addresses 1
      ∧ State.core { restricted with mem := [(4096 + 0o7777, 0o607777#18)] } 1 0o7777 = 0o607777 :=
  ⟨start_addresses, restricted_addresses, rfl⟩

/-- A drum that may be rewriting 2000 and 2001 of memory 0, with a pointer to the first at 1000. -/
def windowed : State :=
  { start with
    mem := [(0o1000, 0o202000#18)], drum := { start.drum with go := true, rewrites := true, windows := [⟨0, 0o2000, 2⟩] } }

/-- It may be rewriting those two words and no other. -/
theorem witness_inDoubt :
    windowed.Addresses 0 ∧ windowed.inDoubt 0 0o2000 = true ∧ windowed.inDoubt 0 0o2001 = true
      ∧ windowed.inDoubt 0 0o2002 = false ∧ windowed.inDoubt 0 0o1777 = false ∧ windowed.inDoubt 1 0o2000 = false :=
  ⟨(State.addresses_iff _ _).2 (by decide), by decide⟩

/-- R49, U19: a load from the window finds what the drum's turn after the defer cycle left there. -/
theorem test_lch_from_window : observe (fun t => (t.mb, t.turns)) (exec (.lch 0o1000) windowed) =
    some (Config.drumWord 1 0 0o2000, 2) := rfl

/-- R49, U19: a deposit into the window is not listed, and the word holds what the drum's last turn left. -/
theorem test_dch_into_window : observe (fun t => (t.mem, t.core 0 0o2000)) (exec (.dch 0o1000) windowed) =
    some ([(0o1000, 0o202000#18)], Config.drumWord 2 0 0o2000) := rfl

theorem witness_MemoryReferenceTrapsOrIsRefused :
    Instr.tadI 0 ∈ [Instr.lch 0, .lchI 0, .dch 0, .dchI 0, .tad 0, .tadI 0] ∧ forbidden.Forbidden ∧ ambiguous.Unaddressable :=
  ⟨by decide, forbidden_forbidden, ambiguous_unaddressable⟩

/-- E6, E7 and R101's examples: each clause at its boundary. -/
theorem witness_PointerStep :
    stepPtr false 0o002000 = 0o202000 ∧ stepPtr false 0o602007 = 0o202010 ∧ stepPtr true 0o602007 = 0o202000
      ∧ stepPtr false 0o607777 = 0o200000 ∧ stepPtr true 0o607777 = 0o207770
      ∧ ((0o607777#18).extractLsb' 16 2).toNat = 3 ∧ ((0o402000#18).extractLsb' 16 2).toNat = 2 := by decide

theorem witness_RingReturnsAfterTwentyFourSteps :
    (0o207777#18).extractLsb' 16 2 ≠ 0#2 ∧ (stepPtr true)^[3] 0o207777 = 0o207770 := by decide

theorem witness_RingModeDoesNotTouchPlainForms :
    Instr.dch 0o7777 ∈ [Instr.lch 0o7777, .dch 0o7777, .tad 0o7777] ∧ ∃ t, exec (.dch 0o7777) start = .next t :=
  ⟨by decide, _, execDch_made rfl rfl _ rfl rfl⟩

/-- A pointer at 1000 to the second character of 2000. -/
def pointing : State := { start with mem := [(0o1000, 0o402000#18), (0o2000, 0o707172#18)], ac := 0o616263 }

theorem witness_DepositedCharacterIsLoaded :
    ∃ t u, pointing.Addresses 0 ∧ pointing.inDoubt 0 0o1000 = false
      ∧ pointing.inDoubt 0 ((pointing.core 0 0o1000).extractLsb' 0 12) = false
      ∧ (pointing.core 0 0o1000).extractLsb' 0 12 ≠ 0o1000
      ∧ exec (.dch 0o1000) pointing = .next t ∧ exec (.lch 0o1000) t = .next u :=
  ⟨_, _, (State.addresses_iff _ _).2 (by decide), rfl, rfl, by decide, execDch_made rfl rfl _ rfl rfl, execLch_made rfl rfl _ rfl rfl⟩

theorem witness_ThreeDepositsRestoreAC :
    ∃ t u v, pointing.Addresses 0 ∧ exec (.dch 0o1000) pointing = .next t ∧ exec (.dch 0o7777) t = .next u
      ∧ exec (.dch 0) u = .next v :=
  ⟨_, _, _, (State.addresses_iff _ _).2 (by decide), execDch_made rfl rfl _ rfl rfl, execDch_made rfl rfl _ rfl rfl, execDch_made rfl rfl _ rfl rfl⟩

/-- Both clauses, at the last bit of I/O. -/
theorem witness_SkipsOnIO :
    (∃ k < 18, (1#18).getMsbD k = true) ∧ ∀ k < 18, (0#18).getMsbD k = false :=
  ⟨⟨17, by decide, by decide⟩, fun _ _ => by simp⟩

theorem witness_SkipsOnLink :
    start.link = false ∧ State.link { start with link := true } = true
      ∧ SpcActs.szl ⟨true, true, true, true, true, true, true, false, true, true⟩ = false := by decide

theorem witness_SpecialOperateWord :
    (true = true ∧ SpcActs.szl ⟨false, false, false, false, false, false, false, false, false, false⟩ = false)
      ∧ (false = false ∨ SpcActs.szl ⟨false, false, false, false, false, false, false, false, false, false⟩ = true)
      ∧ (true = false ∨ SpcActs.szl ⟨false, false, false, false, false, false, false, true, false, false⟩ = true) := by decide

theorem witness_CombinedWords : start.ring = false ∧ start.link = false := ⟨rfl, rfl⟩

theorem witness_InOutTransfersTrapInRestrictMode : Instr.isIot .lrm = true ∧ restricted.rm = true := ⟨rfl, rfl⟩

theorem witness_InOutTransfersLeaveTheProcessor :
    Instr.isIot .rsm = true ∧ (∃ t, exec .rsm start = .next t) ∧ Instr.rsm ≠ .erg ∧ Instr.rsm ≠ .lrg
      ∧ ∃ t, exec .rsm restricted = .next t :=
  ⟨rfl, ⟨_, rfl⟩, by decide, by decide, _, rfl⟩

/-- Normal mode: the one hypothesis of every statement of an in-out transfer's effect. -/
theorem witness_normal_mode : start.rm = false := rfl

/-- A read of two words into 2000 and 2001 of the memory named `m`, physical memory 0, that may still be running. -/
def running (m : MemNo) : State :=
  { start with
    names := #v[m, 1, 2, 3]
    drum := { start.drum with
      memory := m, coreAddress := 0o2000, wordCount := 2, go := true, rewrites := true, windows := [⟨0, 0o2000, 2⟩] } }

/-- The same transfer with every memory since named `n`. -/
def allNamed (m n : MemNo) : State := { running m with names := #v[n, n, n, n] }

theorem allNamed_nameOf (m n p : MemNo) : (allNamed m n).nameOf p = n := by
  have : p = 0#2 ∨ p = 1#2 ∨ p = 2#2 ∨ p = 3#2 := by
    revert p
    decide
  rcases this with rfl | rfl | rfl | rfl <;> rfl

/-- With the transfer running, the memory to which RNM alone gives its name joins its window, at its last word and not beyond. -/
theorem witness_MemoryNames (xx : BitVec 6) :
    let s := allNamed (Config.rnmXY xx).2 ((Config.rnmXY xx).2 + 1#2)
    s.rm = false ∧ s.drum.go = true ∧ s.drum.rewrites = true
      ∧ ∃ t, exec (.rnm xx) s = .next t ∧ (∀ q, t.nameOf q = s.drum.memory ↔ q = (Config.rnmXY xx).1)
        ∧ t.inDoubt (Config.rnmXY xx).1 0o2001 = true
        ∧ ((Config.rnmXY xx).1 ≠ 0 → t.inDoubt (Config.rnmXY xx).1 0o2002 = false) := by
  have hn : ∀ q, State.nameOf ((allNamed (Config.rnmXY xx).2 ((Config.rnmXY xx).2 + 1#2)).rename
      ((allNamed (Config.rnmXY xx).2 ((Config.rnmXY xx).2 + 1#2)).names.set (Config.rnmXY xx).1.toFin (Config.rnmXY xx).2)) q
        = (Config.rnmXY xx).2 ↔ q = (Config.rnmXY xx).1 := by
    intro q
    rw [State.nameOf_rename_set, allNamed_nameOf]
    generalize (Config.rnmXY xx).2 = y
    have : y + 1#2 ≠ y := by
      revert y
      decide
    by_cases h : q = (Config.rnmXY xx).1 <;> simp [h, this]
  refine ⟨rfl, rfl, rfl, _, execRnm_normal rfl xx, hn, (State.inDoubt_rename_iff ..).2
    (.inr ⟨rfl, rfl, hn, show 0o2000 ≤ 0o2001 ∧ 0o2001 < 0o2000 + 2 by decide⟩), fun h => ?_⟩
  rw [← Bool.not_eq_true, State.inDoubt_rename_iff]
  rintro (h' | ⟨-, -, -, -, h'⟩)
  · obtain ⟨w, hw, hc⟩ := List.any_eq_true.1 h'
    obtain rfl : w = ⟨0, 0o2000, 2⟩ := by simpa [allNamed, running] using hw
    exact h ((Window.covers_iff ..).1 hc).1
  · exact absurd h' (show ¬0o2002 < 0o2000 + 2 by decide)

/-- A name left borne by several memories, or by none, brings no memory under the window. -/
theorem test_rename_ambiguous :
    (State.rename #v[0, 0, 2, 3] (running 0)).drum.windows = [⟨0, 0o2000, 2⟩]
      ∧ (State.rename #v[1, 1, 2, 3] (running 0)).drum.windows = [⟨0, 0o2000, 2⟩] := by decide

/-- R53, D23: with the name DCL gave borne twice, or by no memory, a step is refused if the transfer still runs, which a
constant without a body decides, and is run otherwise. -/
theorem witness_DrumUnaddressable (names : Vector MemNo 4) (h : names ∈ [#v[0, 2, 2, 3], #v[0, 1, 3, 3]])
    (hb : Config.drumBusy 0 = true ∨ Config.drumBusy 0 = false) :
    let s := { running 2 with names := names, pc := 0o100, mem := [(0o100, 0o740400#18)] }
    s.NoBreak ∧ ((s.DrumUnaddressable ∧ step s = .refused .memoryName)
      ∨ (¬s.DrumUnaddressable ∧ ∃ t, step s = .next t ∧ t.ac = 1)) := by
  intro s
  have hr : s.resolve 2 = none := by
    simp only [List.mem_cons, List.not_mem_nil, or_false] at h
    rcases h with h | h <;> exact (State.resolve_congr (s := { start with names := names }) rfl 2).trans (by rw [h]; decide)
  have hm : s.resolve 0 = some 0 := by
    simp only [List.mem_cons, List.not_mem_nil, or_false] at h
    rcases h with h | h <;> exact (State.resolve_congr (s := { start with names := names }) rfl 0).trans (by rw [h]; decide)
  refine ⟨⟨rfl, rfl, rfl⟩, ?_⟩
  rcases hb with hb | hb
  · have hd : s.DrumUnaddressable := s.drumUnaddressable_iff.2 ⟨s.transferRunning_iff.2 ⟨rfl, hb⟩, hr⟩
    exact .inl ⟨hd, drumAccess_refused hd _⟩
  · have hd : ¬s.DrumUnaddressable := fun hd => Bool.noConfusion (hb.symm.trans hd.2.1)
    have hs : step s = runWord 0o740400 { s with ma := s.pc, mb := 0o740400, turns := s.turns + 1 } :=
      (drumAccess_made hd _).trans (memRead_made rfl hm _ _ rfl)
    exact .inr ⟨hd, _, hs, rfl⟩

/-- R196: RSM with every memory under its own number already changes nothing, a drum read that may still be running or not. -/
theorem test_rsm_changes_nothing :
    exec .rsm { running 0 with mem := [(0o1777, 5#18), (4096 + 0o2000, 6#18)] } =
      .next { running 0 with mem := [(0o1777, 5#18), (4096 + 0o2000, 6#18)] } := rfl

/-- R195, R53: a memory that takes the name the drum's read goes by may be rewritten too, and the one that loses it stays in doubt. -/
theorem test_rename_moves_window :
    let s := State.rename #v[1, 0, 2, 3] { running 0 with mem := [(4096 + 0o2000, 6#18), (4096 + 0o2002, 7#18)] }
    s.drum.windows = [⟨1, 0o2000, 2⟩, ⟨0, 0o2000, 2⟩] ∧ s.mem = [(4096 + 0o2002, 7#18)] := by decide

/-- In order and out of it: DIA, or DBA alone, and DWC. -/
theorem witness_DrumAddressAndCount :
    (start.rm = false ∧ start.drum.sequence = .none ∧ start.drum.go = false)
      ∧ start.drum.sequence ∉ [.addressGiven, .breakGiven]
      ∧ (State.drumInitial start).rm = false ∧ (State.drumInitial start).drum.sequence ∉ [.none, .breakGiven]
      ∧ (State.drumInitial start).drum.sequence ∈ [.addressGiven, .breakGiven]
      ∧ (State.drumBreak start).rm = false ∧ (State.drumBreak start).drum.sequence ∈ [.none, .breakGiven]
      ∧ (State.drumBreak start).drum.sequence ∈ [.addressGiven, .breakGiven]
      ∧ (State.drumBreak start).drum.go = false ∧ (State.drumBreak start).drum.sequence = .breakGiven
      ∧ (State.drumCount start).drum.sequence ∉ [.none, .breakGiven] := by decide

/-- After a GO the one clause or the other applies, and the constant that decides has no body. -/
theorem witness_DrumAddressAndCount_after_go (h : Config.drumBusy windowed.turns = true ∨ Config.drumBusy windowed.turns = false) :
    windowed.rm = false ∧ windowed.drum.sequence = .none ∧ windowed.drum.go = true
      ∧ (exec (.dia 0) windowed = .refused .drumBusy
          ∨ exec (.dia 0) windowed = .next (State.devOut (.drumDia 0) windowed.drumInitial)) := by
  refine ⟨rfl, rfl, rfl, ?_⟩
  have hb : State.transferRunning windowed = Config.drumBusy windowed.turns := Bool.true_and _
  rw [← hb] at h
  rcases h with h | h
  · exact .inl ((execDia_normal rfl).trans (beginSequence_running (by decide) h _))
  · exact .inr ((execDia_normal rfl).trans (beginSequence_idle (by decide) h _))

/-- R224: a DBA is executed after GO, before a DIA, and in place of one; R293: after one between DIA and DWC the DWC is refused,
and after one between DWC and DCL the DCL. -/
theorem test_dba_anywhere :
    (∃ t, exec .dba windowed = .next t)
      ∧ (∃ t u v, exec .dba start = .next t ∧ exec (.dia 0) t = .next u ∧ exec (.dwc 0) t = .next v)
      ∧ (∃ t, exec .dba start.drumInitial = .next t ∧ exec (.dwc 0) t = .refused .drumOrder)
      ∧ ∃ t, exec .dba (sequenced 0 true false 1) = .next t ∧ exec .dcl t = .refused .drumOrder :=
  ⟨⟨_, rfl⟩, ⟨_, _, _, rfl, rfl, rfl⟩, ⟨_, rfl, rfl⟩, _, rfl, rfl⟩

/-- `sequenced` meets the hypotheses of a DCL in order for a memory whose name is borne once, whatever I/O selects. -/
theorem sequenced_in_order (io : Word) (read write : Bool) (count : BitVec 12) :
    let s := sequenced io read write count
    s.rm = false ∧ s.drum.sequence = .countGiven
      ∧ ∀ q, s.nameOf q = s.io.extractLsb' 14 2 ↔ q = s.io.extractLsb' 14 2 := by
  refine ⟨rfl, rfl, fun q => ?_⟩
  have : ∀ q, State.nameOf (sequenced io read write count) q = q :=
    fun q => (by decide : ∀ q : MemNo, physicalNames.get q.toFin = q) q
  rw [this]

/-- A transfer with a meaning, a read and a write, each of whose addresses ends at 7777: start plus count is 4096. -/
theorem witness_DrumGo_meaning :
    let s := sequenced 0o047777 true false 1
    let t := { sequenced 0 false true 1 with drum := { (sequenced 0 false true 1).drum with initialAddress := 0o7777 } }
    (s.drum.read ≠ s.drum.write ∧ s.drum.wordCount ≠ 0#12
        ∧ (s.io.extractLsb' 0 12).toNat + s.drum.wordCount.toNat = 4096
        ∧ s.drum.initialAddress.toNat + s.drum.wordCount.toNat ≤ 4096)
      ∧ t.drum.read ≠ t.drum.write ∧ t.drum.wordCount ≠ 0#12
        ∧ (t.io.extractLsb' 0 12).toNat + t.drum.wordCount.toNat ≤ 4096
        ∧ t.drum.initialAddress.toNat + t.drum.wordCount.toNat = 4096 := by decide

/-- The refusal of the order, and each way to have no meaning: both bits, neither, no word, one word more than the memory has
left, one more than the field has. -/
theorem witness_DrumGo_refused :
    (start.rm = false ∧ start.drum.sequence ≠ .countGiven)
      ∧ (sequenced 0 true true 1).drum.read = (sequenced 0 true true 1).drum.write
      ∧ (sequenced 0 false false 1).drum.read = (sequenced 0 false false 1).drum.write
      ∧ (sequenced 0 false true 0).drum.wordCount = 0#12
      ∧ 4096 < ((0o047777#18).extractLsb' 0 12).toNat + (sequenced 0o047777 true false 2).drum.wordCount.toNat
      ∧ 4096 < (0o7777#12).toNat + (sequenced 0 true false 2).drum.wordCount.toNat := by decide

/-- U18: DCL of a transfer without a meaning is refused, a read or a write; R53, D23: and one of a name borne twice. -/
theorem test_dcl_refused :
    exec .dcl (sequenced 0 true true 1) = .refused .drumTransfer ∧ exec .dcl (sequenced 0 false false 1) = .refused .drumTransfer
      ∧ exec .dcl (sequenced 0 false true 0) = .refused .drumTransfer
      ∧ exec .dcl (sequenced 0o047777 false true 2) = .refused .drumTransfer
      ∧ exec .dcl { sequenced 0 true false 2 with drum := { (sequenced 0 true false 2).drum with initialAddress := 0o7777 } } =
        .refused .drumTransfer
      ∧ exec .dcl { sequenced 0 true false 1 with names := #v[0, 0, 2, 3] } = .refused .memoryName :=
  ⟨rfl, rfl, rfl, rfl, rfl, rfl⟩

/-- The last refusal: the name DCL selects is borne by two memories, or by none. -/
theorem witness_DrumGo_unnamed :
    let s := { sequenced 0 true false 1 with names := #v[0, 0, 2, 3] }
    let t := { sequenced 0 true false 1 with names := #v[1, 1, 2, 3] }
    (s.rm = false ∧ s.drum.sequence = .countGiven ∧ (s.drum.located s.io).hasMeaning = true
        ∧ ∀ p, ∃ q, ¬(s.nameOf q = s.io.extractLsb' 14 2 ↔ q = p))
      ∧ t.rm = false ∧ t.drum.sequence = .countGiven ∧ (t.drum.located t.io).hasMeaning = true
        ∧ ∀ p, ∃ q, ¬(t.nameOf q = t.io.extractLsb' 14 2 ↔ q = p) :=
  ⟨⟨rfl, rfl, rfl, (State.resolve_eq_none_iff _ _).1 rfl⟩, rfl, rfl, rfl, (State.resolve_eq_none_iff _ _).1 rfl⟩

/-- R226, R49: DCL hands its window to the drum and nothing beside it. -/
theorem test_drum_in_order :
    let s := State.drumGo 1 { sequenced 0o042000 true false 2 with mem := [(0o12000, 1#18), (0o12001, 2#18), (0o12002, 3#18)] }
    s.drum.windows = [⟨1, 0o2000, 2⟩] ∧ s.mem = [(0o12002, 3#18)] := by decide

/-- R293, U18: a repeated DIA is refused. -/
theorem test_drum_repeated : exec (.dia 0) start.drumInitial = .refused .drumOrder := rfl

/-- R293, U18: a DWC with no DIA before it is refused. -/
theorem test_drum_stray : exec (.dwc 0) start = .refused .drumOrder := rfl

theorem witness_DisplayTransfers : start.rm = false ∧ start.display.lightPen = false := ⟨rfl, rfl⟩

theorem witness_CharacterGeneratorTransfers : start.rm = false ∧ start.chargen.autoSpacing = false := ⟨rfl, rfl⟩

/-- The three ways a step moves PC: SZI skipping from 7776, an index, a trap at the fetch. -/
theorem witness_ProgramCounterAdvances :
    (∃ t, step (about 0o654000) = .next t ∧ t.pc = (about 0o654000).pc + 2#12)
      ∧ (∃ t, step (about 0o740400) = .next t ∧ t.pc = (about 0o740400).pc + 1#12)
      ∧ ∃ t, step forbidden = .next t ∧ t.pc = forbidden.pc :=
  ⟨⟨_, rfl, rfl⟩, ⟨_, rfl, rfl⟩, _, rfl, rfl⟩

theorem witness_HistoryOnlyGrows : ∃ t, step (about 0o720127) = .next t ∧ t.history = [.displayGcf] := ⟨_, rfl, rfl⟩

theorem witness_WritersOfLinkAndRing :
    (∃ t, exec (.cml 0) start = .next t ∧ t.link ≠ start.link) ∧ ∃ t, exec .erg start = .next t ∧ t.ring ≠ start.ring :=
  ⟨⟨_, rfl, by decide⟩, _, rfl, by decide⟩

theorem witness_WritersOfCore :
    (∃ t, exec (.dch 0o1000) pointing = .next t ∧ t.inDoubt 0 0o2000 = false ∧ t.core 0 0o2000 ≠ pointing.core 0 0o2000)
      ∧ ∃ s t, step s = .next t ∧ ¬s.Forbidden ∧ s.inDoubt 0 0o2000 = true :=
  ⟨⟨_, execDch_made rfl rfl _ rfl rfl, rfl, by decide⟩,
    { about 0o740400 with drum := { windowed.drum with go := false } }, _, rfl, fun h => absurd h.1 (by decide), rfl⟩

/-- A restricted program about to deposit a character in the memory it may write, while memory 3 is protected. -/
def depositing : State :=
  { restricted with pc := 0o100, mem := [(4096 + 0o100, 0o141000#18), (4096 + 0o1000, 0o402000#18)] }

theorem witness_RestrictModeIsConfined :
    depositing.rm = true ∧ ∃ t, step depositing = .next t ∧ t.breaks.restrict = none := ⟨rfl, _, rfl, rfl⟩

theorem witness_ProtectedMemoryIsNotWritten :
    depositing.rm = true ∧ depositing.prot.getMsbD (depositing.nameOf 3).toNat = true ∧ ∃ t, step depositing = .next t :=
  ⟨rfl, rfl, _, rfl⟩

theorem witness_ProtectedMemoryIsNotRead :
    restricted.rm = true ∧ SameUnprotected restricted { restricted with mem := [(3 * 4096, 5#18)] } := by
  refine ⟨rfl, fun p a h => ?_⟩
  have hp : p ≠ 3#2 := by
    rintro rfl
    exact absurd h (by decide)
  have hk : coreKey p a ≠ coreKey 3#2 0#12 := fun hk => hp (coreKey_inj hk).1
  show (Memory.wordAt (coreKey p a) (Memory.store (coreKey 3#2 0#12) 5#18 [])).getD _ = _
  rw [Memory.wordAt_store_other hk]
  rfl

/-- Before the entry into restrict mode, and in a restricted program. -/
theorem witness_InvariantIsKept :
    (State.Inv { about 0o720065 with io := 0o000360 } ∧ ∃ t, step { about 0o720065 with io := 0o000360 } = .next t)
      ∧ depositing.Inv ∧ ∃ t, step depositing = .next t :=
  ⟨⟨⟨by decide, fun h => absurd rfl h, ⟨rfl, rfl⟩, fun _ => rfl, fun _ _ => rfl, fun h => absurd h (by decide)⟩, _, rfl⟩,
    ⟨by decide, fun h => absurd rfl h, ⟨rfl, rfl⟩, fun h => absurd h (by decide), fun _ _ => rfl,
      fun h => absurd h (by decide)⟩, _, rfl⟩

end Sys2Proof.Tests
end

section
/-! SUPPORT. What a step and an instruction that answer a next state can have done: the branches of the step, and, for
each group of instructions, what becomes of PC, the link, RNG and the rest of the processor
(spec/10_state.md R8, R12 to R14, spec/60_exceptions.md R261). -/

namespace Sys2Proof.Machine

/-! The step. -/

theorem State.seqBreakEntry_eq_none_iff (s : State) : s.seqBreakEntry = none ↔ s.NoBreak := by
  unfold State.seqBreakEntry State.NoBreak
  cases s.breaks.restrict with
  | some cause => simp
  | none => cases s.breaks.drum <;> simp

/-- A step whose fetch is made runs the word fetched. -/
theorem step_made {s : State} {p : MemNo} (hb : s.NoBreak) (hd : ¬s.DrumUnaddressable) (hp : s.Addresses p) :
    step s = runWord (s.core p s.pc) (s.afterRead p s.pc) := by
  obtain ⟨hblocked, hname⟩ := (s.addresses_iff p).1 hp
  rw [step, s.seqBreakEntry_eq_none_iff.2 hb]
  exact (drumAccess_made hd _).trans (access_made hblocked hname _)

theorem runWord_ok {w : Word} {i : Instr} (h : decode w = .ok i) (s : State) : runWord w s = exec i s.advance := by
  rw [runWord, h]

theorem runWord_error {w : Word} {why : Reject} (h : decode w = .error why) (s : State) :
    runWord w s = execUnmatched w why s.advance := by
  rw [runWord, h]

/-- A word that is no instruction has a next state only by a trap (R261). -/
theorem execUnmatched_next {w : Word} {why : Reject} {s t : State} (h : execUnmatched w why s = .next t) :
    s.rm = true ∧ ∃ cause, t = s.restrictTrap cause := by
  unfold execUnmatched at h
  split_ifs at h with hiot hhlt _ hrm
  · exact ⟨(Bool.and_eq_true_iff.1 hiot).1, _, (Host.Outcome.next.inj h).symm⟩
  · exact ⟨(Bool.and_eq_true_iff.1 hhlt).1, _, (Host.Outcome.next.inj h).symm⟩
  · exact ⟨hrm, _, (Host.Outcome.next.inj h).symm⟩

/-- Everything a step that answers a next state can be: the trap of a forbidden fetch, the instruction fetched, or the
trap of a word that is none. -/
theorem step_next_cases {s t : State} (h : step s = .next t) :
    (s.Forbidden ∧ t = s.restrictTrap .protectedMemory)
      ∨ ∃ p, s.Addresses p
        ∧ ((∃ i, decode (s.core p s.pc) = .ok i ∧ exec i (s.afterRead p s.pc).advance = .next t)
          ∨ (s.rm = true ∧ (∃ why, decode (s.core p s.pc) = .error why)
            ∧ ∃ cause, t = (s.afterRead p s.pc).advance.restrictTrap cause)) := by
  obtain ⟨-, -, hread⟩ := step_next h
  rcases access_next_cases hread with ⟨hblocked, ht⟩ | ⟨p, hblocked, hname, hrun⟩
  · exact .inl ⟨s.forbidden_iff.2 hblocked, ht⟩
  · refine .inr ⟨p, (s.addresses_iff p).2 ⟨hblocked, hname⟩, ?_⟩
    cases hdec : decode (s.core p s.pc) with
    | ok i => exact .inl ⟨i, rfl, (runWord_ok hdec _).symm.trans hrun⟩
    | error why =>
      obtain ⟨hrm, htrap⟩ := execUnmatched_next ((runWord_error hdec _).symm.trans hrun)
      exact .inr ⟨hrm, ⟨why, rfl⟩, htrap⟩

/-! The groups of instructions. -/

/-- Every instruction is an in-out transfer, refers to memory, skips, is SPC, or does one thing to the registers. -/
theorem instr_groups (i : Instr) :
    i.isIot = true
      ∨ (∃ y, i ∈ [Instr.lch y, .lchI y, .dch y, .dchI y, .tad y, .tadI y])
      ∨ (∃ x, i ∈ [Instr.sni, .szi, .szl x, .szlRev x])
      ∨ (∃ rev acts x, i = .spc rev acts x)
      ∨ ∃ x, i ∈ [Instr.lia, .lai, .swp, .cmi, .iif x, .ifi x, .idc x, .ida x, .scm x, .sci x, .scf x, .cll x, .cml x] := by
  cases i <;> simp [Instr.isIot]

/-- What in-out transfer `i` leaves alone: AC, PC, the link, the program flags, and but for ERG and LRG, RNG. -/
structure LeavesProcessor (i : Instr) (s t : State) : Prop where
  ac : t.ac = s.ac
  pc : t.pc = s.pc
  link : t.link = s.link
  pf : t.pf = s.pf
  ring : i ≠ .erg → i ≠ .lrg → t.ring = s.ring

/-- What holds of the trap and of the operation of an in-out transfer holds of its next state (R190). -/
theorem inOut_next {s t : State} {k : State → Result} {P : State → Prop} (h : inOut s k = .next t)
    (htrap : P (s.restrictTrap .iot)) (hk : ∀ u, k s = .next u → P u) : P t := by
  unfold inOut at h
  split at h
  · exact Host.Outcome.next.inj h ▸ htrap
  · exact hk t h

theorem inDrumOrder_next {places : List DrumSequence} {s t : State} {k : State → Result}
    (h : inDrumOrder places s k = .next t) : s.drum.sequence ∈ places ∧ k s = .next t := by
  unfold inDrumOrder at h
  split at h
  · next hs => exact ⟨hs, h⟩
  · cases h

theorem beginSequence_next {s t : State} {k : State → Result} (h : beginSequence s k = .next t) :
    s.transferRunning = false ∧ k s = .next t := by
  rcases beginSequence_cases s k with ⟨-, hrun, he⟩ | ⟨-, he⟩ | ⟨-, -, he⟩
  · exact ⟨hrun, he.symm.trans h⟩
  · exact nomatch he.symm.trans h
  · exact nomatch he.symm.trans h

theorem withMeaning_next {s t : State} {r : Result} (h : withMeaning s r = .next t) :
    (s.drum.located s.io).hasMeaning = true ∧ r = .next t := by
  unfold withMeaning at h
  split at h
  · next hm => exact ⟨hm, h⟩
  · cases h

theorem named_next {m : MemNo} {s t : State} {k : MemNo → Result} (h : named m s k = .next t) :
    ∃ p, s.resolve m = some p ∧ k p = .next t := by
  unfold named at h
  split at h
  · cases h
  · next p hp => exact ⟨p, hp, h⟩

/-- No in-out transfer touches AC, PC, the link or the program flags, and only ERG and LRG touch RNG (R190 to R192). -/
theorem exec_iot_leavesProcessor {i : Instr} {s t : State} (hi : i.isIot = true) (h : exec i s = .next t) :
    LeavesProcessor i s t := by
  have htrap : LeavesProcessor i s (s.restrictTrap .iot) := ⟨rfl, rfl, rfl, rfl, fun _ _ => rfl⟩
  cases i with
  | lch | lchI | dch | dchI | tad | tadI | sni | szi | lia | lai | swp | cmi | spc | iif | ifi | idc | ida | scm | sci
  | scf | szl | cll | cml | szlRev => cases hi
  | dia =>
    rw [exec] at h
    refine inOut_next h htrap fun u hu => ?_
    cases (beginSequence_next hu).2
    exact ⟨rfl, rfl, rfl, rfl, fun _ _ => rfl⟩
  | dwc =>
    rw [exec] at h
    refine inOut_next h htrap fun u hu => ?_
    cases (inDrumOrder_next hu).2
    exact ⟨rfl, rfl, rfl, rfl, fun _ _ => rfl⟩
  | dcl =>
    rw [exec] at h
    refine inOut_next h htrap fun u hu => ?_
    obtain ⟨p, -, hp⟩ := named_next (withMeaning_next (inDrumOrder_next hu).2).2
    cases hp
    exact ⟨rfl, rfl, rfl, rfl, fun _ _ => rfl⟩
  | erg | lrg | lrm | erm | rsm | rnm | rck | ctb | rro | rri | dba | dra | rch | rcc | tcc | tcb | rrc | ssb | rsc
  | dpy | sdb | gpl | gpr | gcf | glf | gsp =>
    rw [exec] at h
    refine inOut_next h htrap ?_
    rintro _ ⟨⟩
    constructor <;> simp

/-- A memory reference that answers a next state trapped, or its memory was addressed. -/
theorem exec_memoryReference_access {i : Instr} {y : Addr} {s t : State}
    (hi : i ∈ [Instr.lch y, .lchI y, .dch y, .dchI y, .tad y, .tadI y]) (h : exec i s = .next t) :
    t = s.restrictTrap .protectedMemory ∨ ∃ p, s.blocked = false ∧ s.resolve s.mcur = some p := by
  have hstops : ∀ r, (∀ k, access s k = r) → r = .next t := by
    intro r hr
    obtain ⟨hlch, hlchI, hdch, hdchI, htad, htadI⟩ := execMemoryReference_stops hr y
    simp only [List.mem_cons, List.not_mem_nil, or_false] at hi
    rcases hi with rfl | rfl | rfl | rfl | rfl | rfl
    exacts [hlch.symm.trans h, hlchI.symm.trans h, hdch.symm.trans h, hdchI.symm.trans h, htad.symm.trans h,
      htadI.symm.trans h]
  rcases s.access_trichotomy with hf | hu | ⟨p, hp⟩
  · exact .inl (Host.Outcome.next.inj (hstops _ (access_blocked (s.forbidden_iff.1 hf)))).symm
  · obtain ⟨hblocked, hname⟩ := s.unaddressable_iff.1 hu
    exact nomatch hstops _ (access_unnamed hblocked hname)
  · exact .inr ⟨p, (s.addresses_iff p).1 hp⟩

/-- No memory reference touches PC or RNG, and of them only TAD and TAD i the link (R107, R110). -/
theorem exec_memoryReference_frame {i : Instr} {y : Addr} {s t : State}
    (hi : i ∈ [Instr.lch y, .lchI y, .dch y, .dchI y, .tad y, .tadI y]) (h : exec i s = .next t) :
    t.pc = s.pc ∧ t.ring = s.ring ∧ (t.link = s.link ∨ i ∈ [Instr.tad y, .tadI y]) := by
  rcases exec_memoryReference_access hi h with rfl | ⟨p, hb, hr⟩
  · exact ⟨rfl, rfl, .inl rfl⟩
  · simp only [List.mem_cons, List.not_mem_nil, or_false] at hi
    rcases hi with rfl | rfl | rfl | rfl | rfl | rfl
    · cases (execLch_made hb hr y rfl rfl).symm.trans h
      exact ⟨rfl, rfl, .inl rfl⟩
    · cases (execLchI_made hb hr y rfl rfl).symm.trans h
      exact ⟨rfl, rfl, .inl rfl⟩
    · cases (execDch_made hb hr y rfl rfl).symm.trans h
      exact ⟨rfl, rfl, .inl rfl⟩
    · cases (execDchI_made hb hr y rfl rfl).symm.trans h
      exact ⟨rfl, rfl, .inl rfl⟩
    · cases (execTad_made hb hr y rfl).symm.trans h
      exact ⟨rfl, rfl, .inr (by simp)⟩
    · cases (execTadI_made hb hr y rfl).symm.trans h
      exact ⟨rfl, rfl, .inr (by simp)⟩

/-- A skip instruction skips or does nothing (R130, R131, R159, R160). -/
theorem exec_skip {i : Instr} {x : BitVec 2} (hi : i ∈ [Instr.sni, .szi, .szl x, .szlRev x]) (s : State) :
    ∃ c, exec i s = .next (s.skipIf c) := by
  simp only [List.mem_cons, List.not_mem_nil, or_false] at hi
  rcases hi with rfl | rfl | rfl | rfl <;> exact ⟨_, rfl⟩

theorem execSpc_next {rev : Bool} {acts : SpcActs} {s t : State} (h : execSpc rev acts s = .next t) :
    t = State.skipIf (s.skipNoted rev acts) (eventFour acts (eventThree acts (eventTwo acts (eventOne acts s)))) := by
  unfold execSpc at h
  split at h
  · cases h
  · exact (Host.Outcome.next.inj h).symm

/-- The instructions that do one thing to the registers leave PC, and only those on flags write the link or RNG. -/
theorem exec_register_frame {i : Instr} {x : BitVec 2} {s t : State}
    (hi : i ∈ [Instr.lia, .lai, .swp, .cmi, .iif x, .ifi x, .idc x, .ida x, .scm x, .sci x, .scf x, .cll x, .cml x])
    (h : exec i s = .next t) :
    t.pc = s.pc ∧ (t.link = s.link ∨ i ∈ [Instr.ifi x, .scf x, .cll x, .cml x])
      ∧ (t.ring = s.ring ∨ i ∈ [Instr.ifi x, .scf x]) := by
  simp only [List.mem_cons, List.not_mem_nil, or_false] at hi
  rcases hi with rfl | rfl | rfl | rfl | rfl | rfl | rfl | rfl | rfl | rfl | rfl | rfl | rfl <;> cases h <;> simp

/-! PC, the link and RNG after any instruction. -/

/-- An instruction leaves PC or skips (R8). -/
theorem exec_pc {i : Instr} {s t : State} (h : exec i s = .next t) : t.pc = s.pc ∨ t.pc = s.pc + 1#12 := by
  rcases instr_groups i with hi | ⟨y, hi⟩ | ⟨x, hi⟩ | ⟨rev, acts, x, rfl⟩ | ⟨x, hi⟩
  · exact .inl (exec_iot_leavesProcessor hi h).pc
  · exact .inl (exec_memoryReference_frame hi h).1
  · obtain ⟨c, hc⟩ := exec_skip hi s
    cases hc.symm.trans h
    rw [State.skipIf_pc]
    split <;> simp
  · rw [execSpc_next h, State.skipIf_pc]
    split <;> simp
  · exact .inl (exec_register_frame hi h).1

/-- The writers of the link (R13). -/
theorem exec_link {i : Instr} {s t : State} (h : exec i s = .next t) :
    t.link = s.link ∨ ∃ y rev acts x, i ∈ [Instr.tad y, .tadI y, .ifi x, .scf x, .cll x, .cml x, .spc rev acts x] := by
  rcases instr_groups i with hi | ⟨y, hi⟩ | ⟨x, hi⟩ | ⟨rev, acts, x, rfl⟩ | ⟨x, hi⟩
  · exact .inl (exec_iot_leavesProcessor hi h).link
  · obtain ⟨-, -, hlink⟩ := exec_memoryReference_frame hi h
    exact hlink.imp_right fun hw => ⟨y, false, .ofBits 0, 0, List.mem_append_left _ hw⟩
  · obtain ⟨c, hc⟩ := exec_skip hi s
    cases hc.symm.trans h
    exact .inl (s.skipIf_link c)
  · exact .inr ⟨0, rev, acts, x, by simp⟩
  · obtain ⟨-, hlink, -⟩ := exec_register_frame hi h
    exact hlink.imp_right fun hw => ⟨0, false, .ofBits 0, x, List.mem_append_right [_, _] (List.mem_append_left _ hw)⟩

/-- The writers of RNG (R14). -/
theorem exec_ring {i : Instr} {s t : State} (h : exec i s = .next t) :
    t.ring = s.ring ∨ ∃ rev acts x, i ∈ [Instr.erg, .lrg, .ifi x, .scf x, .spc rev acts x] := by
  rcases instr_groups i with hi | ⟨y, hi⟩ | ⟨x, hi⟩ | ⟨rev, acts, x, rfl⟩ | ⟨x, hi⟩
  · by_cases hw : i ∈ [Instr.erg, .lrg]
    · exact .inr ⟨false, .ofBits 0, 0, List.mem_append_left _ hw⟩
    · exact .inl ((exec_iot_leavesProcessor hi h).ring (by simp_all) (by simp_all))
  · exact .inl (exec_memoryReference_frame hi h).2.1
  · obtain ⟨c, hc⟩ := exec_skip hi s
    cases hc.symm.trans h
    exact .inl (s.skipIf_ring c)
  · exact .inr ⟨rev, acts, x, by simp⟩
  · obtain ⟨-, -, hring⟩ := exec_register_frame hi h
    exact hring.imp_right fun hw => ⟨false, .ofBits 0, x, List.mem_append_right [_, _] (List.mem_append_left _ hw)⟩

/-! The flag byte and I/O bits 10 to 17, bit by bit (R16). -/

theorem State.flags8_getMsbD_zero (s : State) : s.flags8.getMsbD 0 = s.link :=
  (BitVec.getMsbD_append (n := 2) (m := 6)).trans ((BitVec.getMsbD_append (n := 1) (m := 1)).trans (by simp))

theorem State.flags8_getMsbD_one (s : State) : s.flags8.getMsbD 1 = s.ring :=
  (BitVec.getMsbD_append (n := 2) (m := 6)).trans ((BitVec.getMsbD_append (n := 1) (m := 1)).trans (by simp))

theorem State.flags8_getMsbD_add_two (s : State) (k : Nat) : s.flags8.getMsbD (k + 2) = s.pf.getMsbD k :=
  (BitVec.getMsbD_append (n := 2) (m := 6)).trans (by simp)

theorem setWidth_getMsbD_lt_ten (f : BitVec 8) {k : Nat} (hk : k < 10) : (f.setWidth 18).getMsbD k = false := by
  simp [BitVec.getMsbD_setWidth, Nat.not_le.2 hk]

theorem setWidth_getMsbD_add_ten (f : BitVec 8) (k : Nat) : (f.setWidth 18).getMsbD (k + 10) = f.getMsbD k := by
  simp [BitVec.getMsbD_setWidth]

theorem lowEight_getMsbD (w : Word) {k : Nat} (hk : k < 8) : (lowEight w).getMsbD k = w.getMsbD (10 + k) :=
  extract_getMsbD w 0 hk (by decide)

theorem State.setFlags8_pf_getMsbD (f : BitVec 8) (s : State) {k : Nat} (hk : k < 6) :
    (s.setFlags8 f).pf.getMsbD k = f.getMsbD (k + 2) := by
  simp only [State.setFlags8_pf, BitVec.getMsbD_eq_getLsbD, BitVec.getLsbD_extractLsb']
  rw [show 0 + (6 - 1 - k) = 8 - 1 - (k + 2) by omega]
  simp [hk, show 6 - 1 - k < 6 by omega, show k + 2 < 8 by omega]

end Sys2Proof.Machine
end

section
/-! The statements about the state and the step (spec/10_state.md). -/

namespace Sys2Proof.Machine

/-- Settles O7: the fetch is made, and the state it leaves, with PC advanced, is the one the statement writes out. -/
theorem stepRunsTheDecodedInstruction : Obligations.StepRunsTheDecodedInstruction := by
  intro s p i hb hd hp hdec
  exact (step_made hb hd hp).trans (runWord_ok hdec _)

/-- Settles O29, by the bits of the flag byte. -/
theorem flagTransfers : Obligations.FlagTransfers := by
  intro s x
  have hio : ∀ k, (s.io ||| s.flags8.setWidth 18).getMsbD k = (s.io.getMsbD k || (s.flags8.setWidth 18).getMsbD k) :=
    fun _ => BitVec.getMsbD_or
  have hflags : ∀ k < 8, (s.flags8 ||| lowEight s.io).getMsbD k = (s.flags8.getMsbD k || s.io.getMsbD (10 + k)) :=
    fun k hk => BitVec.getMsbD_or.trans (by rw [lowEight_getMsbD s.io hk])
  refine ⟨_, _, rfl, rfl, rfl, fun k hk => ?_, ?_, ?_, fun k hk => ?_, rfl, ?_, ?_, fun k hk => ?_⟩
  · exact (hio k).trans (by rw [setWidth_getMsbD_lt_ten _ hk, Bool.or_false])
  · exact (hio 10).trans (by rw [setWidth_getMsbD_add_ten _ 0, s.flags8_getMsbD_zero])
  · exact (hio 11).trans (by rw [setWidth_getMsbD_add_ten _ 1, s.flags8_getMsbD_one])
  · rw [Nat.add_comm]
    exact (hio (k + 12)).trans (by rw [setWidth_getMsbD_add_ten _ (k + 2), s.flags8_getMsbD_add_two])
  · exact (hflags 0 (by decide)).trans (by rw [s.flags8_getMsbD_zero])
  · exact (hflags 1 (by decide)).trans (by rw [s.flags8_getMsbD_one])
  · rw [State.setFlags8_pf_getMsbD _ _ hk, hflags _ (by omega), s.flags8_getMsbD_add_two,
      show 10 + (k + 2) = 12 + k by omega]

/-- Settles O52: by the branches of the step, and by what an instruction does to PC. -/
theorem programCounterAdvances : Obligations.ProgramCounterAdvances := by
  intro s t h
  rcases step_next_cases h with ⟨hf, rfl⟩ | ⟨p, -, ⟨i, -, hexec⟩ | ⟨-, -, cause, rfl⟩⟩
  · exact .inr (.inr ⟨rfl, hf, rfl⟩)
  · rcases exec_pc hexec with hpc | hpc
    · exact .inl hpc
    · exact .inr (.inl (hpc.trans (BitVec.add_assoc s.pc 1#12 1#12)))
  · exact .inl rfl

/-- Settles O53, by the writers of the link and the writers of RNG. -/
theorem writersOfLinkAndRing : Obligations.WritersOfLinkAndRing := fun _ _ _ h =>
  ⟨(exec_link h).resolve_left, (exec_ring h).resolve_left⟩

end Sys2Proof.Machine
end

section
/-! SUPPORT. What a step and an instruction do to core and to the words the drum may be rewriting (spec/20_memory.md
R41, R46, R49, R52): only the deposits and the automatic load write, and only in the memory addressed. -/

namespace Sys2Proof.Machine

/-! The step where no break is pending. -/

theorem step_noBreak {s : State} (h : s.NoBreak) : step s = drumAccess s (memRead s.pc s runWord) := by
  rw [step, s.seqBreakEntry_eq_none_iff.2 h, fetchAndRun]

theorem step_break {s : State} {f : Fault} (h : s.seqBreakEntry = some f) : step s = .fault f := by
  rw [step, h]

/-- In restrict mode the memory an access goes to bears a name that is not protected (R52, R53). -/
theorem State.Addresses.unprotected {s : State} {p : MemNo} (h : s.Addresses p) (hrm : s.rm = true) :
    s.prot.getMsbD (s.nameOf p).toNat = false := by
  obtain ⟨hallowed, hname⟩ := h
  rw [(hname p).2 rfl, ← Bool.not_eq_true]
  exact fun hprot => hallowed ⟨hrm, hprot⟩

/-! Instructions that are no memory references. -/

/-- Core as it was: the same words listed, the same windows, and no turn of the drum. -/
structure KeepsCore (s t : State) : Prop where
  mem : t.mem = s.mem
  windows : t.drum.windows = s.drum.windows
  turns : t.turns = s.turns

/-- Core as it was but for words newly in doubt, and no turn of the drum. -/
structure LeavesCore (s t : State) : Prop where
  turns : t.turns = s.turns
  inDoubt : ∀ p a, s.inDoubt p a = true → t.inDoubt p a = true
  core : ∀ p a, t.inDoubt p a = false → t.core p a = s.core p a

theorem KeepsCore.core {s t : State} (h : KeepsCore s t) (p : MemNo) (a : Addr) : t.core p a = s.core p a :=
  State.core_congr h.mem h.windows h.turns p a

theorem KeepsCore.leavesCore {s t : State} (h : KeepsCore s t) : LeavesCore s t :=
  ⟨h.turns, fun p a => (State.inDoubt_congr h.windows p a).trans, fun p a _ => h.core p a⟩

theorem LeavesCore.devOut {s t : State} (h : LeavesCore s t) (e : DevEvent) : LeavesCore s (t.devOut e) :=
  ⟨h.turns, h.inDoubt, h.core⟩

theorem State.restrictTrap_keepsCore (cause : TrapCause) (s : State) : KeepsCore s (s.restrictTrap cause) := ⟨rfl, rfl, rfl⟩

theorem State.rename_leavesCore (s : State) (names : Vector MemNo 4) : LeavesCore s (s.rename names) :=
  ⟨rfl, fun _ _ h => State.inDoubt_rename h names, fun p a h => by rw [State.core_rename, h]; rfl⟩

theorem State.drumGo_leavesCore (s : State) (p : MemNo) : LeavesCore s (s.drumGo p) :=
  ⟨rfl, fun _ _ h => State.inDoubt_drumGo h p, fun q a h => by rw [State.core_drumGo, h]; rfl⟩

/-- In restrict mode every in-out transfer is the trap (R190, R261). -/
theorem exec_iot_restricted {i : Instr} {s : State} (hi : i.isIot = true) (h : s.rm = true) :
    exec i s = .next (s.restrictTrap .iot) := by
  cases i with
  | lch | lchI | dch | dchI | tad | tadI | sni | szi | lia | lai | swp | cmi | spc | iif | ifi | idc | ida | scm | sci
  | scf | szl | cll | cml | szlRev => cases hi
  | erg | lrg | lrm | erm | rsm | rnm | rck | ctb | rro | rri | dba | dra | dia | dwc | dcl | rch | rcc | tcc | tcb | rrc
  | ssb | rsc | dpy | sdb | gpl | gpr | gcf | glf | gsp =>
    rw [exec]
    exact inOut_restricted h _

/-- No in-out transfer writes core; DCL and a renaming put words in doubt (R49, R53, R226). -/
theorem exec_iot_leavesCore {i : Instr} {s t : State} (hi : i.isIot = true) (h : exec i s = .next t) : LeavesCore s t := by
  have htrap : LeavesCore s (s.restrictTrap .iot) := (s.restrictTrap_keepsCore .iot).leavesCore
  cases i with
  | lch | lchI | dch | dchI | tad | tadI | sni | szi | lia | lai | swp | cmi | spc | iif | ifi | idc | ida | scm | sci
  | scf | szl | cll | cml | szlRev => cases hi
  | rsm =>
    rw [exec] at h
    refine inOut_next h htrap ?_
    rintro _ ⟨⟩
    exact s.rename_leavesCore _
  | rnm =>
    rw [exec] at h
    refine inOut_next h htrap ?_
    rintro _ ⟨⟩
    exact s.rename_leavesCore _
  | dia =>
    rw [exec] at h
    refine inOut_next h htrap fun u hu => ?_
    cases (beginSequence_next hu).2
    exact KeepsCore.leavesCore ⟨rfl, rfl, rfl⟩
  | dwc =>
    rw [exec] at h
    refine inOut_next h htrap fun u hu => ?_
    cases (inDrumOrder_next hu).2
    exact KeepsCore.leavesCore ⟨rfl, rfl, rfl⟩
  | dcl =>
    rw [exec] at h
    refine inOut_next h htrap fun u hu => ?_
    obtain ⟨p, -, hp⟩ := named_next (withMeaning_next (inDrumOrder_next hu).2).2
    cases hp
    exact (s.drumGo_leavesCore p).devOut _
  | erg | lrg | lrm | erm | rck | ctb | rro | rri | dba | dra | rch | rcc | tcc | tcb | rrc | ssb | rsc
  | dpy | sdb | gpl | gpr | gcf | glf | gsp =>
    rw [exec] at h
    refine inOut_next h htrap ?_
    rintro _ ⟨⟩
    exact KeepsCore.leavesCore (by constructor <;> simp [Drum.addressed])

/-- Skips and the instructions on registers and flags do nothing to core. -/
theorem exec_registers_keepsCore {i : Instr} {s t : State} (hiot : i.isIot = false)
    (href : ∀ y, i ∉ [Instr.lch y, .lchI y, .dch y, .dchI y, .tad y, .tadI y]) (h : exec i s = .next t) :
    KeepsCore s t := by
  rcases instr_groups i with hi | ⟨y, hi⟩ | ⟨x, hi⟩ | ⟨rev, acts, x, rfl⟩ | ⟨x, hi⟩
  · exact nomatch hiot.symm.trans hi
  · exact absurd hi (href y)
  · obtain ⟨c, hc⟩ := exec_skip hi s
    cases hc.symm.trans h
    constructor <;> simp
  · rw [execSpc_next h]
    constructor <;> simp
  · simp only [List.mem_cons, List.not_mem_nil, or_false] at hi
    rcases hi with rfl | rfl | rfl | rfl | rfl | rfl | rfl | rfl | rfl | rfl | rfl | rfl | rfl <;> cases h <;>
      exact ⟨rfl, rfl, rfl⟩

/-! Memory references. -/

/-- A write lists no word of another memory. -/
theorem State.wordAt_written_elsewhere (s : State) {p q : MemNo} (hq : q ≠ p) (a b : Addr) (v : Word) :
    Memory.wordAt (coreKey q b) (s.written p a v) = Memory.wordAt (coreKey q b) s.mem := by
  unfold State.written
  split
  · rfl
  · exact Memory.wordAt_store_other (fun hk => hq (coreKey_inj hk).1) v s.mem

/-- What memory reference `i` does to core: the drum's turns go on, and but for what they leave there only the deposits and
the automatic load change it, in the memory addressed (R102, R105). -/
structure WritesOnlyAddressed (i : Instr) (s t : State) : Prop where
  drum : t.drum = s.drum
  turns : s.turns ≤ t.turns
  core : ∀ p a, t.core p a = State.core { s with turns := t.turns } p a
    ∨ (s.Addresses p ∧ ∃ y, i ∈ [Instr.lchI y, .dch y, .dchI y])

theorem WritesOnlyAddressed.of_read {i : Instr} {s t : State} (hdrum : t.drum = s.drum) (hturns : s.turns ≤ t.turns)
    (hmem : t.mem = s.mem) : WritesOnlyAddressed i s t :=
  ⟨hdrum, hturns, fun p a =>
    .inl (State.core_congr (s := { s with turns := t.turns }) hmem (congrArg Drum.windows hdrum) rfl p a)⟩

theorem WritesOnlyAddressed.of_write {i : Instr} {y : Addr} {s t : State} {p : MemNo} (hdrum : t.drum = s.drum)
    (hturns : s.turns ≤ t.turns) (hp : s.Addresses p) (hi : i ∈ [Instr.lchI y, .dch y, .dchI y])
    (hmem : ∀ q b, q ≠ p → Memory.wordAt (coreKey q b) t.mem = Memory.wordAt (coreKey q b) s.mem) :
    WritesOnlyAddressed i s t := by
  refine ⟨hdrum, hturns, fun q b => ?_⟩
  by_cases hq : q = p
  · exact .inr ⟨hq ▸ hp, y, hi⟩
  · left
    unfold State.core
    rw [State.inDoubt_congr (congrArg Drum.windows hdrum), hmem q b hq]
    rfl

theorem exec_memoryReference_writesOnlyAddressed {i : Instr} {y : Addr} {s t : State}
    (hi : i ∈ [Instr.lch y, .lchI y, .dch y, .dchI y, .tad y, .tadI y]) (h : exec i s = .next t) :
    WritesOnlyAddressed i s t := by
  rcases exec_memoryReference_access hi h with rfl | ⟨p, hb, hr⟩
  · exact .of_read rfl le_rfl rfl
  have hp : s.Addresses p := (s.addresses_iff p).2 ⟨hb, hr⟩
  simp only [List.mem_cons, List.not_mem_nil, or_false] at hi
  rcases hi with rfl | rfl | rfl | rfl | rfl | rfl
  · cases (execLch_made hb hr y rfl rfl).symm.trans h
    exact .of_read rfl (Nat.le_add_right _ _) rfl
  · cases (execLchI_made hb hr y rfl rfl).symm.trans h
    exact .of_write (y := y) rfl (Nat.le_add_right _ _) hp (by simp) fun q b hq => s.wordAt_written_elsewhere hq _ _ _
  · cases (execDch_made hb hr y rfl rfl).symm.trans h
    exact .of_write (y := y) rfl (Nat.le_add_right _ _) hp (by simp) fun q b hq => s.wordAt_written_elsewhere hq _ _ _
  · cases (execDchI_made hb hr y rfl rfl).symm.trans h
    exact .of_write (y := y) rfl (Nat.le_add_right _ _) hp (by simp) fun q b hq =>
      (State.wordAt_written_elsewhere _ hq _ _ _).trans (s.wordAt_written_elsewhere hq _ _ _)
  · cases (execTad_made hb hr y rfl).symm.trans h
    exact .of_read rfl (Nat.le_add_right _ _) rfl
  · cases (execTadI_made hb hr y rfl).symm.trans h
    exact .of_read rfl (Nat.le_add_right _ _) rfl

/-! Any instruction. -/

/-- An instruction's group, as far as core goes. -/
theorem exec_core_cases {i : Instr} {s t : State} (h : exec i s = .next t) :
    (i.isIot = true ∧ LeavesCore s t) ∨ KeepsCore s t ∨ WritesOnlyAddressed i s t := by
  by_cases hiot : i.isIot = true
  · exact .inl ⟨hiot, exec_iot_leavesCore hiot h⟩
  · by_cases href : ∃ y, i ∈ [Instr.lch y, .lchI y, .dch y, .dchI y, .tad y, .tadI y]
    · obtain ⟨y, hi⟩ := href
      exact .inr (.inr (exec_memoryReference_writesOnlyAddressed hi h))
    · exact .inr (.inl (exec_registers_keepsCore (by simpa using hiot) (not_exists.1 href) h))

/-- No instruction turns the drum back or takes a word out of doubt. -/
theorem exec_turns_inDoubt {i : Instr} {s t : State} (h : exec i s = .next t) :
    s.turns ≤ t.turns ∧ ∀ p a, s.inDoubt p a = true → t.inDoubt p a = true := by
  rcases exec_core_cases h with ⟨-, hl⟩ | hk | hw
  · exact ⟨hl.turns.ge, hl.inDoubt⟩
  · exact ⟨hk.turns.ge, hk.leavesCore.inDoubt⟩
  · exact ⟨hw.turns, fun p a => (State.inDoubt_congr (congrArg _ hw.drum) p a).trans⟩

/-- In restrict mode an instruction changes core only as a write in the memory addressed, or by the drum's turns. -/
theorem exec_restricted_core {i : Instr} {s t : State} (hrm : s.rm = true) (h : exec i s = .next t) (p : MemNo) (a : Addr) :
    t.core p a = State.core { s with turns := t.turns } p a ∨ s.Addresses p := by
  have hkeeps : KeepsCore s t → t.core p a = State.core { s with turns := t.turns } p a := fun hk =>
    State.core_congr (s := { s with turns := t.turns }) hk.mem hk.windows rfl p a
  rcases exec_core_cases h with ⟨hiot, -⟩ | hk | hw
  · cases (exec_iot_restricted hiot hrm).symm.trans h
    exact .inl (hkeeps (s.restrictTrap_keepsCore .iot))
  · exact .inl (hkeeps hk)
  · exact (hw.core p a).imp_right And.left

end Sys2Proof.Machine
end

section
/-! What two states that differ only in protected memories answer: noninterference, operation by operation
(spec/20_memory.md R52, spec/60_exceptions.md R268). -/

namespace Sys2Proof.Machine

/-- A state in restrict mode, and `m`, which makes its twin: with `m` for core's list it differs only in protected memories. -/
structure RestrictedTwins (s : State) (m : Memory) : Prop where
  restricted : s.rm = true
  same : SameUnprotected s { s with mem := m }

/-- Two results that differ only in the words of protected memories. -/
inductive Alike : Result → Result → Prop
  | next {t : State} {m : Memory} (h : SameUnprotected t { t with mem := m }) : Alike (.next t) (.next { t with mem := m })
  | fault (f : Fault) : Alike (.fault f) (.fault f)
  | refused (r : Refusal) : Alike (.refused r) (.refused r)

/-- Twins stay twins where only the rest of the state changes: a word in doubt is free in both, any other is as it was. -/
theorem RestrictedTwins.kept {s u : State} {m : Memory} (h : RestrictedTwins s m) (hrm : u.rm = s.rm)
    (hprot : u.prot = s.prot) (hnames : u.names = s.names) (hmem : u.mem = s.mem) (hwin : u.drum.windows = s.drum.windows) :
    RestrictedTwins u m := by
  refine ⟨hrm.trans h.restricted, fun p a hp => ?_⟩
  have hs := h.same p a (by simpa [State.nameOf, hprot, hnames] using hp)
  by_cases hd : u.inDoubt p a = true
  · exact (State.core_of_inDoubt (s := { u with mem := m }) hd).trans (State.core_of_inDoubt hd).symm
  · have hsd : s.inDoubt p a = false := by simpa [State.inDoubt_congr hwin] using hd
    calc State.core { u with mem := m } p a
      _ = State.core { s with mem := m } p a :=
        State.core_kept (s := { s with mem := m }) (t := { u with mem := m }) rfl hwin hsd
      _ = s.core p a := hs
      _ = u.core p a := (State.core_kept hmem hwin hsd).symm

/-- A write of one word to both leaves twins. -/
theorem RestrictedTwins.afterWrite {s : State} {m : Memory} (h : RestrictedTwins s m) (p : MemNo) (a : Addr) (v : Word) :
    RestrictedTwins (s.afterWrite p a v) (State.written { s with mem := m } p a v) := by
  refine ⟨h.restricted, fun q b hq => ?_⟩
  change (State.afterWrite { s with mem := m } p a v).core q b = (s.afterWrite p a v).core q b
  by_cases hw : q = p ∧ b = a
  · obtain ⟨rfl, rfl⟩ := hw
    rw [State.core_afterWrite_same, State.core_afterWrite_same]
    rfl
  · rw [State.core_afterWrite_other hw, State.core_afterWrite_other hw]
    exact h.same q b hq

/-- Where both read the same word, the read leaves them twins. -/
theorem State.afterRead_withMem {s : State} {m : Memory} {p : MemNo} {a : Addr}
    (hw : State.core { s with mem := m } p a = s.core p a) :
    State.afterRead { s with mem := m } p a = { s.afterRead p a with mem := m } := by
  rw [State.afterRead, hw]
  rfl

theorem eventOne_withMem (acts : SpcActs) (s : State) (m : Memory) :
    eventOne acts { s with mem := m } = { eventOne acts s with mem := m } := by
  unfold eventOne
  cases acts.sci <;> cases acts.scf <;> cases acts.cll <;> rfl

section

variable {s : State} {m : Memory} (h : RestrictedTwins s m)
include h

theorem RestrictedTwins.trap_alike (cause : TrapCause) :
    Alike (.next (s.restrictTrap cause)) (.next (State.restrictTrap cause { s with mem := m })) :=
  .next (t := s.restrictTrap cause) (h.kept rfl rfl rfl rfl rfl).same

/-- Accesses: both trap, both are refused, or both are made in the same memory, which is not protected (R41, R52). -/
theorem RestrictedTwins.access_alike {k k' : MemNo → Result} (hk : ∀ p, s.Addresses p → Alike (k p) (k' p)) :
    Alike (access s k) (access { s with mem := m } k') := by
  rcases s.access_trichotomy with hf | hu | ⟨p, hp⟩
  · have hblocked := s.forbidden_iff.1 hf
    rw [access_blocked hblocked, access_blocked (s := { s with mem := m }) hblocked]
    exact h.trap_alike .protectedMemory
  · obtain ⟨hblocked, hname⟩ := s.unaddressable_iff.1 hu
    rw [access_unnamed hblocked hname, access_unnamed (s := { s with mem := m }) hblocked hname]
    exact .refused .memoryName
  · obtain ⟨hblocked, hname⟩ := (s.addresses_iff p).1 hp
    rw [access_made hblocked hname, access_made (s := { s with mem := m }) hblocked hname]
    exact hk p hp

theorem RestrictedTwins.memRead_alike (a : Addr) {k : Word → State → Result}
    (hk : ∀ w u n, RestrictedTwins u n → Alike (k w u) (k w { u with mem := n })) :
    Alike (memRead a s k) (memRead a { s with mem := m } k) :=
  h.access_alike fun p hp => by
    have hw := h.same p a (hp.unprotected h.restricted)
    rw [State.afterRead_withMem hw, hw]
    exact hk _ (s.afterRead p a) m (h.kept rfl rfl rfl rfl rfl)

theorem RestrictedTwins.memWrite_alike (a : Addr) (v : Word) {k : State → Result}
    (hk : ∀ u n, RestrictedTwins u n → Alike (k u) (k { u with mem := n })) :
    Alike (memWrite a v s k) (memWrite a v { s with mem := m } k) :=
  h.access_alike fun p _ => hk _ _ (h.afterWrite p a v)

theorem RestrictedTwins.charAddrPlain_alike (y : Addr) {k : BitVec 2 → Addr → State → Result}
    (hk : ∀ code a u n, RestrictedTwins u n → Alike (k code a u) (k code a { u with mem := n })) :
    Alike (charAddrPlain y s k) (charAddrPlain y { s with mem := m } k) :=
  h.memRead_alike y fun w u n hu => hk _ _ { u with ld := plainCode (pointerCode w), inc := false } n
    (hu.kept rfl rfl rfl rfl rfl)

theorem RestrictedTwins.charAddrAuto_alike (y : Addr) {k : BitVec 2 → Addr → State → Result}
    (hk : ∀ code a u n, RestrictedTwins u n → Alike (k code a u) (k code a { u with mem := n })) :
    Alike (charAddrAuto y s k) (charAddrAuto y { s with mem := m } k) :=
  h.memRead_alike y fun w u _ hu => hu.memWrite_alike y (stepPtr u.ring w) fun v n hv =>
    hk _ _ { v with ld := pointerCode (stepPtr u.ring w), inc := true } n (hv.kept rfl rfl rfl rfl rfl)

theorem RestrictedTwins.loadCharacter_alike (code : BitVec 2) (a : Addr) :
    Alike (loadCharacter code a s) (loadCharacter code a { s with mem := m }) :=
  h.memRead_alike a fun w u _ hu =>
    .next (t := { u with ac := characterWord (getCharacter code w) }) (hu.kept rfl rfl rfl rfl rfl).same

theorem RestrictedTwins.depositCharacter_alike (code : BitVec 2) (a : Addr) :
    Alike (depositCharacter code a s) (depositCharacter code a { s with mem := m }) :=
  h.memRead_alike a fun w u _ hu => hu.memWrite_alike a (putCharacter code (firstCharacter u.ac) w) fun v _ hv =>
    .next (t := { v with ac := rotateCharacter v.ac }) (hv.kept rfl rfl rfl rfl rfl).same

theorem RestrictedTwins.addWord_alike (e : Addr) {k : State → Result}
    (hk : ∀ u n, RestrictedTwins u n → Alike (k u) (k { u with mem := n })) :
    Alike (addWord e s k) (addWord e { s with mem := m } k) :=
  h.memRead_alike e fun w u n hu =>
    hk { u with ac := tadResult u.ac u.link w, link := tadCarry u.ac u.link w } n (hu.kept rfl rfl rfl rfl rfl)

theorem RestrictedTwins.exec_memoryReference_alike {i : Instr} {y : Addr}
    (hi : i ∈ [Instr.lch y, .lchI y, .dch y, .dchI y, .tad y, .tadI y]) : Alike (exec i s) (exec i { s with mem := m }) := by
  simp only [List.mem_cons, List.not_mem_nil, or_false] at hi
  rcases hi with rfl | rfl | rfl | rfl | rfl | rfl
  · exact h.charAddrPlain_alike y fun code a _ _ hu => hu.loadCharacter_alike code a
  · exact h.charAddrAuto_alike y fun code a _ _ hu => hu.loadCharacter_alike code a
  · exact h.charAddrPlain_alike y fun code a _ _ hu => hu.depositCharacter_alike code a
  · exact h.charAddrAuto_alike y fun code a _ _ hu => hu.depositCharacter_alike code a
  · exact h.addWord_alike y fun _ _ hu => .next hu.same
  · exact h.addWord_alike _ fun u _ hu => .next (t := u.drawn) (hu.kept rfl rfl rfl rfl rfl).same

theorem RestrictedTwins.skipIf_alike (c : Bool) :
    Alike (.next (s.skipIf c)) (.next (State.skipIf c { s with mem := m })) := by
  cases c with
  | false => exact .next h.same
  | true => exact .next (t := s.skip) (h.kept rfl rfl rfl rfl rfl).same

theorem RestrictedTwins.execSpc_alike (rev : Bool) (acts : SpcActs) :
    Alike (execSpc rev acts s) (execSpc rev acts { s with mem := m }) := by
  unfold execSpc
  split
  · exact .refused .reverseWithoutSkip
  · rw [eventOne_withMem acts s m]
    have hu : RestrictedTwins (eventFour acts (eventThree acts (eventTwo acts (eventOne acts s)))) m := by
      apply h.kept <;> simp
    exact hu.skipIf_alike (s.skipNoted rev acts)

/-- Every instruction: a memory reference by its accesses, an in-out transfer by its trap, the others by not reading core. -/
theorem RestrictedTwins.exec_alike (i : Instr) : Alike (exec i s) (exec i { s with mem := m }) := by
  rcases instr_groups i with hi | ⟨y, hi⟩ | ⟨x, hi⟩ | ⟨rev, acts, x, rfl⟩ | ⟨x, hi⟩
  · rw [exec_iot_restricted hi h.restricted, exec_iot_restricted (s := { s with mem := m }) hi h.restricted]
    exact h.trap_alike .iot
  · exact h.exec_memoryReference_alike hi
  · simp only [List.mem_cons, List.not_mem_nil, or_false] at hi
    rcases hi with rfl | rfl | rfl | rfl <;> exact h.skipIf_alike _
  · exact h.execSpc_alike rev acts
  · simp only [List.mem_cons, List.not_mem_nil, or_false] at hi
    rcases hi with rfl | rfl | rfl | rfl | rfl | rfl | rfl | rfl | rfl | rfl | rfl | rfl | rfl <;>
      exact .next (h.kept rfl rfl rfl rfl rfl).same

theorem RestrictedTwins.execUnmatched_alike (w : Word) (why : Reject) :
    Alike (execUnmatched w why s) (execUnmatched w why { s with mem := m }) := by
  have hrm := h.restricted
  unfold execUnmatched
  dsimp only
  split_ifs
  · exact h.trap_alike .iot
  · exact h.trap_alike .hlt
  · exact h.trap_alike .incorrectOp
  · exact .refused (.noMeaning why)

theorem RestrictedTwins.runWord_alike (w : Word) : Alike (runWord w s) (runWord w { s with mem := m }) := by
  have hadvance : RestrictedTwins s.advance m := h.kept rfl rfl rfl rfl rfl
  cases hdec : decode w with
  | ok i =>
    rw [runWord_ok hdec, runWord_ok hdec]
    exact hadvance.exec_alike i
  | error why =>
    rw [runWord_error hdec, runWord_error hdec]
    exact hadvance.execUnmatched_alike w why

theorem RestrictedTwins.step_alike : Alike (step s) (step { s with mem := m }) := by
  cases hb : s.seqBreakEntry with
  | some f =>
    rw [step_break hb, step_break (s := { s with mem := m }) hb]
    exact .fault f
  | none =>
    have hnb := s.seqBreakEntry_eq_none_iff.1 hb
    rw [step_noBreak hnb, step_noBreak (s := { s with mem := m }) hnb]
    by_cases hd : s.DrumUnaddressable
    · rw [drumAccess_refused hd, drumAccess_refused (s := { s with mem := m }) hd]
      exact .refused .memoryName
    · rw [drumAccess_made hd, drumAccess_made (s := { s with mem := m }) hd]
      exact h.memRead_alike s.pc fun w _ _ hu => hu.runWord_alike w

end

end Sys2Proof.Machine
end

section
/-! SUPPORT. Where an instruction stops: which in-out transfers can be refused, and in which states (R53, R226, R293). -/

namespace Sys2Proof.Machine

theorem execDia_cases {s : State} (h : s.rm = false) :
    (∃ t, execDia s = .next t)
      ∨ (execDia s = .refused .drumOrder ∧ s.drum.sequence ∉ [.none, .breakGiven])
      ∨ (execDia s = .refused .drumBusy ∧ s.drum.go = true ∧ Config.drumBusy s.turns = true) := by
  rw [execDia_normal h, ← s.transferRunning_iff]
  rcases beginSequence_cases s fun s => .next (State.devOut (.drumDia s.io) s.drumInitial) with
    ⟨-, -, he⟩ | ⟨hs, he⟩ | ⟨-, hrun, he⟩
  · exact .inl ⟨_, he⟩
  · exact .inr (.inl ⟨he, hs⟩)
  · exact .inr (.inr ⟨he, hrun⟩)

theorem execDwc_cases {s : State} (h : s.rm = false) :
    (∃ t, execDwc s = .next t) ∨ (execDwc s = .refused .drumOrder ∧ s.drum.sequence ∉ [.addressGiven, .breakGiven]) := by
  by_cases hs : s.drum.sequence ∈ [.addressGiven, .breakGiven]
  · exact .inl ⟨_, execDwc_in_order h hs⟩
  · exact .inr ⟨execDwc_out_of_order h hs, hs⟩

/-- What leaves DCL's transfer without a meaning (R226, U18). -/
theorem State.located_hasMeaning_eq_false {s : State} (h : (s.drum.located s.io).hasMeaning = false) :
    s.drum.read = s.drum.write ∨ s.drum.wordCount = 0#12 ∨ 4096 < (drumNumber s.io).toNat + s.drum.wordCount.toNat
      ∨ 4096 < s.drum.initialAddress.toNat + s.drum.wordCount.toNat := by
  rw [← Bool.not_eq_true, Drum.hasMeaning_iff] at h
  simp only [Drum.located] at h
  by_contra hn
  simp only [not_or, Nat.not_lt] at hn
  exact h hn

theorem execDcl_cases {s : State} (h : s.rm = false) :
    (∃ t, execDcl s = .next t)
      ∨ (execDcl s = .refused .drumOrder ∧ s.drum.sequence ≠ .countGiven)
      ∨ (execDcl s = .refused .drumTransfer ∧ s.drum.sequence = .countGiven ∧ (s.drum.located s.io).hasMeaning = false)
      ∨ (execDcl s = .refused .memoryName ∧ s.drum.sequence = .countGiven ∧ s.resolve (drumMemory s.io) = none) := by
  by_cases hs : s.drum.sequence = .countGiven
  · cases hm : (s.drum.located s.io).hasMeaning with
    | false => exact .inr (.inr (.inl ⟨execDcl_meaningless h hs hm, hs, rfl⟩))
    | true =>
      cases hp : s.resolve (drumMemory s.io) with
      | none => exact .inr (.inr (.inr ⟨execDcl_unnamed h hs hm hp, hs, rfl⟩))
      | some p => exact .inl ⟨_, execDcl_in_order h hs hm hp⟩
  · exact .inr (.inl ⟨execDcl_out_of_order h hs, hs⟩)

/-- Outside restrict mode every in-out transfer but DIA, DWC and DCL answers a next state. -/
theorem exec_iot_answers {i : Instr} {s : State} (hi : i.isIot = true) (h : s.rm = false) :
    (∃ t, exec i s = .next t) ∨ (∃ xx, i = .dia xx) ∨ (∃ xx, i = .dwc xx) ∨ i = .dcl := by
  cases i with
  | lch | lchI | dch | dchI | tad | tadI | sni | szi | lia | lai | swp | cmi | spc | iif | ifi | idc | ida | scm | sci
  | scf | szl | cll | cml | szlRev => cases hi
  | dia xx => exact .inr (.inl ⟨xx, rfl⟩)
  | dwc xx => exact .inr (.inr (.inl ⟨xx, rfl⟩))
  | dcl => exact .inr (.inr (.inr rfl))
  | erg | lrg | lrm | erm | rsm | rnm | rck | ctb | rro | rri | dba | dra | rch | rcc | tcc | tcb | rrc
  | ssb | rsc | dpy | sdb | gpl | gpr | gcf | glf | gsp =>
    rw [exec]
    exact .inl ⟨_, inOut_normal h _⟩

theorem execSpc_cases (rev : Bool) (acts : SpcActs) (s : State) :
    (∃ t, execSpc rev acts s = .next t)
      ∨ (execSpc rev acts s = .refused .reverseWithoutSkip ∧ rev = true ∧ acts.szl = false) := by
  unfold execSpc
  split
  · next hrev => exact .inr ⟨rfl, by simpa using hrev⟩
  · exact .inl ⟨_, rfl⟩

theorem exec_register_answers {i : Instr} {x : BitVec 2}
    (hi : i ∈ [Instr.lia, .lai, .swp, .cmi, .iif x, .ifi x, .idc x, .ida x, .scm x, .sci x, .scf x, .cll x, .cml x])
    (s : State) : ∃ t, exec i s = .next t := by
  simp only [List.mem_cons, List.not_mem_nil, or_false] at hi
  rcases hi with rfl | rfl | rfl | rfl | rfl | rfl | rfl | rfl | rfl | rfl | rfl | rfl | rfl <;> exact ⟨_, rfl⟩

/-- A memory reference answers what its first access does where that fails (R41, R52, R53). -/
theorem exec_memoryReference_stops {i : Instr} {y : Addr} {s : State} {r : Result}
    (hi : i ∈ [Instr.lch y, .lchI y, .dch y, .dchI y, .tad y, .tadI y]) (h : ∀ k, access s k = r) : exec i s = r := by
  obtain ⟨hlch, hlchI, hdch, hdchI, htad, htadI⟩ := execMemoryReference_stops h y
  simp only [List.mem_cons, List.not_mem_nil, or_false] at hi
  rcases hi with rfl | rfl | rfl | rfl | rfl | rfl
  exacts [hlch, hlchI, hdch, hdchI, htad, htadI]

theorem exec_memoryReference_forbidden {i : Instr} {y : Addr} {s : State}
    (hi : i ∈ [Instr.lch y, .lchI y, .dch y, .dchI y, .tad y, .tadI y]) (h : s.Forbidden) :
    exec i s = .next (s.restrictTrap .protectedMemory) :=
  exec_memoryReference_stops hi (access_blocked (s.forbidden_iff.1 h))

theorem exec_memoryReference_unaddressable {i : Instr} {y : Addr} {s : State}
    (hi : i ∈ [Instr.lch y, .lchI y, .dch y, .dchI y, .tad y, .tadI y]) (h : s.Unaddressable) :
    exec i s = .refused .memoryName := by
  obtain ⟨hblocked, hname⟩ := s.unaddressable_iff.1 h
  exact exec_memoryReference_stops hi (access_unnamed hblocked hname)

theorem exec_memoryReference_made {i : Instr} {y : Addr} {s : State} {p : MemNo}
    (hi : i ∈ [Instr.lch y, .lchI y, .dch y, .dchI y, .tad y, .tadI y]) (h : s.Addresses p) : ∃ t, exec i s = .next t := by
  obtain ⟨hb, hr⟩ := (s.addresses_iff p).1 h
  simp only [List.mem_cons, List.not_mem_nil, or_false] at hi
  rcases hi with rfl | rfl | rfl | rfl | rfl | rfl
  exacts [⟨_, execLch_made hb hr y rfl rfl⟩, ⟨_, execLchI_made hb hr y rfl rfl⟩, ⟨_, execDch_made hb hr y rfl rfl⟩,
    ⟨_, execDchI_made hb hr y rfl rfl⟩, ⟨_, execTad_made hb hr y rfl⟩, ⟨_, execTadI_made hb hr y rfl⟩]

end Sys2Proof.Machine
end

section
/-! The statements about core and its memories (spec/20_memory.md). -/

namespace Sys2Proof.Machine

/-- Settles O56: the fetch, a trap and an instruction leave core to the drum's turns, but for a write in the memory addressed,
which is not protected. -/
theorem protectedMemoryIsNotWritten : Obligations.ProtectedMemoryIsNotWritten := by
  intro s t p a hrm hprot h
  rcases step_next_cases h with ⟨-, rfl⟩ | ⟨q, -, ⟨i, -, hexec⟩ | ⟨-, -, cause, rfl⟩⟩
  · exact State.core_congr rfl rfl rfl p a
  · rcases exec_restricted_core (s := (s.afterRead q s.pc).advance) hrm hexec p a with hcore | haddr
    · exact hcore.trans (State.core_congr rfl rfl rfl p a)
    · exact nomatch hprot.symm.trans (haddr.unprotected hrm)
  · exact State.core_congr rfl rfl rfl p a

/-- Settles O57: twins step alike. -/
theorem protectedMemoryIsNotRead : Obligations.ProtectedMemoryIsNotRead := by
  intro s m hrm hsame
  have halike : Alike (step s) (step { s with mem := m }) := RestrictedTwins.step_alike ⟨hrm, hsame⟩
  generalize step s = r, step { s with mem := m } = r' at halike
  cases halike with
  | next ht => exact .inl ⟨_, _, rfl, rfl, ht⟩
  | fault f => exact .inr (.inl ⟨f, rfl, rfl⟩)
  | refused r => exact .inr (.inr ⟨r, rfl, rfl⟩)

/-- Settles O8: the fetch is the access that is forbidden. -/
theorem forbiddenFetchTraps : Obligations.ForbiddenFetchTraps := by
  intro s hb hd hf
  rw [step_noBreak hb, drumAccess_made hd, memRead, access_blocked (s.forbidden_iff.1 hf)]
  exact ⟨_, rfl, rfl⟩

/-- Settles O13, by the groups of instructions. -/
theorem instructionsStopOnlyWhereTheSpecRefuses : Obligations.InstructionsStopOnlyWhereTheSpecRefuses := by
  intro i s
  rcases instr_groups i with hi | ⟨y, hi⟩ | ⟨x, hi⟩ | ⟨rev, acts, x, rfl⟩ | ⟨x, hi⟩
  · rcases Bool.eq_false_or_eq_true s.rm with hrm | hrm
    · exact .inl ⟨_, exec_iot_restricted hi hrm⟩
    rcases exec_iot_answers hi hrm with hnext | ⟨xx, rfl⟩ | ⟨xx, rfl⟩ | rfl
    · exact .inl hnext
    · rcases execDia_cases hrm with hnext | ⟨he, hs⟩ | ⟨he, hgo, hbusy⟩
      · exact .inl hnext
      · iterate 5 right
        exact .inl ⟨he, hrm, xx, .inl ⟨rfl, hs⟩⟩
      · iterate 6 right
        exact ⟨he, hrm, hgo, hbusy, xx, rfl⟩
    · rcases execDwc_cases hrm with hnext | ⟨he, hs⟩
      · exact .inl hnext
      · iterate 5 right
        exact .inl ⟨he, hrm, xx, .inr (.inl ⟨rfl, hs⟩)⟩
    · rcases execDcl_cases hrm with hnext | ⟨he, hs⟩ | ⟨he, hs, hm⟩ | ⟨he, hs, hname⟩
      · exact .inl hnext
      · iterate 5 right
        exact .inl ⟨he, hrm, 0#6, .inr (.inr ⟨rfl, hs⟩)⟩
      · iterate 3 right
        exact .inl ⟨he, hrm, rfl, hs, State.located_hasMeaning_eq_false hm⟩
      · iterate 2 right
        exact .inl ⟨he, hrm, rfl, hs, (s.resolve_eq_none_iff _).1 hname⟩
  · rcases s.access_trichotomy with hf | hu | ⟨p, hp⟩
    · exact .inl ⟨_, exec_memoryReference_forbidden hi hf⟩
    · exact .inr (.inl ⟨exec_memoryReference_unaddressable hi hu, hu, y, hi⟩)
    · exact .inl (exec_memoryReference_made hi hp)
  · obtain ⟨c, hc⟩ := exec_skip hi s
    exact .inl ⟨_, hc⟩
  · rcases execSpc_cases rev acts s with hnext | ⟨he, rfl, hszl⟩
    · exact .inl hnext
    · iterate 4 right
      exact .inl ⟨he, acts, x, rfl, hszl⟩
  · exact .inl (exec_register_answers hi s)

/-- Settles O21: the first access decides. -/
theorem memoryReferenceTrapsOrIsRefused : Obligations.MemoryReferenceTrapsOrIsRefused := fun _ _ _ hi =>
  ⟨fun hf => ⟨_, exec_memoryReference_forbidden hi hf, rfl⟩, exec_memoryReference_unaddressable hi⟩

/-- Settles O54: the first part by the groups of instructions; the second because the fetch gives the drum its turn and no
instruction takes a word out of doubt. -/
theorem writersOfCore : Obligations.WritersOfCore := by
  constructor
  · intro i s t p a h hdoubt hne
    have hs : s.inDoubt p a = false := by
      rw [← Bool.not_eq_true] at hdoubt ⊢
      exact fun hs => hdoubt ((exec_turns_inDoubt h).2 p a hs)
    rcases exec_core_cases h with ⟨-, hl⟩ | hk | hw
    · exact absurd (hl.core p a hdoubt) hne
    · exact absurd (hk.core p a) hne
    · refine (hw.core p a).resolve_left fun hc => hne (hc.trans ?_)
      exact State.core_kept (s := s) (t := { s with turns := t.turns }) rfl rfl hs
  · intro s t p a h hallowed hdoubt
    rcases step_next_cases h with ⟨hf, -⟩ | ⟨q, -, ⟨i, -, hexec⟩ | ⟨-, -, cause, rfl⟩⟩
    · exact absurd hf hallowed
    · obtain ⟨hturns, hkept⟩ := exec_turns_inDoubt hexec
      exact ⟨hturns, State.core_of_inDoubt (hkept p a hdoubt)⟩
    · exact ⟨Nat.lt_succ_self _, State.core_of_inDoubt hdoubt⟩

/-- Settles O9: the drum's access is checked first, then the fetch is refused for its name. -/
theorem unaddressableFetchIsRefused : Obligations.UnaddressableFetchIsRefused := by
  intro s hb h
  rw [step_noBreak hb]
  by_cases hd : s.DrumUnaddressable
  · exact drumAccess_refused hd _
  · obtain ⟨hblocked, hname⟩ := s.unaddressable_iff.1 (h.resolve_right hd)
    rw [drumAccess_made hd]
    exact access_unnamed hblocked hname _

end Sys2Proof.Machine
end

section
/-! SUPPORT. What the decoder makes of each of the encoder's formats, and what the encoder makes of what the decoder
reads, format by format (spec/30_encoding.md R60 to R69). -/

namespace Sys2Proof

/-- Whatever `r` answers is a well-formed instruction whose word is `w`. -/
def Reads (w : Word) (r : Except Reject Instr) : Prop := ∀ i, r = .ok i → encode i = w ∧ i.wf = true

theorem Reads.ok {w : Word} {i : Instr} (hw : encode i = w) (hwf : i.wf = true) : Reads w (.ok i) := by
  rintro _ ⟨⟩
  exact ⟨hw, hwf⟩

theorem Reads.error {w : Word} {why : Reject} : Reads w (.error why) := nofun

theorem Reads.ite {w : Word} {c : Prop} [Decidable c] {r r' : Except Reject Instr} (h : c → Reads w r)
    (h' : ¬c → Reads w r') : Reads w (if c then r else r') := by
  split
  · exact h ‹c›
  · exact h' ‹¬c›

/-! Format SPC (R65). -/

/-- The action bits of the special operate words that have a row of their own (R69). -/
def ownRowBits (rev : Bool) : List (BitVec 10) :=
  if rev then [0o0004#10]
  else [0o1000#10, 0o0400#10, 0o0200#10, 0o0100#10, 0o0040#10, 0o0020#10, 0o0010#10, 0o0004#10, 0o0002#10, 0o0001#10]

theorem SpcActs.hasOwnRow_ofBits (rev : Bool) (b : BitVec 10) :
    SpcActs.hasOwnRow rev (.ofBits b) = decide (b ∈ ownRowBits rev) := by
  revert rev b
  decide +kernel

/-- Action bits without a row of their own are read as SPC. -/
theorem decodeSpc_of_not_mem {rev : Bool} {b : BitVec 10} (h : b ∉ ownRowBits rev) (x : BitVec 2) :
    decodeSpc rev b x = .spc rev (.ofBits b) x := by
  cases rev <;> simp_all [ownRowBits, decodeSpc]

/-- Action bits with a row of their own are read as the instruction of that row. -/
theorem reads_decodeSpc_of_mem {rev : Bool} {b : BitVec 10} (h : b ∈ ownRowBits rev) (x : BitVec 2) :
    Reads (spcWord rev b x) (.ok (decodeSpc rev b x)) := by
  cases rev with
  | true =>
    cases List.mem_singleton.1 h
    exact .ok rfl rfl
  | false =>
    simp only [ownRowBits, Bool.false_eq_true, if_false, List.mem_cons, List.not_mem_nil, or_false] at h
    rcases h with rfl | rfl | rfl | rfl | rfl | rfl | rfl | rfl | rfl | rfl <;> exact .ok rfl rfl

theorem reads_decodeSpc (rev : Bool) (b : BitVec 10) (x : BitVec 2) :
    Reads (spcWord rev b x) (.ok (decodeSpc rev b x)) := by
  by_cases h : b ∈ ownRowBits rev
  · exact reads_decodeSpc_of_mem h x
  · rw [decodeSpc_of_not_mem h]
    exact .ok (by rw [encode, SpcActs.toBits_ofBits]) (by simp [Instr.wf, SpcActs.hasOwnRow_ofBits, h])

theorem decodeSpc_toBits {rev : Bool} {acts : SpcActs} (h : SpcActs.hasOwnRow rev acts = false) (x : BitVec 2) :
    decodeSpc rev acts.toBits x = .spc rev acts x := by
  rw [← acts.ofBits_toBits, SpcActs.hasOwnRow_ofBits, decide_eq_false_iff_not] at h
  rw [decodeSpc_of_not_mem h, SpcActs.ofBits_toBits]

@[simp] theorem decode_spcWord (rev : Bool) (b : BitVec 10) (x : BitVec 2) :
    decode (spcWord rev b x) = .ok (decodeSpc rev b x) := by
  have hb : BitVec.extractLsb' (n := 12) 2 10 (b ++ x) = b := BitVec.extractLsb'_append_eq_left
  have hx : BitVec.extractLsb' (n := 12) 0 2 (b ++ x) = x := BitVec.extractLsb'_append_eq_right
  cases rev <;> simp [decode, spcWord, hb, hx]

/-! Format IOT (R66). -/

@[simp] theorem decode_iotWord (xx dev : BitVec 6) : decode (iotWord xx dev) = decodeIot xx dev := by
  have hxx : BitVec.extractLsb' (n := 12) 6 6 (xx ++ dev) = xx := BitVec.extractLsb'_append_eq_left
  have hdev : BitVec.extractLsb' (n := 12) 0 6 (xx ++ dev) = dev := BitVec.extractLsb'_append_eq_right
  simp [decode, iotWord, hxx, hdev]

/-- The digits of a data communication word are its printed ones and the bit that clears I/O first (R228). -/
theorem dcsDigits_of_and {xx control : BitVec 6} (h : xx &&& 0o57#6 = control) :
    dcsDigits control (xx.getMsbD 1) = xx := by
  subst h
  revert xx
  decide

theorem reads_decodeDcs (xx : BitVec 6) : Reads (iotWord xx 0o22#6) (decodeDcs xx) := by
  unfold decodeDcs
  iterate 7 refine .ite (fun h => .ok (congrArg (iotWord · _) (dcsDigits_of_and h)) rfl) fun _ => ?_
  exact .error

theorem reads_decodeExactIot (xx dev : BitVec 6) : Reads (iotWord xx dev) (decodeExactIot xx dev) := by
  unfold decodeExactIot
  iterate 13 refine .ite (by rintro ⟨rfl, rfl⟩; exact .ok rfl rfl) fun _ => ?_
  exact .error

theorem reads_decodeIot (xx dev : BitVec 6) : Reads (iotWord xx dev) (decodeIot xx dev) := by
  unfold decodeIot
  -- RNM, RCK, CTB, RRO and RRI; then DBA or DIA, and DRA or DWC.
  iterate 5 refine .ite (by rintro rfl; exact .ok rfl rfl) fun _ => ?_
  iterate 2
    refine .ite (fun hdev => ?_) fun _ => ?_
    · subst hdev
      split
      · next hxx => exact hxx ▸ .ok rfl rfl
      · next hxx => exact .ok rfl (bne_iff_ne.2 hxx)
  refine .ite (by rintro rfl; exact reads_decodeDcs xx) fun _ => ?_
  exact reads_decodeExactIot xx dev

/-! Every format. -/

/-- What the decoder reads is well-formed, and no bit of the word is dropped. -/
theorem reads_decode (w : Word) : Reads w (decode w) := by
  have hw := wordOf_octalCode_lowTwelve w
  unfold decode
  generalize octalCode w = op, lowTwelve w = y at hw ⊢
  subst hw
  have hiot : iotWord (y.extractLsb' 6 6) (y.extractLsb' 0 6) = wordOf 0o72#6 y :=
    congrArg (wordOf _) BitVec.extractLsb'_append_extractLsb'
  have hspc (rev : Bool) :
      spcWord rev (y.extractLsb' 2 10) (y.extractLsb' 0 2) = wordOf (0b11110#5 ++ BitVec.ofBool rev) y :=
    congrArg (wordOf _) BitVec.extractLsb'_append_extractLsb'
  -- The memory references and the skips; then codes 72 to 75; then codes 76 and 77.
  iterate 6 refine .ite (by rintro rfl; exact .ok rfl rfl) fun _ => ?_
  iterate 2 refine .ite (by rintro rfl; exact .ite (by rintro rfl; exact .ok rfl rfl) fun _ => .error) fun _ => ?_
  refine .ite (by rintro rfl; exact hiot ▸ reads_decodeIot _ _) fun _ => ?_
  refine .ite (fun _ => .error) fun _ => ?_
  refine .ite (by rintro rfl; exact hspc false ▸ reads_decodeSpc _ _ _) fun _ => ?_
  refine .ite (by rintro rfl; exact hspc true ▸ reads_decodeSpc _ _ _) fun _ => ?_
  refine .ite ?_ fun _ => .ite ?_ fun _ => .error
  · rintro rfl
    iterate 3 refine .ite (by rintro rfl; exact .ok rfl rfl) fun _ => ?_
    exact .error
  · rintro rfl
    exact .ite (by rintro rfl; exact .ok rfl rfl) fun _ => .error

/-- The decoder undoes the encoder on well-formed instructions, format by format. -/
theorem decode_encode {i : Instr} (h : i.wf = true) : decode (encode i) = .ok i := by
  cases i with
  | lch | lchI | dch | dchI | tad | tadI => simp [encode, decode]
  | spc rev acts x => rw [encode, decode_spcWord, decodeSpc_toBits (by simpa [Instr.wf] using h)]
  | iif | ifi | idc | ida | scm | sci | scf | szl | cll | cml | szlRev => exact decode_spcWord _ _ _
  | rnm | rck | ctb | rro | rri => exact decode_iotWord _ _
  | dia xx | dwc xx =>
    rw [encode, decode_iotWord]
    simp_all [Instr.wf, decodeIot]
  | rch c | rcc c | tcc c | tcb c | rrc c | ssb c | rsc c => cases c <;> rfl
  | sni | szi | lia | lai | swp | cmi | erg | lrg | lrm | erm | rsm | dba | dra | dcl | dpy | sdb | gpl | gpr | gcf | glf
  | gsp => rfl

/-! The octal codes of the instructions' words. -/

/-- A word of code 73 is no instruction (R66). -/
theorem decode_code73 {w : Word} (h : octalCode w = 0o73#6) : decode w = .error .code73 := by
  simp [decode, h]

/-- A special operate word has code 74 or 75 (R65). -/
theorem octalCode_spcWord (rev : Bool) (b : BitVec 10) (x : BitVec 2) :
    octalCode (spcWord rev b x) = 0o74#6 ∨ octalCode (spcWord rev b x) = 0o75#6 := by
  cases rev
  · exact .inl (octalCode_wordOf _ _)
  · exact .inr (octalCode_wordOf _ _)

/-- Every instruction is an in-out transfer exactly if its word has octal code 72. -/
theorem isIot_iff_octalCode_encode (i : Instr) : Laws.IotCode.Statement i := by
  open Laws.IotCode in
  cases i
  exacts [lch _, lchI _, dch _, dchI _, tad _, tadI _, sni, szi, lia, lai, swp, cmi, spc _ _ _, iif _, ifi _, idc _, ida _,
    scm _, sci _, scf _, szl _, cll _, cml _, szlRev _, erg, lrg, lrm, erm, rsm, rnm _, rck _, ctb _, rro _, rri _, dba, dra,
    dia _, dwc _, dcl, rch _, rcc _, tcc _, tcb _, rrc _, ssb _, rsc _, dpy, sdb, gpl, gpr, gcf, glf, gsp]

/-- The only instructions whose words have code 64, 65, 73, 76 or 77 (R63, R64). -/
theorem instr_of_octalCode_encode {i : Instr} (h : octalCode (encode i) ∈ [0o64#6, 0o65#6, 0o73#6, 0o76#6, 0o77#6]) :
    i ∈ [Instr.sni, .szi, .lia, .lai, .swp, .cmi] := by
  have hiot : i.isIot ≠ true := fun hi => by
    rw [(isIot_iff_octalCode_encode i).1 hi] at h
    exact absurd h (by decide)
  cases i with
  | sni | szi | lia | lai | swp | cmi => simp
  | lch | lchI | dch | dchI | tad | tadI => simp [encode] at h
  | spc | iif | ifi | idc | ida | scm | sci | scf | szl | cll | cml | szlRev =>
    rw [encode] at h
    rcases octalCode_spcWord _ _ _ with hcode | hcode <;> exact absurd (hcode ▸ h) (by decide)
  | erg | lrg | lrm | erm | rsm | rnm | rck | ctb | rro | rri | dba | dra | dia | dwc | dcl | rch | rcc | tcc | tcb | rrc
  | ssb | rsc | dpy | sdb | gpl | gpr | gcf | glf | gsp => exact absurd rfl hiot

end Sys2Proof
end

section
/-! SUPPORT. The opcode table: the row of each instruction, and that a word which matches a row is read
(spec/30_encoding.md R68, R73). -/

namespace Sys2Proof

/-- The row of the opcode table that an instruction belongs to: match and mask (R69). -/
def Instr.row : Instr → Word × Word
  | .lch _ => (0o120000#18, 0o770000#18)
  | .lchI _ => (0o130000#18, 0o770000#18)
  | .dch _ => (0o140000#18, 0o770000#18)
  | .dchI _ => (0o150000#18, 0o770000#18)
  | .tad _ => (0o360000#18, 0o770000#18)
  | .tadI _ => (0o370000#18, 0o770000#18)
  | .spc _ _ _ | .iif _ | .ifi _ | .idc _ | .ida _ | .scm _ | .sci _ | .scf _ | .szl _ | .cll _ | .cml _ | .szlRev _ =>
    (0o740000#18, 0o760000#18)
  | .rnm _ => (0o720066#18, 0o770077#18)
  | .rck _ => (0o720032#18, 0o770077#18)
  | .ctb _ => (0o720035#18, 0o770077#18)
  | .rro _ => (0o720017#18, 0o770077#18)
  | .rri _ => (0o720037#18, 0o770077#18)
  | .dia _ => (0o720061#18, 0o770077#18)
  | .dwc _ => (0o720062#18, 0o770077#18)
  | .rch _ => (0o720022#18, 0o775777#18)
  | .rcc _ => (0o721022#18, 0o775777#18)
  | .tcc _ => (0o725022#18, 0o775777#18)
  | .tcb _ => (0o724022#18, 0o775777#18)
  | .rrc _ => (0o720122#18, 0o775777#18)
  | .ssb _ => (0o724122#18, 0o775777#18)
  | .rsc _ => (0o721122#18, 0o775777#18)
  | i => (encode i, 0o777777#18)

theorem Instr.row_mem (i : Instr) : i.row ∈ opcodeTable := by
  cases i <;> exact of_decide_eq_true rfl

/-! A word put together is taken apart. -/

theorem wordOf_inj {code code' : BitVec 6} {low low' : BitVec 12} (h : wordOf code low = wordOf code' low') :
    code = code' ∧ low = low' :=
  ⟨by simpa using congrArg octalCode h, by simpa using congrArg lowTwelve h⟩

theorem digits_inj {xx xx' dev dev' : BitVec 6} (h : (xx ++ dev : BitVec 12) = xx' ++ dev') :
    xx = xx' ∧ dev = dev' := by
  have hhigh := congrArg (BitVec.extractLsb' 6 6) h
  have hlow := congrArg (BitVec.extractLsb' 0 6) h
  rw [BitVec.extractLsb'_append_eq_left] at hhigh
  rw [BitVec.extractLsb'_append_eq_right] at hlow
  exact ⟨hhigh.trans BitVec.extractLsb'_append_eq_left, hlow.trans BitVec.extractLsb'_append_eq_right⟩

theorem digits_append (y : BitVec 12) : (y.extractLsb' 6 6 ++ y.extractLsb' 0 6 : BitVec 12) = y :=
  BitVec.extractLsb'_append_extractLsb' (w := 6) (len := 6)

theorem exists_wordOf_digits (w : Word) : ∃ code xx dev : BitVec 6, w = wordOf code (xx ++ dev) :=
  ⟨_, _, _, (wordOf_octalCode_lowTwelve w).symm.trans (congrArg (wordOf _) (digits_append _).symm)⟩

/-! What each of the table's masks leaves of a word. -/

theorem wordOf_and (code code' : BitVec 6) (low low' : BitVec 12) :
    wordOf code low &&& wordOf code' low' = wordOf (code &&& code') (low &&& low') :=
  BitVec.and_append

theorem wordOf_digits_and (code code' xx xx' dev dev' : BitVec 6) :
    wordOf code (xx ++ dev) &&& wordOf code' (xx' ++ dev') = wordOf (code &&& code') ((xx &&& xx') ++ (dev &&& dev')) :=
  (wordOf_and _ _ _ _).trans (congrArg (wordOf _) BitVec.and_append)

theorem wordOf_and_codeMask (code : BitVec 6) (low : BitVec 12) : wordOf code low &&& 0o770000#18 = wordOf code 0#12 :=
  (wordOf_and code 0o77#6 low 0#12).trans (congrArg₂ wordOf BitVec.and_allOnes BitVec.and_zero)

theorem wordOf_and_deviceMask (code xx dev : BitVec 6) :
    wordOf code (xx ++ dev) &&& 0o770077#18 = wordOf code (0#6 ++ dev) :=
  (wordOf_digits_and code 0o77#6 xx 0#6 dev 0o77#6).trans (by
    rw [show 0o77#6 = .allOnes 6 from rfl, BitVec.and_allOnes, BitVec.and_allOnes, BitVec.and_zero])

theorem wordOf_and_dcsMask (code xx dev : BitVec 6) :
    wordOf code (xx ++ dev) &&& 0o775777#18 = wordOf code ((xx &&& 0o57#6) ++ dev) :=
  (wordOf_digits_and code 0o77#6 xx 0o57#6 dev 0o77#6).trans (by
    rw [show 0o77#6 = .allOnes 6 from rfl, BitVec.and_allOnes, BitVec.and_allOnes])

theorem wordOf_and_spcMask (code : BitVec 6) (low : BitVec 12) :
    wordOf code low &&& 0o760000#18 = wordOf (code &&& 0o76#6) 0#12 :=
  (wordOf_and code 0o76#6 low 0#12).trans (congrArg (wordOf _) BitVec.and_zero)

theorem spcWord_and_spcMask (rev : Bool) (b : BitVec 10) (x : BitVec 2) : spcWord rev b x &&& 0o760000#18 = 0o740000#18 := by
  cases rev <;> exact wordOf_and_spcMask _ _

/-- An instruction's word matches its row under the row's mask. -/
theorem encode_and_row (i : Instr) : encode i &&& i.row.2 = i.row.1 := by
  cases i with
  | lch | lchI | dch | dchI | tad | tadI => exact wordOf_and_codeMask _ _
  | spc | iif | ifi | idc | ida | scm | sci | scf | szl | cll | cml | szlRev => exact spcWord_and_spcMask _ _ _
  | rnm | rck | ctb | rro | rri | dia | dwc => exact wordOf_and_deviceMask _ _ _
  | rch c | rcc c | tcc c | tcb c | rrc c | ssb c | rsc c => cases c <;> rfl
  | sni | szi | lia | lai | swp | cmi | erg | lrg | lrm | erm | rsm | dba | dra | dcl | dpy | sdb | gpl | gpr | gcf | glf
  | gsp => rfl

/-! A word that matches a row is read. -/

/-- The octal codes every word of which is an instruction (R61, R65). -/
def wholeCodes : List (BitVec 6) := [0o12#6, 0o13#6, 0o14#6, 0o15#6, 0o36#6, 0o37#6, 0o74#6, 0o75#6]

/-- The device codes printed with the digits `XX`, and 61 and 62, of which DBA and DRA take one word each (R66, R69). -/
def freeDevices : List (BitVec 6) := [0o66#6, 0o32#6, 0o35#6, 0o17#6, 0o37#6, 0o61#6, 0o62#6]

/-- The printed digits of the data communication group (R228). -/
def dcsControls : List (BitVec 6) := [0o00#6, 0o10#6, 0o50#6, 0o40#6, 0o01#6, 0o41#6, 0o11#6]

theorem exists_decode_of_wholeCode {w : Word} (h : octalCode w ∈ wholeCodes) : ∃ i, decode w = .ok i := by
  simp only [wholeCodes, List.mem_cons, List.not_mem_nil, or_false] at h
  rcases h with h | h | h | h | h | h | h | h <;> simp [decode, h]

theorem exists_decodeIot_of_freeDevice {dev : BitVec 6} (h : dev ∈ freeDevices) (xx : BitVec 6) :
    ∃ i, decodeIot xx dev = .ok i := by
  simp only [freeDevices, List.mem_cons, List.not_mem_nil, or_false] at h
  rcases h with rfl | rfl | rfl | rfl | rfl | rfl | rfl <;> exact ⟨_, rfl⟩

theorem exists_decodeDcs_of_control {xx : BitVec 6} (h : xx &&& 0o57#6 ∈ dcsControls) : ∃ i, decodeDcs xx = .ok i := by
  simp only [dcsControls, List.mem_cons, List.not_mem_nil, or_false] at h
  rcases h with h | h | h | h | h | h | h <;> simp [decodeDcs, h]

/-- A row prints the code, the code but for its last bit (codes 74 and 75), the code and the device, all but the bit that
clears I/O, or the whole word. -/
theorem opcodeTable_rows : ∀ row ∈ opcodeTable,
    (row.2 = 0o770000#18 ∧ ∃ code ∈ wholeCodes, row.1 = wordOf code 0#12) ∨ row = (0o740000#18, 0o760000#18)
      ∨ (row.2 = 0o770077#18 ∧ ∃ dev ∈ freeDevices, row.1 = iotWord 0#6 dev)
      ∨ (row.2 = 0o775777#18 ∧ ∃ control ∈ dcsControls, row.1 = iotWord control 0o22#6)
      ∨ row.2 = 0o777777#18 ∧ (decode row.1).toBool = true := by
  decide

/-- Bit 5 is the one bit of the code that the row of SPC does not print (R65). -/
theorem code_of_and_spcMask (code : BitVec 6) : code &&& 0o76#6 = 0o74#6 → code ∈ wholeCodes := by
  revert code
  decide

/-- A word that matches a row is read, by what the row prints. -/
theorem exists_decode_of_row {w : Word} {row : Word × Word} (hrow : row ∈ opcodeTable) (hw : w &&& row.2 = row.1) :
    ∃ i, decode w = .ok i := by
  obtain ⟨code, xx, dev, rfl⟩ := exists_wordOf_digits w
  rcases opcodeTable_rows row hrow with
    ⟨hm, code', hcode, hv⟩ | rfl | ⟨hm, dev', hdev, hv⟩ | ⟨hm, control, hcontrol, hv⟩ | ⟨hm, hv⟩
  · rw [hm, hv, wordOf_and_codeMask] at hw
    obtain ⟨rfl, -⟩ := wordOf_inj hw
    exact exists_decode_of_wholeCode (by simpa using hcode)
  · obtain ⟨hcode, -⟩ := wordOf_inj ((wordOf_and_spcMask _ _).symm.trans hw : _ = wordOf 0o74#6 0#12)
    exact exists_decode_of_wholeCode (by simpa using code_of_and_spcMask code hcode)
  · rw [hm, hv, wordOf_and_deviceMask] at hw
    obtain ⟨rfl, hdigits⟩ := wordOf_inj hw
    obtain ⟨-, rfl⟩ := digits_inj hdigits
    exact (decode_iotWord xx dev).symm ▸ exists_decodeIot_of_freeDevice hdev xx
  · rw [hm, hv, wordOf_and_dcsMask] at hw
    obtain ⟨rfl, hdigits⟩ := wordOf_inj hw
    obtain ⟨rfl, rfl⟩ := digits_inj hdigits
    exact (decode_iotWord xx _).symm ▸ exists_decodeDcs_of_control hcontrol
  · rw [hm, show 0o777777#18 = .allOnes 18 from rfl, BitVec.and_allOnes] at hw
    cases h : decode row.1 with
    | ok i => exact ⟨i, hw ▸ h⟩
    | error why => simp [h, Except.toBool] at hv

end Sys2Proof
end

section
/-! SUPPORT. What a word that is no instruction does, class by class (spec/60_exceptions.md R261, R70), and what SPC does
without the actions of event time 2 (spec/42_special_operate.md R150). -/

namespace Sys2Proof.Machine

/-! Words that are no instruction. -/

/-- A HLT word has octal code 76 or 77 (R261). -/
theorem octalCode_of_isHlt {w : Word} (h : isHlt w = true) : octalCode w = 0o76#6 ∨ octalCode w = 0o77#6 := by
  have hbits : (octalCode w).extractLsb' 1 5 = w.extractLsb' 13 5 := by
    ext k hk
    simp [octalCode, show 1 + k < 6 by omega, ← Nat.add_assoc]
  have hcodes : ∀ code : BitVec 6, code.extractLsb' 1 5 = 0b11111#5 → code = 0o76#6 ∨ code = 0o77#6 := by decide
  have hhlt : w.extractLsb' 13 5 = 0b11111#5 := by simp_all [isHlt]
  exact hcodes _ (hbits.trans hhlt)

theorem isHlt_eq_true_iff (w : Word) : isHlt w = true ↔ w.extractLsb' 13 5 = 0b11111#5 ∧ w.getMsbD 9 = true := by
  rw [isHlt, Bool.and_eq_true, beq_iff_eq]

section
variable {w : Word} (why : Reject) {s : State}

theorem execUnmatched_iot (hrm : s.rm = true) (hcode : octalCode w = 0o72#6) :
    execUnmatched w why s = .next (s.restrictTrap .iot) := by
  simp [execUnmatched, hrm, hcode]

theorem execUnmatched_hlt (hrm : s.rm = true) (hhlt : isHlt w = true) :
    execUnmatched w why s = .next (s.restrictTrap .hlt) := by
  rcases octalCode_of_isHlt hhlt with hcode | hcode <;> simp [execUnmatched, hrm, hcode, hhlt]

theorem execUnmatched_code73 (hcode : octalCode w = 0o73#6) : execUnmatched w why s = .refused (.noMeaning why) := by
  have hhlt : isHlt w = false := by
    rw [← Bool.not_eq_true]
    intro h
    rcases octalCode_of_isHlt h with h | h <;> simp [hcode] at h
  simp [execUnmatched, hcode, hhlt]

theorem execUnmatched_other (hrm : s.rm = true) (hiot : octalCode w ≠ 0o72#6) (h73 : octalCode w ≠ 0o73#6)
    (hhlt : isHlt w = false) :
    execUnmatched w why s =
      if Config.incorrectOp w then .next (s.restrictTrap .incorrectOp) else .refused (.noMeaning why) := by
  simp [execUnmatched, hrm, hiot, h73, hhlt]

theorem execUnmatched_unrestricted (hrm : s.rm = false) :
    execUnmatched w why s = .refused (.noMeaning why) ∨ execUnmatched w why s = .refused .incorrectOpcode := by
  simp only [execUnmatched, hrm, Bool.false_and, Bool.false_eq_true, if_false]
  split
  · exact .inr rfl
  · exact .inl rfl

end

/-! The special operate word. -/

/-- The flags written from their own byte are as they were (R16). -/
theorem State.setFlags8_flags8 (s : State) : s.setFlags8 s.flags8 = s := by
  have hpf : s.flags8.extractLsb' 0 6 = s.pf := BitVec.extractLsb'_append_eq_right
  rw [State.setFlags8, s.flags8_getMsbD_zero, s.flags8_getMsbD_one, hpf]

/-- Event time 2 without SCM, IFI and IIF changes nothing (R150). -/
theorem eventTwo_idle {acts : SpcActs} (h : acts.scm = false ∧ acts.ifi = false ∧ acts.iif = false) (s : State) :
    eventTwo acts s = s := by
  obtain ⟨hscm, hifi, hiif⟩ := h
  simp only [eventTwo, hscm, hifi, hiif]
  exact s.setFlags8_flags8

/-- SPC without IIF, IFI and SCM has event times 1, 3 and 4 only (R150). -/
theorem execSpc_idle {acts : SpcActs} (h : acts.scm = false ∧ acts.ifi = false ∧ acts.iif = false) {rev : Bool}
    (hrev : rev = true → acts.szl = true) (s : State) :
    execSpc rev acts s = .next (State.skipIf (s.skipNoted rev acts) (eventFour acts (eventThree acts (eventOne acts s)))) := by
  rw [execSpc, eventTwo_idle h, if_neg]
  cases rev <;> simp_all

end Sys2Proof.Machine
end

section
/-! The statements about the encoding (spec/30_encoding.md). -/

namespace Sys2Proof.Machine

/-- Settles O1, format by format of the encoder. -/
theorem decodeOfEncodeIsTheInstruction : Obligations.DecodeOfEncodeIsTheInstruction := fun _ => decode_encode

/-- Settles O2, branch by branch of the decoder. -/
theorem encodeOfDecodeIsTheWord : Obligations.EncodeOfDecodeIsTheWord := reads_decode

/-- Settles O4: the word read is the instruction's own, whose code is known. -/
theorem inOutTransfersHaveCode72 : Obligations.InOutTransfersHaveCode72 := by
  intro w i h
  obtain ⟨rfl, -⟩ := reads_decode w i h
  exact isIot_iff_octalCode_encode i

/-- Settles O5: the word read is the instruction's own, and only six instructions have a word of these codes. -/
theorem skipAndOperateWordsAreSix : Obligations.SkipAndOperateWordsAreSix := by
  intro w i hcode
  constructor
  · intro h
    obtain ⟨rfl, -⟩ := reads_decode w i h
    have hi := instr_of_octalCode_encode hcode
    simp only [List.mem_cons, List.not_mem_nil, or_false] at hi
    rcases hi with rfl | rfl | rfl | rfl | rfl | rfl <;> simp [encode]
  · rintro (⟨rfl, rfl⟩ | ⟨rfl, rfl⟩ | ⟨rfl, rfl⟩ | ⟨rfl, rfl⟩ | ⟨rfl, rfl⟩ | ⟨rfl, rfl⟩) <;> rfl

/-- Settles O6: an instruction's word matches the instruction's row, and a word that matches a row is read. -/
theorem instructionsAreTheTablesWords : Obligations.InstructionsAreTheTablesWords := by
  intro w
  constructor
  · rintro ⟨i, h⟩
    obtain ⟨rfl, -⟩ := reads_decode w i h
    exact ⟨i.row, i.row_mem, encode_and_row i⟩
  · rintro ⟨row, hrow, hw⟩
    exact exists_decode_of_row hrow hw

/-- Settles O10, class by class of the word. -/
theorem unmatchedWordTrapsOrIsRefused : Obligations.UnmatchedWordTrapsOrIsRefused := by
  intro s p why hb hd hp w u hdec
  have hstep : step s = execUnmatched w why u := (step_made hb hd hp).trans (runWord_error hdec _)
  rw [hstep]
  refine ⟨fun hrm hcode => ⟨_, execUnmatched_iot why (s := u) hrm hcode, rfl⟩,
    fun hrm hbits hbit => ⟨_, execUnmatched_hlt why (s := u) hrm ((isHlt_eq_true_iff w).2 ⟨hbits, hbit⟩), rfl⟩,
    fun hcode => ?_, fun hrm hiot h73 hhlt => ?_, fun hrm => execUnmatched_unrestricted why (s := u) hrm⟩
  · cases hdec.symm.trans (decode_code73 hcode)
    exact execUnmatched_code73 .code73 hcode
  · rw [← isHlt_eq_true_iff, Bool.not_eq_true] at hhlt
    rw [execUnmatched_other why (s := u) hrm hiot h73 hhlt]
    exact ⟨fun h => ⟨_, if_pos h, rfl⟩, fun h => if_neg (by simp [h])⟩

/-- Settles O35: each action is SPC's event time of that action, and the other event times are idle. -/
theorem singleActionsAreSpecialOperateWords : Obligations.SingleActionsAreSpecialOperateWords := by
  intro s x
  simp only [exec]
  refine ⟨?iif, rfl, ?idc, ?ida, ?scm, ?sci, ?scf, ?szl, ?cll, ?cml, ?szlRev⟩
  case iif =>
    exact congrArg Host.Outcome.next (State.setFlags8_flags8 { s with io := s.io ||| s.flags8.setWidth 18 }).symm
  case scm =>
    exact congrArg Host.Outcome.next (State.setFlags8_flags8 { s with ac := specialComplement s.ac s.link }).symm
  all_goals rw [execSpc_idle ⟨rfl, rfl, rfl⟩ (by simp)]
  case idc | ida | sci | scf | cll | cml => rfl
  case szl | szlRev =>
    rw [State.skipNoted]
    cases hlink : s.link <;> simp [execSzl, execSzlRev, hlink] <;> rfl

/-- Settles O3, by running the decoder. -/
theorem printedCodesDecode : Obligations.PrintedCodesDecode := by
  unfold Obligations.PrintedCodesDecode
  decide

end Sys2Proof.Machine
end

section
/-! SUPPORT. What character addressing and the characters come to, word by word (spec/40_memory_reference.md R100 to R106):
the address step as a number, the bits a load puts in AC, the word a deposit leaves in core. -/

namespace Sys2Proof.Machine

/-! The address step as a number (R101, R151). -/

theorem ringStep_toNat (a : Addr) : (ringStep a).toNat = a.toNat - a.toNat % 8 + (a.toNat + 1) % 8 := by
  have ha : a.toNat < 2 ^ 12 := a.isLt
  have hlow : (a.extractLsb' 0 3 + 1#3).toNat = (a.toNat + 1) % 8 := by
    simp only [BitVec.toNat_add, BitVec.extractLsb'_toNat, Nat.shiftRight_zero, BitVec.toNat_ofNat]
    omega
  have hhigh : (a.extractLsb' 3 9).toNat = a.toNat / 8 := by
    rw [BitVec.extractLsb'_toNat, Nat.shiftRight_eq_div_pow]
    omega
  rw [ringStep, BitVec.toNat_append, ← Nat.shiftLeft_add_eq_or_of_lt (BitVec.isLt _), hlow, hhigh, Nat.shiftLeft_eq]
  omega

theorem addressStep_toNat (ring : Bool) (a : Addr) :
    (addressStep ring a).toNat = if ring then a.toNat - a.toNat % 8 + (a.toNat + 1) % 8 else (a.toNat + 1) % 4096 := by
  cases ring
  · exact BitVec.toNat_add a 1#12
  · exact ringStep_toNat a

/-! The character loaded. -/

theorem characterStart_plainCode (code : BitVec 2) : characterStart (plainCode code) = characterStart code := by
  revert code
  decide

theorem characterStart_le (code : BitVec 2) : characterStart code ≤ 12 := by
  revert code
  decide

/-- Bits 0 to 5 of AC after a load (R103). -/
theorem loadedCharacter_getMsbD {code : BitVec 2} (hc : code ≠ 0#2) (m : Word) {k : Nat} (hk : k < 6) :
    (characterWord (getCharacter code m)).getMsbD k = m.getMsbD (characterStart code + k) := by
  rw [characterWord_getMsbD, decide_eq_true hk, Bool.true_and]
  exact getCharacter_getMsbD hc m hk

/-- Bits 6 to 17 of AC after a load (R103). -/
theorem characterWord_getMsbD_zero (c : Character) {k : Nat} (hk : 6 ≤ k) : (characterWord c).getMsbD k = false := by
  rw [characterWord_getMsbD, decide_eq_false (Nat.not_lt.2 hk), Bool.false_and]

/-! Core after a write, split by the word asked for. -/

section
variable {s t : State} {p q : MemNo} {a b : Addr} {v : Word} (hm : t.mem = s.written p a v)
  (hd : t.drum.windows = s.drum.windows)
include hm hd

theorem State.core_of_written_same : t.core p a = if s.inDoubt p a then Config.drumWord t.turns p a else v :=
  (State.core_of_written hm hd p a).trans (if_pos ⟨rfl, rfl⟩)

theorem State.core_of_written_other (h : ¬(q = p ∧ b = a)) :
    t.core q b = State.core { s with turns := t.turns } q b :=
  (State.core_of_written hm hd q b).trans (if_neg h)

end

/-! Core after the two writes of a DCH i (R106). -/

section
variable {s t : State} {p q : MemNo} {y a b : Addr} {v m : Word}
  (hm : t.mem = State.written { s with mem := s.written p y v } p a m) (hd : t.drum.windows = s.drum.windows)
include hm hd

theorem State.core_of_written_twice_first (h : a ≠ y) :
    t.core p y = if s.inDoubt p y then Config.drumWord t.turns p y else v :=
  (State.core_of_written_other hm hd fun hay => h hay.2.symm).trans (State.core_of_written_same (s := s) rfl rfl)

theorem State.core_of_written_twice_other (h : ¬(q = p ∧ (b = a ∨ b = y))) :
    t.core q b = State.core { s with turns := t.turns } q b :=
  (State.core_of_written_other hm hd fun ha => h ⟨ha.1, .inl ha.2⟩).trans
    (State.core_of_written_other (s := s) rfl rfl fun hy => h ⟨hy.1, .inr hy.2⟩)

end

/-- Where the memory is addressed, a plain deposit rotates AC, and the memory is addressed after it (R105). -/
theorem State.Addresses.exec_dch {s t : State} {p : MemNo} {y : Addr} (hp : s.Addresses p)
    (h : exec (.dch y) s = .next t) : t.ac = rotateCharacter s.ac ∧ t.Addresses p := by
  obtain ⟨hb, hr⟩ := (s.addresses_iff p).1 hp
  cases (execDch_made hb hr y rfl rfl).symm.trans h
  exact ⟨rfl, hp⟩

end Sys2Proof.Machine
end

section
/-! The statements about the memory reference instructions (spec/40_memory_reference.md). -/

namespace Sys2Proof.Machine

/-- Settles O22: by the parts of the stepped pointer, with the address step as a number. -/
theorem pointerStep : Obligations.PointerStep := by
  intro ring w v c a
  refine ⟨pointerMiddle_stepPtr ring w, fun hc => ?_, fun hc => ?_⟩
  · have hcode : pointerCode w ≠ 3#2 := fun h => hc (congrArg BitVec.toNat h)
    constructor
    · have : c < 4 := (pointerCode w).isLt
      refine (congrArg BitVec.toNat ((pointerCode_stepPtr ring w).trans (if_neg hcode))).trans ?_
      exact (BitVec.toNat_add (pointerCode w) 1#2).trans (Nat.mod_eq_of_lt (show c + 1 < 4 by omega))
    · exact congrArg BitVec.toNat ((pointerAddress_stepPtr ring w).trans (if_neg hcode))
  · have hcode : pointerCode w = 3#2 := BitVec.eq_of_toNat_eq hc
    constructor
    · exact congrArg BitVec.toNat ((pointerCode_stepPtr ring w).trans (if_pos hcode))
    · refine (congrArg BitVec.toNat ((pointerAddress_stepPtr ring w).trans (if_pos hcode))).trans ?_
      exact addressStep_toNat ring (pointerAddress w)

/-- Settles O15: both cycles are made, and the bits are those of the character loaded. -/
theorem loadCharacterPlain : Obligations.LoadCharacterPlain := by
  intro s p y hp w a m
  obtain ⟨hb, hr⟩ := (s.addresses_iff p).1 hp
  refine ⟨_, execLch_made hb hr y rfl rfl, fun k hk => ?_, fun k _ hk => ?_, plainCode_toNat _, rfl⟩
  · exact (loadedCharacter_getMsbD (plainCode_ne_zero _) m hk).trans (by rw [characterStart_plainCode]; rfl)
  · exact characterWord_getMsbD_zero _ hk

/-- Settles O16: cycle one reads the core the defer cycle left, the stepped pointer in its place. -/
theorem loadCharacterAutomatic : Obligations.LoadCharacterAutomatic := by
  intro s p y hp v a m
  obtain ⟨hb, hr⟩ := (s.addresses_iff p).1 hp
  refine ⟨_, execLchI_made hb hr y rfl (s.core_deferredAuto p y a v), fun k hk => ?_, fun k _ hk => ?_, ?_,
    fun q b hne => ?_, rfl⟩
  · exact loadedCharacter_getMsbD (pointerCode_stepPtr_ne_zero _ _) m hk
  · exact characterWord_getMsbD_zero _ hk
  · exact State.core_of_written_same rfl rfl
  · exact State.core_of_written_other (s := s) rfl rfl hne

/-- Settles O17: both cycles are made, and one word is written. -/
theorem depositCharacterPlain : Obligations.DepositCharacterPlain := by
  intro s p y hp w a n m
  obtain ⟨hb, hr⟩ := (s.addresses_iff p).1 hp
  refine ⟨_, execDch_made hb hr y rfl rfl, fun k hk => ?_, ?_, fun q b hne => ?_, fun k hk => ?_, plainCode_toNat _, rfl⟩
  · have hn : n = characterStart (plainCode (pointerCode w)) := (characterStart_plainCode (pointerCode w)).symm
    rw [hn]
    exact putCharacter_getMsbD (plainCode_ne_zero _) s.ac m hk
  · exact State.core_of_written_same rfl rfl
  · exact State.core_of_written_other (s := s) rfl rfl hne
  · exact rotateCharacter_getMsbD s.ac hk

/-- Settles O18: the pointer is written, and then the word the stepped pointer names, which covers the first write where the
two are one. -/
theorem depositCharacterAutomatic : Obligations.DepositCharacterAutomatic := by
  intro s p y hp v a n m
  obtain ⟨hb, hr⟩ := (s.addresses_iff p).1 hp
  refine ⟨_, execDchI_made hb hr y rfl (s.core_deferredAuto p y a v), fun k hk => ?_, ?_, fun hay => ?_,
    fun q b hne => ?_, fun k hk => ?_, rfl⟩
  · exact putCharacter_getMsbD (pointerCode_stepPtr_ne_zero _ _) s.ac m hk
  · exact State.core_of_written_same (s := { s with mem := s.written p y v }) rfl rfl
  · exact State.core_of_written_twice_first (s := s) rfl rfl hay
  · exact State.core_of_written_twice_other (s := s) rfl rfl hne
  · exact rotateCharacter_getMsbD s.ac hk

/-- Settles O19: the access is made, and the sum is exact. -/
theorem twosComplementAdd : Obligations.TwosComplementAdd := by
  intro s p y hp m
  obtain ⟨hb, hr⟩ := (s.addresses_iff p).1 hp
  exact ⟨_, execTad_made hb hr y rfl, tad_exact s.ac s.link m, rfl⟩

/-- Settles O20: as O19, at the free effective address. -/
theorem twosComplementAddDeferred : Obligations.TwosComplementAddDeferred := by
  intro s p y hp e m
  obtain ⟨hb, hr⟩ := (s.addresses_iff p).1 hp
  exact ⟨_, execTadI_made hb hr y rfl, tad_exact s.ac s.link m, rfl⟩

/-- Settles O24: the first access traps with either value of RNG, or is made with either; what a plain form then finds in
core, and what it leaves, does not depend on RNG. -/
theorem ringModeDoesNotTouchPlainForms : Obligations.RingModeDoesNotTouchPlainForms := by
  intro s t y b i hi h
  have hall : i ∈ [Instr.lch y, .lchI y, .dch y, .dchI y, .tad y, .tadI y] := by
    simp only [List.mem_cons, List.not_mem_nil, or_false] at hi ⊢
    tauto
  rcases s.access_trichotomy with hf | hu | ⟨p, hp⟩
  · cases (exec_memoryReference_forbidden hall hf).symm.trans h
    exact exec_memoryReference_forbidden (s := { s with ring := b }) hall hf
  · exact nomatch (exec_memoryReference_unaddressable hall hu).symm.trans h
  · obtain ⟨hb, hr⟩ := (s.addresses_iff p).1 hp
    simp only [List.mem_cons, List.not_mem_nil, or_false] at hi
    rcases hi with rfl | rfl | rfl
    · cases (execLch_made hb hr y rfl rfl).symm.trans h
      exact execLch_made (s := { s with ring := b }) hb hr y rfl rfl
    · cases (execDch_made hb hr y rfl rfl).symm.trans h
      exact execDch_made (s := { s with ring := b }) hb hr y rfl rfl
    · cases (execTad_made hb hr y rfl).symm.trans h
      exact execTad_made (s := { s with ring := b }) hb hr y rfl

/-- Settles O25, from what O17 says of the word written and of the pointer, and O15 of the character then read. -/
theorem depositedCharacterIsLoaded : Obligations.DepositedCharacterIsLoaded := by
  intro s t u p y hp a hy ha hay ht hu k hk
  obtain ⟨t', ht', hmb, hwritten, hkept, -, -, hrest⟩ := depositCharacterPlain s p y hp
  cases ht'.symm.trans ht
  obtain ⟨u', hu', hfirst, hclear, -⟩ := loadCharacterPlain t p y (hp.exec_dch ht).2
  cases hu'.symm.trans hu
  have hpointer : t.core p y = s.core p y :=
    (hkept p y fun h => hay h.2.symm).trans (State.core_kept (s := s) (t := { s with turns := t.turns }) rfl rfl hy)
  have hta : t.inDoubt p a = false := (State.inDoubt_congr (congrArg (·.drum.windows) hrest) p a).trans ha
  have hword : t.drumTurn.core p a = t.mb :=
    (State.core_drumTurn hta).trans (hwritten.trans (if_neg (Bool.eq_false_iff.1 ha)))
  rw [hpointer, hword] at hfirst
  by_cases h6 : k < 6
  · have hstart := characterStart_le ((s.core p y).extractLsb' 16 2)
    rw [hfirst k h6, hmb _ (by omega), if_pos (by omega), Nat.add_sub_cancel_left, decide_eq_true h6, Bool.true_and]
  · rw [hclear k hk (Nat.not_lt.1 h6), decide_eq_false h6, Bool.false_and]

/-- Settles O26: each deposit rotates AC by one character, and three such rotations are none. -/
theorem threeDepositsRestoreAC : Obligations.ThreeDepositsRestoreAC := by
  intro s t u v p x y z hp ht hu hv
  obtain ⟨hact, hpt⟩ := hp.exec_dch ht
  obtain ⟨hacu, hpu⟩ := hpt.exec_dch hu
  obtain ⟨hacv, -⟩ := hpu.exec_dch hv
  rw [hacv, hacu, hact, rotateCharacter_three_times]

end Sys2Proof.Machine
end

section
/-! SUPPORT. What a skip does to the state, and zero as a word with no bit set (spec/10_state.md R8). -/

namespace Sys2Proof

/-- The test of SNI and SZI, bit by bit. -/
theorem Word.eq_zero_iff_getMsbD (w : Word) : w = 0#18 ↔ ∀ k < 18, w.getMsbD k = false := by
  constructor
  · rintro rfl k -
    exact BitVec.getMsbD_zero
  · intro h
    apply BitVec.eq_of_getMsbD_eq
    intro k hk
    rw [h k hk, BitVec.getMsbD_zero]

end Sys2Proof

namespace Sys2Proof.Machine

/-- A skip changes PC alone. -/
theorem State.skipIf_frame (c : Bool) (s : State) : s.skipIf c = { s with pc := (s.skipIf c).pc } := by
  cases c <;> rfl

/-- A skip that is made advances PC modulo 10000 octal (D2). -/
theorem State.skipIf_true_pc_toNat (s : State) : (s.skipIf true).pc.toNat = (s.pc.toNat + 1) % 4096 := by
  rw [State.skipIf_pc, if_pos rfl]
  exact BitVec.toNat_add s.pc 1#12

theorem State.skipIf_false (s : State) : s.skipIf false = s := rfl

end Sys2Proof.Machine
end

section
/-! The statements about the skip group and the I/O register operate instructions (spec/41_skip_and_operate.md). -/

namespace Sys2Proof.Machine

/-- Settles O27: the two skips test I/O against zero in opposite senses, and a skip changes PC alone. -/
theorem skipsOnIO : Obligations.SkipsOnIO := by
  intro s
  refine ⟨s.skipIf (s.io != 0#18), s.skipIf (s.io == 0#18), rfl, rfl, State.skipIf_frame _ s, State.skipIf_frame _ s,
    ?someBit, ?noBit⟩
  case someBit =>
    rintro ⟨k, hk, hbit⟩
    have hio : s.io ≠ 0#18 := fun h =>
      Bool.false_ne_true (((Word.eq_zero_iff_getMsbD s.io).1 h k hk).symm.trans hbit)
    rw [bne_iff_ne.2 hio, beq_eq_false_iff_ne.2 hio]
    exact ⟨s.skipIf_true_pc_toNat, congrArg State.pc s.skipIf_false⟩
  case noBit =>
    intro hbits
    have hio : s.io = 0#18 := (Word.eq_zero_iff_getMsbD s.io).2 hbits
    rw [bne_eq_false_iff_eq.2 hio, beq_iff_eq.2 hio]
    exact ⟨congrArg State.pc s.skipIf_false, s.skipIf_true_pc_toNat⟩

/-- Settles O28: each instruction writes the registers the statement names, and a complement is one bit by bit. -/
theorem registerTransfers : Obligations.RegisterTransfers := by
  intro s
  refine ⟨rfl, rfl, rfl, { s with io := ~~~s.io }, rfl, rfl, fun k hk => ?_⟩
  rw [BitVec.getMsbD_not, decide_eq_true hk, Bool.true_and]

end Sys2Proof.Machine
end

section
/-! SUPPORT. The special operate group: a pointer stepped many times, the accumulator's index and the special complement as
numbers, and the event times of SPC, component by component (spec/42_special_operate.md R150 to R156). -/

namespace Sys2Proof.Machine

/-! A pointer stepped many times. -/

/-- A pointer word is its code, bits 2 to 5 and address portion (R62). -/
theorem pointerWord_parts (w : Word) : pointerWord (pointerCode w) (pointerMiddle w) (pointerAddress w) = w := by
  apply BitVec.eq_of_getMsbD_eq
  intro k hk
  simp only [pointerWord, BitVec.getMsbD_append]
  split
  · rw [pointerAddress, extract_getMsbD w 0 (by omega) (by decide)]
    congr 1
    omega
  · split
    · rw [pointerMiddle, extract_getMsbD w 12 (by omega) (by decide)]
      congr 1
      omega
    · rw [pointerCode, extract_getMsbD w 16 (by omega) (by decide)]
      congr 1
      omega

theorem stepPtr_pointerWord (ring : Bool) (code : BitVec 2) (middle : BitVec 4) (a : Addr) :
    stepPtr ring (pointerWord code middle a) =
      if code = 3#2 then pointerWord 1#2 middle (addressStep ring a) else pointerWord (code + 1#2) middle a := by
  rw [stepPtr, pointerCode_pointerWord, pointerMiddle_pointerWord, pointerAddress_pointerWord]

/-- Three steps from a character lead to the same character of the next location (R101). -/
theorem stepPtr_three_times {code : BitVec 2} (hc : code ≠ 0#2) (ring : Bool) (middle : BitVec 4) (a : Addr) :
    (stepPtr ring)^[3] (pointerWord code middle a) = pointerWord code middle (addressStep ring a) := by
  have hcode : code = 1#2 ∨ code = 2#2 ∨ code = 3#2 := by
    revert code
    decide
  rcases hcode with rfl | rfl | rfl <;> simp [Function.iterate_succ_apply, stepPtr_pointerWord]

/-- Three steps for each location step the address portion alone (R101). -/
theorem stepPtr_iterate {code : BitVec 2} (hc : code ≠ 0#2) (ring : Bool) (middle : BitVec 4) (n : Nat) (a : Addr) :
    (stepPtr ring)^[3 * n] (pointerWord code middle a) = pointerWord code middle ((addressStep ring)^[n] a) := by
  have hstep : Function.Semiconj (pointerWord code middle) (addressStep ring) (stepPtr ring)^[3] := fun a =>
    (stepPtr_three_times hc ring middle a).symm
  rw [Function.iterate_mul]
  exact (hstep.iterate_right n a).symm

theorem ringStep_iterate_toNat (n : Nat) (a : Addr) :
    (ringStep^[n] a).toNat = a.toNat - a.toNat % 8 + (a.toNat + n) % 8 := by
  induction n with
  | zero =>
    simp only [Function.iterate_zero, id]
    omega
  | succ n ih =>
    rw [Function.iterate_succ_apply', ringStep_toNat, ih]
    omega

/-- A ring is eight locations (R151). -/
theorem ringStep_eight_times (a : Addr) : ringStep^[8] a = a := by
  apply BitVec.eq_of_toNat_eq
  rw [ringStep_iterate_toNat]
  omega

/-! The accumulator's index and the special complement as numbers. -/

/-- The low three bits of a word counted modulo 8, the others kept (R151, R155). -/
theorem countLowThree_toNat {n : Nat} (w : BitVec (n + 3)) :
    (w.extractLsb' 3 n ++ (w.extractLsb' 0 3 + 1#3)).toNat = w.toNat - w.toNat % 8 + (w.toNat + 1) % 8 := by
  have hlow : (w.extractLsb' 0 3 + 1#3).toNat = (w.toNat + 1) % 8 := by
    simp only [BitVec.toNat_add, BitVec.extractLsb'_toNat, Nat.shiftRight_zero, BitVec.toNat_ofNat]
    omega
  have hhigh : (w.extractLsb' 3 n).toNat = w.toNat / 8 := by
    rw [BitVec.extractLsb'_toNat, Nat.shiftRight_eq_div_pow, Nat.mod_eq_of_lt]
    exact Nat.div_lt_of_lt_mul (by have := w.isLt; rw [Nat.pow_add] at this; omega)
  rw [BitVec.toNat_append, ← Nat.shiftLeft_add_eq_or_of_lt (BitVec.isLt _), hlow, hhigh, Nat.shiftLeft_eq]
  omega

theorem indexAC_toNat (ring : Bool) (w : Word) :
    (indexAC ring w).toNat = if ring then w.toNat - w.toNat % 8 + (w.toNat + 1) % 8 else (w.toNat + 1) % 2 ^ 18 := by
  cases ring
  · exact BitVec.toNat_add w 1#18
  · exact countLowThree_toNat (n := 15) w

theorem specialComplement_toNat (ac : Word) (link : Bool) :
    (specialComplement ac link).toNat = (2 ^ 18 - 1 - ac.toNat + link.toNat) % 2 ^ 18 := by
  rw [specialComplement, BitVec.toNat_add, BitVec.toNat_not]
  cases link <;> rfl

/-- Complement and add one: the two's complement (R165). -/
theorem indexAC_specialComplement {ring link : Bool} (hring : ring = false) (hlink : link = false) (ac : Word) :
    indexAC ring (specialComplement ac link) = -ac := by
  rw [hring, hlink, BitVec.neg_eq_not_add]
  exact congrArg (· + 1#18) (BitVec.add_zero _)

/-! The event times, component by component (R16, R150). -/

/-- Event time 1 changes I/O and the flags alone. -/
theorem eventOne_frame (a : SpcActs) (s : State) :
    let u := eventOne a s
    u = { s with io := u.io, link := u.link, ring := u.ring, pf := u.pf } := by
  obtain ⟨_, _, _, _, _, sci, scf, _, cll, _⟩ := a
  cases sci <;> cases scf <;> cases cll <;> rfl

theorem eventOne_link_eq (a : SpcActs) (s : State) : (eventOne a s).link = (s.link && !(a.scf || a.cll)) := by
  rw [eventOne_link]
  cases a.scf || a.cll <;> simp

theorem eventOne_ring_eq (a : SpcActs) (s : State) : (eventOne a s).ring = (s.ring && !a.scf) := by
  rw [eventOne_ring]
  cases a.scf <;> simp

theorem eventOne_pf_getMsbD (a : SpcActs) (s : State) (k : Nat) :
    (eventOne a s).pf.getMsbD k = (s.pf.getMsbD k && !a.scf) := by
  rw [eventOne_pf]
  cases a.scf <;> simp

/-- Event time 2 ORs bits of I/O into the flag byte if IFI is asked for. -/
theorem eventTwo_flags_getMsbD (a : SpcActs) (s : State) {k : Nat} (hk : k < 8) :
    (if a.ifi then s.flags8 ||| lowEight s.io else s.flags8).getMsbD k =
      (s.flags8.getMsbD k || (a.ifi && s.io.getMsbD (10 + k))) := by
  cases a.ifi
  · simp
  · simp [lowEight_getMsbD s.io hk]

theorem eventTwo_link_eq (a : SpcActs) (s : State) :
    (eventTwo a s).link = (s.link || (a.ifi && s.io.getMsbD 10)) := by
  rw [eventTwo_link, eventTwo_flags_getMsbD a s (by decide), s.flags8_getMsbD_zero]

theorem eventTwo_ring_eq (a : SpcActs) (s : State) :
    (eventTwo a s).ring = (s.ring || (a.ifi && s.io.getMsbD 11)) := by
  rw [eventTwo_ring, eventTwo_flags_getMsbD a s (by decide), s.flags8_getMsbD_one]

theorem eventTwo_pf_getMsbD (a : SpcActs) (s : State) {k : Nat} (hk : k < 6) :
    (eventTwo a s).pf.getMsbD k = (s.pf.getMsbD k || (a.ifi && s.io.getMsbD (12 + k))) := by
  rw [eventTwo, State.setFlags8_pf_getMsbD _ _ hk, eventTwo_flags_getMsbD a s (by omega), s.flags8_getMsbD_add_two,
    show 10 + (k + 2) = 12 + k by omega]

theorem eventTwo_io_getMsbD (a : SpcActs) (s : State) (k : Nat) :
    (eventTwo a s).io.getMsbD k = (s.io.getMsbD k || (a.iif && (s.flags8.setWidth 18).getMsbD k)) := by
  rw [eventTwo_io]
  cases a.iif
  · exact (Bool.or_false _).symm
  · exact BitVec.getMsbD_or

theorem eventTwo_ac_toNat (a : SpcActs) (s : State) :
    (eventTwo a s).ac.toNat =
      if a.scm then (2 ^ 18 - 1 - s.ac.toNat + s.link.toNat) % 2 ^ 18 else s.ac.toNat := by
  rw [eventTwo_ac, apply_ite BitVec.toNat, specialComplement_toNat]

theorem eventThree_ac_toNat (a : SpcActs) (s : State) :
    (eventThree a s).ac.toNat =
      if a.ida then (if s.ring then s.ac.toNat - s.ac.toNat % 8 + (s.ac.toNat + 1) % 8 else (s.ac.toNat + 1) % 2 ^ 18)
      else s.ac.toNat := by
  rw [eventThree_ac, apply_ite BitVec.toNat, indexAC_toNat]

theorem eventThree_link_eq (a : SpcActs) (s : State) : (eventThree a s).link = (s.link != a.cml) := by
  rw [eventThree_link]
  cases a.cml <;> simp

/-- SZL's test, reversed or not, is whether the link is as `rev` says. -/
theorem State.skipNoted_eq (s : State) (rev : Bool) (a : SpcActs) : s.skipNoted rev a = (a.szl && (s.link == rev)) := by
  rw [State.skipNoted]
  cases s.link <;> cases rev <;> rfl

theorem State.skipNoted_szl {a : SpcActs} (h : a.szl = true) (rev : Bool) (s : State) :
    s.skipNoted rev a = (s.link == rev) := by
  rw [State.skipNoted_eq, h, Bool.true_and]

/-! SPC as one state (R150). -/

/-- What the four event times and the skip noted in the first leave (R150). -/
def State.specialOperated (rev : Bool) (a : SpcActs) (s : State) : State :=
  State.skipIf (s.skipNoted rev a) (eventFour a (eventThree a (eventTwo a (eventOne a s))))

theorem execSpc_made {rev : Bool} {a : SpcActs} (h : rev = false ∨ a.szl = true) (s : State) :
    execSpc rev a s = .next (s.specialOperated rev a) := by
  rw [execSpc, if_neg]
  · rfl
  · rcases h with h | h <;> simp [h]

theorem execSpc_refused {a : SpcActs} (h : a.szl = false) (s : State) :
    execSpc true a s = .refused .reverseWithoutSkip := by
  simp [execSpc, h]

/-- SPC changes AC, I/O, PC and the flags alone. -/
theorem State.specialOperated_frame (rev : Bool) (a : SpcActs) (s : State) :
    let t := s.specialOperated rev a
    t = { s with ac := t.ac, io := t.io, pc := t.pc, link := t.link, ring := t.ring, pf := t.pf } := by
  intro t
  simp only [t, State.specialOperated]
  rw [State.skipIf_frame, eventOne_frame]
  rfl

theorem State.specialOperated_ac (rev : Bool) (a : SpcActs) (s : State) :
    (s.specialOperated rev a).ac = (eventFour a (eventThree a (eventTwo a (eventOne a s)))).ac :=
  State.skipIf_ac _ _

theorem State.specialOperated_io (rev : Bool) (a : SpcActs) (s : State) :
    (s.specialOperated rev a).io = (eventTwo a (eventOne a s)).io :=
  State.skipIf_io _ _

theorem State.specialOperated_link (rev : Bool) (a : SpcActs) (s : State) :
    (s.specialOperated rev a).link = ((eventTwo a (eventOne a s)).link != a.cml) :=
  (State.skipIf_link _ _).trans (eventThree_link_eq a _)

theorem State.specialOperated_ring (rev : Bool) (a : SpcActs) (s : State) :
    (s.specialOperated rev a).ring = (eventTwo a (eventOne a s)).ring :=
  State.skipIf_ring _ _

theorem State.specialOperated_pf (rev : Bool) (a : SpcActs) (s : State) :
    (s.specialOperated rev a).pf = (eventTwo a (eventOne a s)).pf :=
  State.skipIf_pf _ _

theorem State.specialOperated_pc (rev : Bool) (a : SpcActs) (s : State) :
    (s.specialOperated rev a).pc = if s.skipNoted rev a then s.pc + 1#12 else s.pc := by
  rw [State.specialOperated, State.skipIf_pc]
  simp

/-! Combined words (R165). -/

/-- A special operate word that is none of the single ones leaves what its event times leave, PC advanced first (R12). -/
theorem runWord_spc {w : Word} {rev : Bool} {a : SpcActs} {x : BitVec 2} {s t : State}
    (hw : decode w = .ok (.spc rev a x)) (h : rev = false ∨ a.szl = true) (ht : s.advance.specialOperated rev a = t) :
    runWord w s = .next t :=
  (runWord_ok hw s).trans ((execSpc_made h s.advance).trans (congrArg Host.Outcome.next ht))

/-- The skip comes on top of PC's advance past the word (R8). -/
theorem State.skipIf_advance (c : Bool) (s : State) :
    s.advance.skipIf c = { s with pc := if c then s.pc + 2#12 else s.pc + 1#12 } := by
  cases c
  · rfl
  · exact congrArg (fun pc => { s with pc := pc }) (BitVec.add_assoc s.pc 1#12 1#12)

/-- The flags ORed into an I/O that was cleared (R165). -/
theorem zero_or_setWidth (f : BitVec 8) : 0#18 ||| f.setWidth 18 = 0#10 ++ f := by
  rw [BitVec.zero_or, BitVec.setWidth_eq_append (by decide)]
  rfl

/-- SPC without IIF, IFI and SCM has event times 1, 3 and 4 only (R150). -/
theorem State.specialOperated_idle {a : SpcActs} (h : a.scm = false ∧ a.ifi = false ∧ a.iif = false) (rev : Bool)
    (s : State) :
    s.specialOperated rev a = State.skipIf (s.skipNoted rev a) (eventFour a (eventThree a (eventOne a s))) := by
  rw [State.specialOperated, eventTwo_idle h]

/-- Event time 2 with SCM alone writes AC alone (R150). -/
theorem eventTwo_scm {a : SpcActs} (h : a.scm = true ∧ a.ifi = false ∧ a.iif = false) (s : State) :
    eventTwo a s = { s with ac := specialComplement s.ac s.link } := by
  obtain ⟨hscm, hifi, hiif⟩ := h
  simp only [eventTwo, hscm, hifi, hiif]
  exact State.setFlags8_flags8 { s with ac := specialComplement s.ac s.link }

theorem State.flags8_clearFlags (s : State) : s.clearFlags.flags8 = 0#8 := by
  change BitVec.ofBool false ++ BitVec.ofBool false ++ 0#6 = 0#8
  decide

/-- IFI with the flags clear: they become bits 10 to 17 of I/O (R16). -/
theorem State.setFlags8_of_clear {s : State} (h : s.flags8 = 0#8) (w : Word) :
    s.setFlags8 (s.flags8 ||| lowEight w) =
      { s with link := w.getMsbD 10, ring := w.getMsbD 11, pf := w.extractLsb' 0 6 } := by
  have hpf : (lowEight w).extractLsb' 0 6 = w.extractLsb' 0 6 := BitVec.extractLsb'_extractLsb'_of_le (by decide)
  rw [h, BitVec.zero_or, State.setFlags8, lowEight_getMsbD w (by decide), lowEight_getMsbD w (by decide), hpf]

end Sys2Proof.Machine
end

section
/-! The statements about the special operate group (spec/42_special_operate.md). -/

namespace Sys2Proof.Machine

/-- Settles O34: component by component, what each event time makes of what the event time before it left. -/
theorem specialOperateWord : Obligations.SpecialOperateWord := by
  intro s rev a x
  refine ⟨fun ⟨hrev, hszl⟩ => hrev ▸ execSpc_refused hszl s, fun h => ?_⟩
  intro io1 link1 ring1 flag1 ac2 ring2 ac3
  have hio : (eventOne a s).io = io1 := eventOne_io a s
  have hlink : (eventOne a s).link = link1 := eventOne_link_eq a s
  have hring : (eventOne a s).ring = ring1 := eventOne_ring_eq a s
  have hring2 : (eventTwo a (eventOne a s)).ring = ring2 := by rw [eventTwo_ring_eq, hring, hio]
  have hac2 : (eventTwo a (eventOne a s)).ac.toNat = ac2 := by rw [eventTwo_ac_toNat, hlink, eventOne_ac]
  have hac3 : (eventThree a (eventTwo a (eventOne a s))).ac = BitVec.ofNat 18 ac3 := by
    have hn : (eventThree a (eventTwo a (eventOne a s))).ac.toNat = ac3 := by rw [eventThree_ac_toNat, hring2, hac2]
    rw [← hn, BitVec.ofNat_toNat, BitVec.setWidth_eq]
  have hioBit : ∀ k, (s.specialOperated rev a).io.getMsbD k =
      (io1.getMsbD k || (a.iif && ((eventOne a s).flags8.setWidth 18).getMsbD k)) := fun k => by
    rw [State.specialOperated_io, eventTwo_io_getMsbD, hio]
  refine ⟨s.specialOperated rev a, execSpc_made h s, ?frame, ?ac, fun k hk => ?io, ?io10, ?io11, fun k hk => ?io12, ?link,
    fun k hk => ?pf, ?pc⟩
  case frame =>
    rw [← hring2, ← State.specialOperated_ring rev]
    exact s.specialOperated_frame rev a
  case ac => rw [State.specialOperated_ac, eventFour_ac, eventThree_ring, hring2, hac3]
  case io => rw [hioBit, setWidth_getMsbD_lt_ten _ hk, Bool.and_false, Bool.or_false]
  case io10 => rw [hioBit, setWidth_getMsbD_add_ten _ 0, State.flags8_getMsbD_zero, hlink]
  case io11 => rw [hioBit, setWidth_getMsbD_add_ten _ 1, State.flags8_getMsbD_one, hring]
  case io12 =>
    rw [hioBit, show 12 + k = k + 2 + 10 by omega, setWidth_getMsbD_add_ten, State.flags8_getMsbD_add_two,
      eventOne_pf_getMsbD]
  case link => rw [State.specialOperated_link, eventTwo_link_eq, hlink, hio]
  case pf => rw [State.specialOperated_pf, eventTwo_pf_getMsbD _ _ hk, eventOne_pf_getMsbD, hio]
  case pc => rw [State.specialOperated_pc, State.skipNoted_eq]

/-- Settles O23: twenty-four steps are eight of the address portion around its ring. -/
theorem ringReturnsAfterTwentyFourSteps : Obligations.RingReturnsAfterTwentyFourSteps := by
  intro w hc
  calc (stepPtr true)^[3 * 8] w
      = (stepPtr true)^[3 * 8] (pointerWord (pointerCode w) (pointerMiddle w) (pointerAddress w)) := by
        rw [pointerWord_parts]
    _ = pointerWord (pointerCode w) (pointerMiddle w) (ringStep^[8] (pointerAddress w)) := stepPtr_iterate hc true _ 8 _
    _ = w := by rw [ringStep_eight_times, pointerWord_parts]

/-- Settles O30: IDA's sum as a number. -/
theorem indexInstructions : Obligations.IndexInstructions := fun s _ =>
  ⟨_, { s with ac := indexAC s.ring s.ac }, rfl, rfl, rfl, rfl, indexAC_toNat s.ring s.ac⟩

/-- Settles O31: the special complement as a number. (`specialComplement` is the model's own function.) -/
theorem scmSpecialComplement : Obligations.SpecialComplement := fun s _ =>
  ⟨{ s with ac := specialComplement s.ac s.link }, rfl, rfl, specialComplement_toNat s.ac s.link⟩

/-- Settles O32: each instruction writes what the statement names. -/
theorem clearsAndLink : Obligations.ClearsAndLink := fun _ _ => ⟨rfl, rfl, rfl, rfl⟩

/-- Settles O33: the two skips test the link in opposite senses, and a skip changes PC alone. -/
theorem skipsOnLink : Obligations.SkipsOnLink := by
  intro s x
  refine ⟨⟨s.skipIf (!s.link), s.skipIf s.link, rfl, rfl, State.skipIf_frame _ s, State.skipIf_frame _ s, ?linkZero,
    ?linkOne⟩, fun acts hszl => execSpc_refused hszl s⟩
  case linkZero =>
    intro hlink
    rw [hlink]
    exact ⟨s.skipIf_true_pc_toNat, congrArg State.pc s.skipIf_false⟩
  case linkOne =>
    intro hlink
    rw [hlink]
    exact ⟨congrArg State.pc s.skipIf_false, s.skipIf_true_pc_toNat⟩

/-- Settles O36: the words' event times, one after the other. -/
theorem combinedWords : Obligations.CombinedWords := by
  intro s
  refine ⟨runWord_spc rfl (.inl rfl) ?iifSci, fun hring hlink => runWord_spc rfl (.inl rfl) ?scmIda, ?szlRev,
    runWord_spc rfl (.inl rfl) ?ifiScf, runWord_spc rfl (.inl rfl) ?cllCml, runWord_spc rfl (.inl rfl) ?szlCll,
    fun hring => runWord_spc rfl (.inl rfl) ?scmIdaCll, runWord_spc rfl (.inl rfl) ?idcIda,
    runWord_spc rfl (.inl rfl) ?sciScf⟩
  case iifSci =>
    rw [← zero_or_setWidth]
    exact State.setFlags8_flags8 { s.advance with io := 0#18 ||| s.flags8.setWidth 18 }
  case scmIda =>
    rw [State.specialOperated, eventTwo_scm (by decide), ← indexAC_specialComplement hring hlink]
    rfl
  case szlRev => exact congrArg Host.Outcome.next (s.skipIf_advance s.link)
  case ifiScf => exact State.setFlags8_of_clear s.advance.flags8_clearFlags s.io
  case szlCll =>
    rw [State.specialOperated_idle (by decide), State.skipNoted_szl rfl]
    refine (State.skipIf_advance (s.link == false) { s with link := false }).trans ?_
    cases s.link
    · rfl
    · rfl
  case scmIdaCll =>
    rw [State.specialOperated, eventTwo_scm (by decide), ← indexAC_specialComplement hring rfl]
    rfl
  case cllCml | idcIda | sciScf =>
    rw [State.specialOperated_idle (by decide)]
    rfl

end Sys2Proof.Machine
end

section
/-! SUPPORT. The machine's invariant is kept: by changes of the state that touch one of its clauses at a time, then by the
shared operations, then by each group of instructions (spec/20_memory.md section 1, spec/43_iot_processor.md R193, R194,
spec/60_exceptions.md R261, R265, spec/70_reset_and_hazards.md R293). -/

namespace Sys2Proof.Machine

/-! Changes of the state. -/

/-- Where mode, protection and breaks stay, the clauses on core and on the drum's sequence are left to show. -/
theorem State.Inv.changed {s t : State} (h : s.Inv) (hbreaks : t.breaks = s.breaks) (hrm : t.rm = s.rm)
    (hprot : t.prot = s.prot) (hmem : Memory.wf t.mem) (hlists : t.ListsNoWordInDoubt)
    (hseq : t.SequencesOnlyAfterTransfers) : t.Inv where
  memoryForm := hmem
  trapsOnlyRestricted := by
    rw [State.TrapsOnlyRestricted, hbreaks, hrm]
    exact h.trapsOnlyRestricted
  noDeviceBreak := by
    rw [State.NoDeviceBreak, hbreaks]
    exact h.noDeviceBreak
  protectsOnlyRestricted := by
    rw [State.ProtectsOnlyRestricted, hrm, hprot]
    exact h.protectsOnlyRestricted
  listsNoWordInDoubt := hlists
  sequencesOnlyAfterTransfers := hseq

/-- No clause of the invariant reads the rest of the state. -/
theorem State.Inv.kept {s t : State} (h : s.Inv) (hbreaks : t.breaks = s.breaks) (hrm : t.rm = s.rm)
    (hprot : t.prot = s.prot) (hmem : t.mem = s.mem) (hwindows : t.drum.windows = s.drum.windows)
    (hgo : t.drum.go = s.drum.go) (hsequence : t.drum.sequence = s.drum.sequence) : t.Inv := by
  refine h.changed hbreaks hrm hprot (hmem ▸ h.memoryForm) (fun cell hc => ?_) ?_
  · rw [State.inDoubt_congr hwindows]
    exact h.listsNoWordInDoubt cell (hmem ▸ hc)
  · rw [State.SequencesOnlyAfterTransfers, hgo, hsequence]
    exact h.sequencesOnlyAfterTransfers

section
variable {s : State} (h : s.Inv)
include h

/-- Outside restrict mode no trap is pending. -/
theorem State.Inv.untrapped (hrm : s.rm = false) : s.Untrapped := by
  by_contra htrap
  exact Bool.false_ne_true (hrm.symm.trans (h.trapsOnlyRestricted htrap))

/-- In restrict mode a trap keeps the invariant (R261). -/
theorem State.Inv.restrictTrap (hrm : s.rm = true) (cause : TrapCause) : (s.restrictTrap cause).Inv where
  memoryForm := h.memoryForm
  trapsOnlyRestricted := fun _ => hrm
  noDeviceBreak := h.noDeviceBreak
  protectsOnlyRestricted := h.protectsOnlyRestricted
  listsNoWordInDoubt := h.listsNoWordInDoubt
  sequencesOnlyAfterTransfers := h.sequencesOnlyAfterTransfers

theorem State.Inv.advance : s.advance.Inv := h.kept rfl rfl rfl rfl rfl rfl rfl

theorem State.Inv.afterRead (p : MemNo) (a : Addr) : (s.afterRead p a).Inv := h.kept rfl rfl rfl rfl rfl rfl rfl

theorem State.Inv.afterWrite (p : MemNo) (a : Addr) (v : Word) : (s.afterWrite p a v).Inv :=
  h.changed rfl rfl rfl (State.afterWrite_keeps_wf h.memoryForm p a v)
    (State.afterWrite_listsNoWordInDoubt h.listsNoWordInDoubt p a v) h.sequencesOnlyAfterTransfers

theorem State.Inv.devOut (e : DevEvent) : (s.devOut e).Inv := h.kept rfl rfl rfl rfl rfl rfl rfl

/-- LRM: the mode and the protect bits go together, and no trap is pending when it runs (R193). -/
theorem State.Inv.leaveRestrictMode (hrm : s.rm = false) : State.Inv { s with rm := false, prot := 0#4 } where
  memoryForm := h.memoryForm
  trapsOnlyRestricted := fun htrap => absurd (h.untrapped hrm) htrap
  noDeviceBreak := h.noDeviceBreak
  protectsOnlyRestricted := fun _ => rfl
  listsNoWordInDoubt := h.listsNoWordInDoubt
  sequencesOnlyAfterTransfers := h.sequencesOnlyAfterTransfers

/-- ERM: in restrict mode any protection is admitted (R194). -/
theorem State.Inv.enterRestrictMode (prot : BitVec 4) : State.Inv { s with rm := true, prot := prot } where
  memoryForm := h.memoryForm
  trapsOnlyRestricted := fun _ => rfl
  noDeviceBreak := h.noDeviceBreak
  protectsOnlyRestricted := fun hrm => nomatch hrm
  listsNoWordInDoubt := h.listsNoWordInDoubt
  sequencesOnlyAfterTransfers := h.sequencesOnlyAfterTransfers

/-- A renaming hands the words newly in doubt to the drum (R53). -/
theorem State.Inv.rename (names : Vector MemNo 4) : (s.rename names).Inv :=
  h.changed rfl rfl rfl (Memory.filter_keeps_wf h.memoryForm _) (State.yieldToDrum_listsNoWordInDoubt _)
    h.sequencesOnlyAfterTransfers

/-- DIA takes back GO as it begins a sequence (R293). -/
theorem State.Inv.drumInitial : s.drumInitial.Inv :=
  h.changed rfl rfl rfl h.memoryForm h.listsNoWordInDoubt fun hgo => nomatch hgo

/-- DBA begins no sequence while a transfer runs, and GO stands after it only if one does (R224). -/
theorem State.Inv.drumBreak : s.drumBreak.Inv := by
  refine h.changed rfl rfl rfl h.memoryForm h.listsNoWordInDoubt fun hrunning => ?_
  have hrunning : s.transferRunning = true := hrunning
  have hsequence := h.sequencesOnlyAfterTransfers (s.transferRunning_iff.1 hrunning).1
  rw [State.drumBreak_drum, hsequence, hrunning]
  rfl

/-- DWC finds a sequence open, so GO does not stand (R222, R293). -/
theorem State.Inv.drumCount (hopen : s.drum.sequence ∈ [.addressGiven, .breakGiven]) : s.drumCount.Inv := by
  refine h.changed rfl rfl rfl h.memoryForm h.listsNoWordInDoubt fun hgo => ?_
  rw [h.sequencesOnlyAfterTransfers hgo] at hopen
  simp at hopen

/-- DCL ends the sequence and hands the window of a read to the drum (R223, R226). -/
theorem State.Inv.drumGo (p : MemNo) : (s.drumGo p).Inv :=
  h.changed rfl rfl rfl (Memory.filter_keeps_wf h.memoryForm _) (State.yieldToDrum_listsNoWordInDoubt _) fun _ => rfl

/-! The shared operations: the invariant holds after them if what follows them keeps it. -/

theorem State.Inv.access {t : State} {k : MemNo → Result} (ht : access s k = .next t)
    (hk : ∀ p, k p = .next t → t.Inv) : t.Inv := by
  rcases access_next_cases ht with ⟨hblocked, rfl⟩ | ⟨p, -, -, hp⟩
  · exact h.restrictTrap (s.forbidden_iff.2 hblocked).1 .protectedMemory
  · exact hk p hp

theorem State.Inv.memRead {a : Addr} {t : State} {k : Word → State → Result} (ht : memRead a s k = .next t)
    (hk : ∀ w u, u.Inv → k w u = .next t → t.Inv) : t.Inv :=
  h.access ht fun p => hk _ _ (h.afterRead p a)

theorem State.Inv.memWrite {a : Addr} {v : Word} {t : State} {k : State → Result} (ht : memWrite a v s k = .next t)
    (hk : ∀ u, u.Inv → k u = .next t → t.Inv) : t.Inv :=
  h.access ht fun p => hk _ (h.afterWrite p a v)

theorem State.Inv.charAddrPlain {y : Addr} {t : State} {k : BitVec 2 → Addr → State → Result}
    (ht : charAddrPlain y s k = .next t) (hk : ∀ code a u, u.Inv → k code a u = .next t → t.Inv) : t.Inv :=
  h.memRead ht fun _ _ hu => hk _ _ _ (hu.kept rfl rfl rfl rfl rfl rfl rfl)

theorem State.Inv.charAddrAuto {y : Addr} {t : State} {k : BitVec 2 → Addr → State → Result}
    (ht : charAddrAuto y s k = .next t) (hk : ∀ code a u, u.Inv → k code a u = .next t → t.Inv) : t.Inv :=
  h.memRead ht fun _ _ hu hwrite => hu.memWrite hwrite fun _ hv => hk _ _ _ (hv.kept rfl rfl rfl rfl rfl rfl rfl)

theorem State.Inv.loadCharacter {code : BitVec 2} {a : Addr} {t : State} (ht : loadCharacter code a s = .next t) :
    t.Inv :=
  h.memRead ht fun _ _ hu he => Host.Outcome.next.inj he ▸ hu.kept rfl rfl rfl rfl rfl rfl rfl

theorem State.Inv.depositCharacter {code : BitVec 2} {a : Addr} {t : State}
    (ht : depositCharacter code a s = .next t) : t.Inv :=
  h.memRead ht fun _ _ hu hwrite => hu.memWrite hwrite fun _ hv he =>
    Host.Outcome.next.inj he ▸ hv.kept rfl rfl rfl rfl rfl rfl rfl

theorem State.Inv.addWord {e : Addr} {t : State} {k : State → Result} (ht : addWord e s k = .next t)
    (hk : ∀ u, u.Inv → k u = .next t → t.Inv) : t.Inv :=
  h.memRead ht fun _ _ hu => hk _ (hu.kept rfl rfl rfl rfl rfl rfl rfl)

/-- An in-out transfer traps in restrict mode, and otherwise does its work outside it (R190). -/
theorem State.Inv.inOut {t : State} {k : State → Result} (ht : inOut s k = .next t)
    (hk : s.rm = false → k s = .next t → t.Inv) : t.Inv := by
  rcases Bool.eq_false_or_eq_true s.rm with hrm | hrm
  · cases (inOut_restricted hrm k).symm.trans ht
    exact h.restrictTrap hrm .iot
  · exact hk hrm ((inOut_normal hrm k).symm.trans ht)

/-! The groups of instructions. -/

/-- Of the in-out transfers LRM and ERM touch the mode, the renamings what is in doubt, and the drum's own its sequence. -/
theorem State.Inv.exec_iot {i : Instr} {t : State} (hi : i.isIot = true) (ht : exec i s = .next t) : t.Inv := by
  cases i with
  | lch | lchI | dch | dchI | tad | tadI | sni | szi | lia | lai | swp | cmi | spc | iif | ifi | idc | ida | scm | sci
  | scf | szl | cll | cml | szlRev => cases hi
  | lrm =>
    rw [exec] at ht
    refine h.inOut ht ?_
    rintro hrm ⟨⟩
    exact h.leaveRestrictMode hrm
  | erm =>
    rw [exec] at ht
    refine h.inOut ht ?_
    rintro - ⟨⟩
    exact h.enterRestrictMode _
  | rsm | rnm =>
    rw [exec] at ht
    refine h.inOut ht ?_
    rintro - ⟨⟩
    exact h.rename _
  | dia =>
    rw [exec] at ht
    refine h.inOut ht fun _ hdia => ?_
    cases (beginSequence_next hdia).2
    exact h.drumInitial.devOut _
  | dba =>
    rw [exec] at ht
    refine h.inOut ht ?_
    rintro - ⟨⟩
    exact h.drumBreak.devOut _
  | dwc =>
    rw [exec] at ht
    refine h.inOut ht fun _ hdwc => ?_
    obtain ⟨hopen, hcount⟩ := inDrumOrder_next hdwc
    cases hcount
    exact (h.drumCount hopen).devOut _
  | dcl =>
    rw [exec] at ht
    refine h.inOut ht fun _ hdcl => ?_
    obtain ⟨p, -, hp⟩ := named_next (withMeaning_next (inDrumOrder_next hdcl).2).2
    cases hp
    exact (h.drumGo p).devOut _
  | erg | lrg | rck | ctb | rro | rri | dra | rch | rcc | tcc | tcb | rrc | ssb | rsc | dpy | sdb | gpl | gpr | gcf | glf
  | gsp =>
    rw [exec] at ht
    refine h.inOut ht ?_
    rintro - ⟨⟩
    apply h.kept <;> simp

theorem State.Inv.exec_memoryReference {i : Instr} {y : Addr} {t : State}
    (hi : i ∈ [Instr.lch y, .lchI y, .dch y, .dchI y, .tad y, .tadI y]) (ht : exec i s = .next t) : t.Inv := by
  simp only [List.mem_cons, List.not_mem_nil, or_false] at hi
  rcases hi with rfl | rfl | rfl | rfl | rfl | rfl
  · exact h.charAddrPlain ht fun _ _ _ hu => hu.loadCharacter
  · exact h.charAddrAuto ht fun _ _ _ hu => hu.loadCharacter
  · exact h.charAddrPlain ht fun _ _ _ hu => hu.depositCharacter
  · exact h.charAddrAuto ht fun _ _ _ hu => hu.depositCharacter
  · exact h.addWord ht fun _ hu he => Host.Outcome.next.inj he ▸ hu
  · rw [exec, execTadI] at ht
    exact h.addWord ht fun _ hu he => Host.Outcome.next.inj he ▸ hu.kept rfl rfl rfl rfl rfl rfl rfl

/-- Only in-out transfers and memory references touch what the invariant speaks of. -/
theorem State.Inv.exec {i : Instr} {t : State} (ht : exec i s = .next t) : t.Inv := by
  rcases instr_groups i with hi | ⟨y, hi⟩ | ⟨x, hi⟩ | ⟨rev, acts, x, rfl⟩ | ⟨x, hi⟩
  · exact h.exec_iot hi ht
  · exact h.exec_memoryReference hi ht
  · obtain ⟨c, hc⟩ := exec_skip hi s
    cases hc.symm.trans ht
    apply h.kept <;> simp
  · rw [execSpc_next ht]
    apply h.kept <;> simp
  · simp only [List.mem_cons, List.not_mem_nil, or_false] at hi
    rcases hi with rfl | rfl | rfl | rfl | rfl | rfl | rfl | rfl | rfl | rfl | rfl | rfl | rfl <;> cases ht <;>
      exact h.kept rfl rfl rfl rfl rfl rfl rfl

end

end Sys2Proof.Machine
end

section
/-! SUPPORT. What the in-out transfers of the processor answer outside restrict mode
(spec/43_iot_processor.md R191 to R200). -/

namespace Sys2Proof.Machine

section
variable {s : State} (h : s.rm = false)
include h

theorem execErg_normal : execErg s = .next { s with ring := true } := inOut_normal h _

theorem execLrg_normal : execLrg s = .next { s with ring := false } := inOut_normal h _

theorem execLrm_normal : execLrm s = .next { s with rm := false, prot := 0#4 } := inOut_normal h _

theorem execErm_normal : execErm s = .next { s with rm := true, prot := protectBits s.io } := inOut_normal h _

theorem execRck_normal :
    execRck s = .next { s with
      io := Config.clockRead s.draws, ckb := Config.clockRead s.draws, draws := s.draws + 1 } :=
  inOut_normal h _

theorem execCtb_normal : execCtb s = .next { s with tb := 0 } := inOut_normal h _

theorem execRro_normal :
    execRro s = .next { s with
      remRand := { s.remRand with conditionsOut := s.io }, history := s.history ++ [.remRandRro s.io] } :=
  inOut_normal h _

theorem execRri_normal :
    execRri s = .next { s with
      io := Config.remRandIn s.draws, remRand := { s.remRand with conditionsIn := Config.remRandIn s.draws }
      draws := s.draws + 1 } :=
  inOut_normal h _

end

end Sys2Proof.Machine
end

section
/-! The statements about the in-out transfers of the processor (spec/43_iot_processor.md). -/

namespace Sys2Proof.Machine

/-- Settles O58: the trap of the fetch, the instruction fetched and the trap of a word that is none each keep it. -/
theorem invariantIsKept : Obligations.InvariantIsKept := by
  intro s t h ht
  rcases step_next_cases ht with ⟨hforbidden, rfl⟩ | ⟨p, -, ⟨i, -, hexec⟩ | ⟨hrm, -, cause, rfl⟩⟩
  · exact h.restrictTrap hforbidden.1 .protectedMemory
  · exact (h.afterRead p s.pc).advance.exec hexec
  · exact (h.afterRead p s.pc).advance.restrictTrap hrm cause

/-- Settles O37: the trap is what R190's check answers. -/
theorem inOutTransfersTrapInRestrictMode : Obligations.InOutTransfersTrapInRestrictMode := fun _ _ hi hrm =>
  ⟨_, exec_iot_restricted hi hrm, rfl⟩

/-- Settles O38, from what each in-out transfer leaves of core and of the processor. -/
theorem inOutTransfersLeaveTheProcessor : Obligations.InOutTransfersLeaveTheProcessor := by
  intro s t i hi h
  have hproc := exec_iot_leavesProcessor hi h
  exact ⟨(exec_iot_leavesCore hi h).core, hproc.ac, hproc.pc, hproc.link, hproc.pf, hproc.ring⟩

/-- Settles O41: both are renamings, and a renaming does to core and to what is in doubt the same whatever the names. -/
theorem memoryNames : Obligations.MemoryNames := by
  intro s xx hrm
  refine ⟨_, _, execRnm_normal hrm xx, execRsm_normal hrm, s.nameOf_rename_set _ _, s.nameOf_rename_physical, ?_⟩
  have hrename : ∀ names, s.rename names = { s with
      names := (s.rename names).names, mem := (s.rename names).mem
      drum := { s.drum with windows := (s.rename names).drum.windows } } := fun _ => rfl
  intro v hv
  obtain ⟨names, rfl⟩ : ∃ names, v = s.rename names := by
    rcases List.mem_pair.1 hv with rfl | rfl
    · exact ⟨_, rfl⟩
    · exact ⟨_, rfl⟩
  exact ⟨hrename names, s.core_rename names, s.inDoubt_rename_iff names⟩

/-- Settles O39: outside restrict mode each transfer does its work. -/
theorem ringModeTransfers : Obligations.RingModeTransfers := fun _ hrm => ⟨execErg_normal hrm, execLrg_normal hrm⟩

/-- Settles O40: I/O bits 10 to 13 are the field ERM loads. -/
theorem restrictModeTransfers : Obligations.RestrictModeTransfers := fun s hrm =>
  ⟨execLrm_normal hrm, { s with rm := true, prot := protectBits s.io }, execErm_normal hrm, rfl, fun _ hm =>
    extract_getMsbD s.io 4 hm (by decide)⟩

/-- Settles O42: outside restrict mode each transfer does its work, which is what the statement writes out. -/
theorem processorTransfers : Obligations.ProcessorTransfers := fun _ _ hrm =>
  ⟨execRck_normal hrm, execCtb_normal hrm, execRro_normal hrm, execRri_normal hrm⟩

end Sys2Proof.Machine
end

section
/-! SUPPORT. What the device in-out transfers answer outside restrict mode, bit by bit where they touch I/O or the receiver
flags (spec/44_iot_devices.md R220 to R244). -/

namespace Sys2Proof.Machine

/-! The drum. -/

/-- A transfer has ended if GO does not stand or the drum is not busy. -/
theorem State.transferRunning_eq_false_iff (s : State) :
    s.transferRunning = false ↔ s.drum.go = false ∨ Config.drumBusy s.turns = false :=
  Bool.and_eq_false_iff

/-- Inside a sequence a DBA is out of order, whether or not a transfer runs (R293). -/
theorem DrumSequence.afterBreak_inside {sequence : DrumSequence} (h : sequence ∉ [.none, .breakGiven]) (running : Bool) :
    sequence.afterBreak running = .outOfOrder := by
  cases sequence with
  | none | breakGiven => simp at h
  | addressGiven | countGiven | outOfOrder => rfl

/-! The data communication system. -/

/-- The 2000 bit touches I/O alone (R228). -/
theorem State.preClear_eq (c : Bool) (s : State) : s.preClear c = { s with io := if c then 0#18 else s.io } := by
  cases c <;> rfl

/-- Clearing one line's flag leaves the other lines' (R229). -/
theorem withoutFlag_getLsbD (line : BitVec 6) (flags : BitVec 64) {n : Nat} (hn : n < 64) :
    (withoutFlag line flags).getLsbD n = (flags.getLsbD n && decide (n ≠ line.toNat)) := by
  have hbit : (1#64 <<< line.toNat).getLsbD n = decide (n = line.toNat) := by
    rw [← BitVec.twoPow_eq, BitVec.getLsbD_twoPow]
    simp [show line.toNat < 64 from line.isLt, eq_comm]
  rw [withoutFlag, BitVec.getLsbD_and, BitVec.getLsbD_not, hbit]
  simp [hn]

/-- A character presented fills the character bits of I/O, and no bit above them (R227). -/
theorem dcsCharacterIn_getMsbD (c : BitVec 8) {k : Nat} (hk : k < 18) :
    (dcsCharacterIn c).getMsbD k = (decide ((if Config.dcsEightBit then 10 else 13) ≤ k) && c.getMsbD (k - 10)) := by
  rw [dcsCharacterIn]
  cases Config.dcsEightBit with
  | true => exact BitVec.getMsbD_setWidth
  | false =>
    by_cases hbits : 13 ≤ k
    · obtain ⟨j, rfl⟩ := Nat.exists_eq_add_of_le hbits
      simp [show j < 5 by omega, show 5 ≤ 8 + j by omega, show 8 - (5 - j) = 13 + j - 10 by omega]
    · simp [hbits]

/-- A character sent is the character bits of I/O, with zeros above a five-bit one (R227). -/
theorem dcsCharacterOf_eq (w : Word) :
    dcsCharacterOf w = if Config.dcsEightBit then w.extractLsb' 0 8 else 0#3 ++ w.extractLsb' 0 5 := by
  rw [dcsCharacterOf, BitVec.setWidth_eq_append (by decide)]
  rfl

/-- The receiver counter stands in I/O bits 12 to 17 (R233). -/
theorem counter_getMsbD_lt_twelve (counter : BitVec 6) {k : Nat} (hk : k < 12) :
    (counter.setWidth 18).getMsbD k = false := by
  simp [BitVec.getMsbD_setWidth, Nat.not_le.2 hk]

theorem counter_getMsbD_twelve_add (counter : BitVec 6) (k : Nat) :
    (counter.setWidth 18).getMsbD (12 + k) = counter.getMsbD k := by
  simp [BitVec.getMsbD_setWidth]

/-! Outside restrict mode. -/

section
variable {s : State} (h : s.rm = false)
include h

theorem execDra_normal :
    execDra s = .next { s with
      io := Config.drumAddress s.draws, drum := { s.drum with currentAddress := Config.drumAddress s.draws }
      draws := s.draws + 1 } :=
  inOut_normal h _

/-- An operation of the data communication system finds I/O as the 2000 bit leaves it (R228). -/
theorem inOut_preClear (c : Bool) (operation : State → State) :
    inOut s (fun s => .next (operation (s.preClear c))) =
      .next (operation { s with io := if c then 0#18 else s.io }) := by
  rw [inOut_normal h, State.preClear_eq]

theorem execRch_normal (c : Bool) : execRch c s = .next (State.receive { s with io := if c then 0#18 else s.io }) :=
  inOut_preClear h c State.receive

theorem execRcc_normal (c : Bool) :
    execRcc c s = .next (State.receive { s with io := if c then 0#18 else s.io }).clearScannerFlag :=
  inOut_preClear h c fun s => s.receive.clearScannerFlag

theorem execTcc_normal (c : Bool) :
    execTcc c s = .next (State.transmitByReceiverCounter { s with io := if c then 0#18 else s.io }) :=
  inOut_preClear h c State.transmitByReceiverCounter

theorem execTcb_normal (c : Bool) :
    execTcb c s = .next (State.transmitBySendBuffer { s with io := if c then 0#18 else s.io }) :=
  inOut_preClear h c State.transmitBySendBuffer

theorem execRrc_normal (c : Bool) :
    execRrc c s = .next (State.readReceiverCounter { s with io := if c then 0#18 else s.io }) :=
  inOut_preClear h c State.readReceiverCounter

theorem execSsb_normal (c : Bool) :
    execSsb c s = .next (State.setSendBuffer { s with io := if c then 0#18 else s.io }) :=
  inOut_preClear h c State.setSendBuffer

theorem execRsc_normal (c : Bool) :
    execRsc c s = .next (State.clearScannerFlag { s with io := if c then 0#18 else s.io }) :=
  inOut_preClear h c State.clearScannerFlag

theorem execDpy_normal :
    execDpy s = .next { s with
      display := { x := coordinate s.ac, y := coordinate s.io, lightPen := false }
      history := s.history ++ [.displayDpy (coordinate s.ac) (coordinate s.io)] } :=
  inOut_normal h _

theorem execSdb_normal :
    execSdb s = .next { s with
      display := { x := coordinate s.ac, y := coordinate s.io, lightPen := s.display.lightPen && Config.sdbKeepsLightPen }
      history := s.history ++ [.displaySdb (coordinate s.ac) (coordinate s.io)] } :=
  inOut_normal h _

theorem execGcf_normal :
    execGcf s = .next { s with display := { s.display with lightPen := false }, history := s.history ++ [.displayGcf] } :=
  inOut_normal h _

theorem execGpl_normal :
    execGpl s = .next { s with
      chargen := { s.chargen with
        shift := s.io, subscript := s.io.getMsbD 17, dotCounter := Config.dotCounter s.draws }
      history := s.history ++ [.chargenGpl s.io], draws := s.draws + 1 } :=
  inOut_normal h _

theorem execGpr_normal :
    execGpr s = .next { s with
      chargen := { s.chargen with
        shift := s.io, dotCounter := Config.dotCounter s.draws
        xCounter := if s.chargen.autoSpacing then Config.xCounter s.draws else s.chargen.xCounter }
      history := s.history ++ [.chargenGpr s.io], draws := s.draws + 1 } :=
  inOut_normal h _

theorem execGlf_normal :
    execGlf s = .next { s with
      chargen := { s.chargen with autoSpacing := s.io.getMsbD 15, size := s.io.extractLsb' 0 2 }
      history := s.history ++ [.chargenGlf (s.io.extractLsb' 0 3)] } :=
  inOut_normal h _

theorem execGsp_normal :
    execGsp s = .next { s with
      chargen := { s.chargen with
        shift := s.io
        dotCounter := if s.io = 0#18 then s.chargen.dotCounter else Config.dotCounter s.draws
        xCounter := Config.xCounter s.draws }
      history := s.history ++ [.chargenGsp s.io], draws := s.draws + 1 } :=
  inOut_normal h _

end

/-! The history of events (R220). -/

/-- An in-out transfer adds events to the history, or leaves it (R190, R220). -/
theorem exec_iot_history {i : Instr} {s t : State} (hi : i.isIot = true) (h : exec i s = .next t) :
    s.history <+: t.history := by
  have hiot : ∀ {k}, inOut s k = .next t → (∀ u, k s = .next u → s.history <+: u.history) → s.history <+: t.history :=
    fun hk => inOut_next (P := fun u => s.history <+: u.history) hk List.prefix_rfl
  cases i with
  | lch | lchI | dch | dchI | tad | tadI | sni | szi | lia | lai | swp | cmi | spc | iif | ifi | idc | ida | scm | sci
  | scf | szl | cll | cml | szlRev => cases hi
  | dia =>
    rw [exec] at h
    refine hiot h fun u hu => ?_
    cases (beginSequence_next hu).2
    exact List.prefix_append _ _
  | dwc =>
    rw [exec] at h
    refine hiot h fun u hu => ?_
    cases (inDrumOrder_next hu).2
    exact List.prefix_append _ _
  | dcl =>
    rw [exec] at h
    refine hiot h fun u hu => ?_
    obtain ⟨p, -, hp⟩ := named_next (withMeaning_next (inDrumOrder_next hu).2).2
    cases hp
    exact List.prefix_append _ _
  | erg | lrg | lrm | erm | rsm | rnm | rck | ctb | rro | rri | dba | dra | rch | rcc | tcc | tcb | rrc | ssb | rsc
  | dpy | sdb | gpl | gpr | gcf | glf | gsp =>
    rw [exec] at h
    refine hiot h ?_
    rintro _ ⟨⟩
    simp

theorem exec_memoryReference_history {i : Instr} {y : Addr} {s t : State}
    (hi : i ∈ [Instr.lch y, .lchI y, .dch y, .dchI y, .tad y, .tadI y]) (h : exec i s = .next t) :
    t.history = s.history := by
  rcases exec_memoryReference_access hi h with rfl | ⟨p, hb, hr⟩
  · rfl
  · simp only [List.mem_cons, List.not_mem_nil, or_false] at hi
    rcases hi with rfl | rfl | rfl | rfl | rfl | rfl
    · cases (execLch_made hb hr y rfl rfl).symm.trans h
      rfl
    · cases (execLchI_made hb hr y rfl rfl).symm.trans h
      rfl
    · cases (execDch_made hb hr y rfl rfl).symm.trans h
      rfl
    · cases (execDchI_made hb hr y rfl rfl).symm.trans h
      rfl
    · cases (execTad_made hb hr y rfl).symm.trans h
      rfl
    · cases (execTadI_made hb hr y rfl).symm.trans h
      rfl

/-- Every instruction but the in-out transfers leaves the history (R190). -/
theorem exec_history {i : Instr} {s t : State} (h : exec i s = .next t) : i.isIot = true ∨ t.history = s.history := by
  rcases instr_groups i with hi | ⟨y, hi⟩ | ⟨x, hi⟩ | ⟨rev, acts, x, rfl⟩ | ⟨x, hi⟩
  · exact .inl hi
  · exact .inr (exec_memoryReference_history hi h)
  · obtain ⟨c, hc⟩ := exec_skip hi s
    cases hc.symm.trans h
    exact .inr (s.skipIf_history c)
  · rw [execSpc_next h]
    exact .inr (by simp)
  · refine .inr ?_
    simp only [List.mem_cons, List.not_mem_nil, or_false] at hi
    rcases hi with rfl | rfl | rfl | rfl | rfl | rfl | rfl | rfl | rfl | rfl | rfl | rfl | rfl <;> cases h <;> rfl

end Sys2Proof.Machine
end

section
/-! The statements about the devices' in-out transfers (spec/44_iot_devices.md). -/

namespace Sys2Proof.Machine

/-- Settles O44: by the order, the transfer's meaning and the name, in which the refusals fall. -/
theorem drumGo : Obligations.DrumGo := by
  intro s hrm name start count meaning
  have hmeaning : (s.drum.located s.io).hasMeaning = true ↔ meaning := Drum.hasMeaning_iff _
  refine ⟨execDcl_out_of_order hrm, fun hseq hno => ?meaningless, fun hseq hyes hname => ?unnamed,
    fun p hseq hyes hname => ?made⟩
  case meaningless => exact execDcl_meaningless hrm hseq (Bool.eq_false_iff.2 (mt hmeaning.1 hno))
  case unnamed => exact execDcl_unnamed hrm hseq (hmeaning.2 hyes) ((s.resolve_eq_none_iff name).2 hname)
  case made =>
    exact ⟨State.devOut (.drumDcl s.io) (s.drumGo p),
      execDcl_in_order hrm hseq (hmeaning.2 hyes) ((s.resolve_eq_some_iff name p).2 hname), rfl, rfl, s.core_drumGo p,
      s.inDoubt_drumGo_iff p⟩

/-- Settles O46: the character and the line's flag, bit by bit. -/
theorem receiveCharacter : Obligations.ReceiveCharacter := by
  intro s c hrm io1 first line
  refine ⟨State.receive { s with io := io1 }, execRch_normal hrm c, fun k hk => ?character, rfl, rfl,
    fun n hn => withoutFlag_getLsbD line _ hn, execRcc_normal hrm c⟩
  case character => exact BitVec.getMsbD_or.trans (by rw [dcsCharacterIn_getMsbD _ hk])

/-- Settles O47: the character bits of the I/O the 2000 bit leaves, and the line's flag. -/
theorem transmitCharacter : Obligations.TransmitCharacter := by
  intro s c hrm io1 ch
  have hch : dcsCharacterOf io1 = ch := dcsCharacterOf_eq io1
  refine ⟨State.transmitByReceiverCounter { s with io := io1 }, State.transmitBySendBuffer { s with io := io1 },
    execTcc_normal hrm c, execTcb_normal hrm c, ?tccFrame, rfl, fun n hn => withoutFlag_getLsbD _ _ hn, ?tcbFrame,
    fun n hn => withoutFlag_getLsbD _ _ hn⟩
  case tccFrame =>
    rw [← hch]
    rfl
  case tcbFrame =>
    rw [← hch, List.append_cons]
    rfl

/-- Settles O48: the bits of I/O above the counter and those it is ORed into. -/
theorem counterBufferAndScanner : Obligations.CounterBufferAndScanner := by
  intro s c hrm io1
  refine ⟨State.readReceiverCounter { s with io := io1 }, execRrc_normal hrm c, fun k hk => ?above, fun k hk => ?counter,
    rfl, execSsb_normal hrm c, execRsc_normal hrm c⟩
  case above => exact BitVec.getMsbD_or.trans (by rw [counter_getMsbD_lt_twelve _ hk, Bool.or_false])
  case counter => exact BitVec.getMsbD_or.trans (by rw [counter_getMsbD_twelve_add])

/-- Settles O51: a trap sends nothing, and of the instructions only the in-out transfers do. -/
theorem historyOnlyGrows : Obligations.HistoryOnlyGrows := by
  intro s t h
  rcases step_next_cases h with ⟨-, rfl⟩ | ⟨p, hp, ⟨i, hdec, hexec⟩ | ⟨-, -, cause, rfl⟩⟩
  · exact ⟨List.prefix_rfl, .inr rfl⟩
  · have hfetch : (s.afterRead p s.pc).advance.history = s.history := rfl
    rw [← hfetch]
    rcases exec_history hexec with hi | hkept
    · exact ⟨exec_iot_history hi hexec, .inl ⟨p, i, hp, hdec, hi⟩⟩
    · exact ⟨hkept ▸ List.prefix_rfl, .inr hkept⟩
  · exact ⟨List.prefix_rfl, .inr rfl⟩

/-- Settles O43: by whether a transfer runs, and where in the drum's order the transfer stands. -/
theorem drumAddressAndCount : Obligations.DrumAddressAndCount := by
  intro s xx hrm figure ended
  have hended : s.transferRunning = false ↔ ended := s.transferRunning_eq_false_iff
  have hrunning : s.transferRunning = true ↔ ¬ended := by rw [← hended, Bool.not_eq_false]
  have hdia : exec (.dia xx) s = beginSequence s fun s => .next (State.devOut (.drumDia s.io) s.drumInitial) :=
    execDia_normal hrm
  refine ⟨⟨State.devOut (.drumDba s.io) s.drumBreak, execDba_normal hrm, rfl, rfl, hrunning, ?mayOpen, ?alone, ?opened,
    fun hseq => DrumSequence.afterBreak_inside hseq _⟩, fun hseq hend => hdia.trans (beginSequence_idle hseq (hended.2 hend) _),
    fun hseq hend => hdia.trans (beginSequence_running hseq (hrunning.2 hend) _),
    fun hseq => hdia.trans (inDrumOrder_neg hseq _), execDwc_in_order hrm, execDwc_out_of_order hrm⟩
  case mayOpen =>
    rintro ⟨hseq, hend⟩
    rw [State.devOut_drum, State.drumBreak_drum, hseq, hended.2 hend]
    rfl
  case alone =>
    rintro ⟨hseq, hend⟩
    rw [State.devOut_drum, State.drumBreak_drum, hseq, hrunning.2 hend]
    rfl
  case opened =>
    intro hseq
    rw [State.devOut_drum, State.drumBreak_drum, hseq]
    rfl

/-- Settles O45: what DRA answers outside restrict mode is what the statement writes out. -/
theorem drumRequestAddress : Obligations.DrumRequestAddress := fun _ hrm => execDra_normal hrm

/-- Settles O49: a light pen status that is off stays off, whatever SDB does with it. -/
theorem displayTransfers : Obligations.DisplayTransfers := by
  intro s hrm x y
  have hpen : s.display.lightPen = false → (s.display.lightPen && Config.sdbKeepsLightPen) = false := fun h => by
    rw [h, Bool.false_and]
  exact ⟨execDpy_normal hrm, ⟨_, execSdb_normal hrm, rfl, hpen⟩, execGcf_normal hrm⟩

/-- Settles O50: GPR moves the X counter only with automatic spacing, GSP the dot counter only if I/O is not clear. -/
theorem characterGeneratorTransfers : Obligations.CharacterGeneratorTransfers := fun _ hrm =>
  ⟨execGpl_normal hrm, ⟨_, execGpr_normal hrm, rfl, fun hspacing => if_neg (Bool.eq_false_iff.1 hspacing)⟩,
    execGlf_normal hrm, _, execGsp_normal hrm, rfl, fun hio => if_pos hio⟩

end Sys2Proof.Machine
end

section
/-! SUPPORT. Which break a step enters, that nothing else ends a run in a fault, and what an instruction in restrict mode
leaves as it was (spec/60_exceptions.md R261, R263, R265, R268). -/

namespace Sys2Proof.Machine

/-! Pending breaks. -/

theorem State.seqBreakEntry_trapped {s : State} {cause : TrapCause} (h : s.breaks.restrict = some cause) :
    s.seqBreakEntry = some (.trapped 0o16 cause) := by
  rw [State.seqBreakEntry, h]
  rfl

/-- With no trap pending, the drum's break stands before the scanner flag's (R265). -/
theorem State.seqBreakEntry_untrapped {s : State} (h : s.Untrapped) :
    s.seqBreakEntry =
      if s.breaks.drum then some (.deviceBreak Config.drumChannel)
      else if s.breaks.scanner then some (.deviceBreak Config.dcsChannel) else none := by
  rw [State.seqBreakEntry, h]

theorem exec_ne_fault (i : Instr) (s : State) (f : Fault) : exec i s ≠ .fault f := by
  intro h
  rcases instructionsStopOnlyWhereTheSpecRefuses i s with
    ⟨t, he⟩ | ⟨he, -⟩ | ⟨he, -⟩ | ⟨he, -⟩ | ⟨he, -⟩ | ⟨he, -⟩ | ⟨he, -⟩ <;> exact nomatch he.symm.trans h

theorem runWord_ne_fault (w : Word) (s : State) (f : Fault) : runWord w s ≠ .fault f := by
  cases hdec : decode w with
  | ok i =>
    rw [runWord_ok hdec]
    exact exec_ne_fault i s.advance f
  | error why =>
    rw [runWord_error hdec, execUnmatched]
    split_ifs <;> exact nofun

/-- Where no break is pending a step traps, is refused, or runs the word fetched: it does not fault. -/
theorem step_ne_fault {s : State} (hb : s.NoBreak) (f : Fault) : step s ≠ .fault f := by
  intro h
  by_cases hd : s.DrumUnaddressable
  · exact nomatch (unaddressableFetchIsRefused s hb (.inr hd)).symm.trans h
  · rcases s.access_trichotomy with hf | hu | ⟨p, hp⟩
    · obtain ⟨t, ht, -⟩ := forbiddenFetchTraps s hb hd hf
      exact nomatch ht.symm.trans h
    · exact nomatch (unaddressableFetchIsRefused s hb (.inl hu)).symm.trans h
    · exact runWord_ne_fault _ _ f ((step_made hb hd hp).symm.trans h)

/-- A fault is the entry of a pending break. -/
theorem step_fault {s : State} {f : Fault} (h : step s = .fault f) : s.seqBreakEntry = some f := by
  cases hb : s.seqBreakEntry with
  | none => exact absurd h (step_ne_fault (s.seqBreakEntry_eq_none_iff.1 hb) f)
  | some g => rw [Host.Outcome.fault.inj ((step_break hb).symm.trans h)]

/-! Restrict mode. -/

/-- What `SamePrivileged` compares. -/
def State.privileged (s : State) :=
  (s.rm, s.prot, s.names, s.mcur, s.ckb, s.drum, s.dcs, s.display, s.chargen, s.remRand, s.history)

theorem samePrivileged_iff (s t : State) : SamePrivileged s t ↔ t.privileged = s.privileged := by
  simp only [SamePrivileged, State.privileged, Prod.mk.injEq]

/-- From `s` to `t` nothing changed that restrict mode protects, and the trap buffer only by a trap (R268). -/
structure Confined (s t : State) : Prop where
  privileged : t.privileged = s.privileged
  trapBuffer : t.Untrapped → t.tb = s.tb

theorem Confined.trans {s t u : State} (h : Confined s t) (h' : Confined t u) (htb : t.tb = s.tb) : Confined s u :=
  ⟨h'.privileged.trans h.privileged, fun hu => (h'.trapBuffer hu).trans htb⟩

theorem State.restrictTrap_confined (s : State) (cause : TrapCause) : Confined s (s.restrictTrap cause) :=
  ⟨rfl, fun hu => nomatch hu⟩

/-- A memory reference, made or not, is confined in either mode. -/
theorem exec_memoryReference_confined {i : Instr} {y : Addr} {s t : State}
    (hi : i ∈ [Instr.lch y, .lchI y, .dch y, .dchI y, .tad y, .tadI y]) (h : exec i s = .next t) : Confined s t := by
  rcases exec_memoryReference_access hi h with rfl | ⟨p, hb, hr⟩
  · exact s.restrictTrap_confined .protectedMemory
  have hmade : ∀ {u}, exec i s = .next u → Confined s u → Confined s t := fun he hu =>
    Host.Outcome.next.inj (he.symm.trans h) ▸ hu
  simp only [List.mem_cons, List.not_mem_nil, or_false] at hi
  rcases hi with rfl | rfl | rfl | rfl | rfl | rfl
  exacts [
    hmade (execLch_made hb hr y rfl rfl) ⟨rfl, fun _ => rfl⟩,
    hmade (execLchI_made hb hr y rfl rfl) ⟨rfl, fun _ => rfl⟩,
    hmade (execDch_made hb hr y rfl rfl) ⟨rfl, fun _ => rfl⟩,
    hmade (execDchI_made hb hr y rfl rfl) ⟨rfl, fun _ => rfl⟩,
    hmade (execTad_made hb hr y rfl) ⟨rfl, fun _ => rfl⟩,
    hmade (execTadI_made hb hr y rfl) ⟨rfl, fun _ => rfl⟩]

/-- In restrict mode every instruction is confined: of those that could touch what it protects, the in-out transfers, all
trap (R190). -/
theorem exec_restricted_confined {i : Instr} {s t : State} (hrm : s.rm = true) (h : exec i s = .next t) : Confined s t := by
  rcases instr_groups i with hi | ⟨y, hi⟩ | ⟨x, hi⟩ | ⟨rev, acts, x, rfl⟩ | ⟨x, hi⟩
  · cases (exec_iot_restricted hi hrm).symm.trans h
    exact s.restrictTrap_confined .iot
  · exact exec_memoryReference_confined hi h
  · obtain ⟨c, hc⟩ := exec_skip hi s
    cases hc.symm.trans h
    constructor <;> simp [State.privileged]
  · rw [execSpc_next h]
    constructor <;> simp [State.privileged]
  · simp only [List.mem_cons, List.not_mem_nil, or_false] at hi
    rcases hi with rfl | rfl | rfl | rfl | rfl | rfl | rfl | rfl | rfl | rfl | rfl | rfl | rfl <;> cases h <;>
      exact ⟨rfl, fun _ => rfl⟩

/-- In restrict mode every step is confined. -/
theorem step_restricted_confined {s t : State} (hrm : s.rm = true) (h : step s = .next t) : Confined s t := by
  have hfetch : ∀ p, Confined s (s.afterRead p s.pc).advance := fun p => ⟨rfl, fun _ => rfl⟩
  rcases step_next_cases h with ⟨-, rfl⟩ | ⟨p, -, ⟨i, -, hexec⟩ | ⟨-, -, cause, rfl⟩⟩
  · exact s.restrictTrap_confined .protectedMemory
  · exact (hfetch p).trans (exec_restricted_confined hrm hexec) rfl
  · exact (hfetch p).trans (State.restrictTrap_confined _ cause) rfl

end Sys2Proof.Machine
end

section
/-! The statements about traps, breaks and restrict mode (spec/60_exceptions.md). -/

namespace Sys2Proof.Machine

/-- Settles O55: a step in restrict mode is confined, and RM is among what it leaves. -/
theorem restrictModeIsConfined : Obligations.RestrictModeIsConfined := by
  intro s t hrm h
  obtain ⟨hpriv, htb⟩ := step_restricted_confined hrm h
  have hmode : t.rm = s.rm := congrArg Prod.fst hpriv
  exact ⟨hmode.trans hrm, (samePrivileged_iff s t).2 hpriv, htb⟩

/-- Settles O12: a fault is the entry of a pending break, and the trap's stands before the drum's, the drum's before the
scanner flag's. -/
theorem faultsComeFromPendingBreaks : Obligations.FaultsComeFromPendingBreaks := by
  intro s f h
  have hentry := step_fault h
  cases htrap : s.breaks.restrict with
  | some cause =>
    rw [State.seqBreakEntry_trapped htrap] at hentry
    exact .inl ⟨cause, rfl, (Option.some.inj hentry).symm⟩
  | none =>
    rw [State.seqBreakEntry_untrapped htrap] at hentry
    split_ifs at hentry with hdrum hscanner
    · exact .inr (.inl ⟨rfl, hdrum, (Option.some.inj hentry).symm⟩)
    · exact .inr (.inr ⟨rfl, Bool.eq_false_iff.2 hdrum, hscanner, (Option.some.inj hentry).symm⟩)

/-- Settles O11: the pending trap is entered before any fetch. -/
theorem trappedStateStops : Obligations.TrappedStateStops := fun _ _ h => step_break (State.seqBreakEntry_trapped h)

end Sys2Proof.Machine
end

section
/-! SUPPORT. A state in which a word has been placed is ready to fetch that word: no break, no trap and no refusal stands
before it (log 40), whatever the state was before. -/

namespace Sys2Proof.Machine

/-! The physical names (R196). -/

theorem State.nameOf_of_physicalNames {s : State} (h : s.names = physicalNames) (p : MemNo) : s.nameOf p = p := by
  rw [State.nameOf, h]
  exact (by decide : ∀ p : MemNo, physicalNames.get p.toFin = p) p

theorem State.resolve_of_physicalNames {s : State} (h : s.names = physicalNames) (m : MemNo) : s.resolve m = some m :=
  (s.resolve_eq_some_iff m m).2 fun q => by rw [State.nameOf_of_physicalNames h]

/-! What could stand before the fetch, each in turn. -/

/-- The name addressed is borne once: it was before, or the physical names have been restored. -/
theorem State.placeWord_resolve (s : State) (w : Word) : (s.placeWord w).resolve s.mcur = some s.fetchMemory := by
  cases h : s.resolve s.mcur with
  | some p =>
    have hnames : (s.placeWord w).names = s.names := by simp [State.fetchNames, h]
    rw [State.resolve_congr hnames, h, State.fetchMemory, h]
  | none =>
    have hnames : (s.placeWord w).names = physicalNames := by simp [State.fetchNames, h]
    rw [State.resolve_of_physicalNames hnames, State.fetchMemory, h]

/-- A memory that was protected from the fetch is protected no longer. -/
theorem State.placeWord_blocked (s : State) (w : Word) : (s.placeWord w).blocked = false := by
  cases h : s.blocked with
  | true =>
    have hprot : (s.placeWord w).prot = 0#4 := by simp [h]
    rw [State.blocked, State.protects, hprot, BitVec.getMsbD_zero, Bool.and_false]
  | false =>
    have hprot : (s.placeWord w).prot = s.prot := by simp [h]
    exact (State.blocked_congr (s.placeWord_rm w) hprot (s.placeWord_mcur w)).trans h

theorem State.placeWord_addresses (s : State) (w : Word) : (s.placeWord w).Addresses s.fetchMemory :=
  (State.addresses_iff _ _).2 ⟨s.placeWord_blocked w, s.placeWord_resolve w⟩

theorem State.placeWord_noBreak (s : State) (w : Word) : (s.placeWord w).NoBreak := ⟨rfl, rfl, rfl⟩

/-- GO is left standing for a running transfer only where the name DCL gave still resolves. -/
theorem State.placeWord_not_drumUnaddressable (s : State) (w : Word) : ¬(s.placeWord w).DrumUnaddressable := by
  rw [State.drumUnaddressable_iff, State.transferRunning_iff]
  rintro ⟨⟨hgo, hbusy⟩, hunnamed⟩
  obtain ⟨hstood, hkept⟩ := Bool.and_eq_true_iff.1 hgo
  have hrunning : s.transferRunning = true := s.transferRunning_iff.2 ⟨hstood, hbusy⟩
  have hresolves : (State.resolve { s with names := s.fetchNames } s.drum.memory).isSome = true := by
    simpa [hrunning] using hkept
  exact Option.isSome_iff_ne_none.1 hresolves hunnamed

/-- No window covers the location fetched. -/
theorem State.placeWord_inDoubt (s : State) (w : Word) : (s.placeWord w).inDoubt s.fetchMemory s.pc = false := by
  simp [State.inDoubt]

theorem State.placeWord_core (s : State) (w : Word) : (s.placeWord w).core s.fetchMemory s.pc = w := by
  rw [State.core_of_not_inDoubt (s.placeWord_inDoubt w), State.placeWord_mem, Memory.wordAt_store_same, Option.getD_some]

/-- The fetch after a word has been placed is made and finds that word. -/
theorem step_placeWord (s : State) (w : Word) :
    step (s.placeWord w) = runWord w { s.placeWord w with ma := s.pc, mb := w, turns := s.turns + 1 } := by
  have hfetch := step_made (s.placeWord_noBreak w) (s.placeWord_not_drumUnaddressable w) (s.placeWord_addresses w)
  rw [State.placeWord_pc, State.afterRead, State.placeWord_core] at hfetch
  exact hfetch

theorem State.withFetchWord_eq_placeWord (s : State) {nbits w : Nat} (hbits : 18 ≤ nbits) (hw : w < 2 ^ 18) :
    s.withFetchWord nbits w = s.placeWord (BitVec.ofNat 18 w) := by
  rw [State.withFetchWord, Nat.mod_eq_of_lt (hw.trans_le (Nat.pow_le_pow_right Nat.two_pos hbits))]

end Sys2Proof.Machine
end

section
/-! The statements about the load and reset (spec/10_state.md section 2, spec/70_reset_and_hazards.md section 1). -/

namespace Sys2Proof.Machine

/-- Settles O14: the number stored is the word, and the fetch finds it whatever the state was before the load. -/
theorem loadedWordRunsNext : Obligations.LoadedWordRunsNext := by
  intro s nbits w i hbits hw hdec
  rw [s.withFetchWord_eq_placeWord hbits hw, step_placeWord, runWord_ok hdec]
  rfl

/-- Settles O60: the values are read off, and under the physical names memory 0 is addressed. -/
theorem resetIsReadyToRun : Obligations.ResetIsReadyToRun := by
  have hnames : ∀ p, State.reset.nameOf p = p := State.nameOf_of_physicalNames rfl
  have haddresses : State.reset.Addresses 0#2 :=
    (State.addresses_iff _ _).2 ⟨rfl, State.resolve_of_physicalNames rfl 0#2⟩
  exact ⟨rfl, rfl, rfl, hnames, rfl, ⟨rfl, rfl, rfl⟩, haddresses, rfl, rfl⟩

/-- Settles O59: core lists nothing, and no break, protection or transfer stands. -/
theorem invariantHoldsAtReset : Obligations.InvariantHoldsAtReset where
  memoryForm := State.reset_memory_wf
  trapsOnlyRestricted := fun htrap => absurd rfl htrap
  noDeviceBreak := ⟨rfl, rfl⟩
  protectsOnlyRestricted := fun _ => rfl
  listsNoWordInDoubt := fun _ hcell => absurd hcell List.not_mem_nil
  sequencesOnlyAfterTransfers := fun _ => rfl

end Sys2Proof.Machine
end
